-- ==== Sys2Proof/Word.lean ====
section
/-! DEFINITION. The word types of the block: rule R8 (8-bit operands and results) and rule R63 (32-bit command words). -/

namespace Sys2Proof

/-- An 8-bit unsigned value: every operand and result of the block (rule R8). -/
abbrev Byte := BitVec 8

/-- A 32-bit word: a command word (rule R63) or a host register (rule R17). -/
abbrev Word := BitVec 32

/-- A pin identity: an opaque 8-bit value (rule R6). -/
abbrev PinId := BitVec 8

end Sys2Proof
end

