-- ==== Sys2Proof/Config.lean ====
section
/-! DEFINITION. What the platform fixes (rules R6 to R10, R156) and the free values (rule R87). -/

namespace Sys2Proof

/-- The eight device registers (rules R43, R44). -/
inductive DevReg where
  | seconds | minutes | hours | date | month | weekday | year | wp
  deriving DecidableEq, Repr

/-- `ADDR_MAP`: the 3-bit register number `AAA` of each device register (rule R7). -/
structure AddrMap where
  seconds : BitVec 3
  minutes : BitVec 3
  hours : BitVec 3
  date : BitVec 3
  month : BitVec 3
  weekday : BitVec 3
  year : BitVec 3
  wp : BitVec 3
  deriving DecidableEq, Repr

/-- The number the map gives a register. -/
def AddrMap.num (m : AddrMap) : DevReg → BitVec 3
  | .seconds => m.seconds
  | .minutes => m.minutes
  | .hours => m.hours
  | .date => m.date
  | .month => m.month
  | .weekday => m.weekday
  | .year => m.year
  | .wp => m.wp

/-- The parameters a model takes as an argument (00_scope.md section 3, 92_eei_decisions.md "Named parameters").
They are constants of the platform: they stand in the state so that every claim holds for all of them, and no step
changes them. -/
structure Config where
  /-- `ADDR_MAP` (rule R7). -/
  addrMap : AddrMap
  /-- `T_HALF`, a lower bound of one `Delay` (rule R9). DESIGN CHOICE (log 28): a whole number of microseconds. -/
  tHalf : Nat
  /-- `f_clk` (rule R156). DESIGN CHOICE (log 28): a whole number of MHz. -/
  fClk : Nat
  /-- `DELAY_TICKS`: the clock cycles one `Delay` counts (rule R156). -/
  delayTicks : Nat
  deriving DecidableEq, Repr

/-- The default `ADDR_MAP` of rule R7. PRESUMED (the spec marks it general knowledge, log 9). -/
def AddrMap.default : AddrMap := ⟨0, 1, 2, 3, 4, 5, 6, 7⟩

/-- The defaults: rule R7's map, rule R9's 2 microseconds. DESIGN CHOICE for `f_clk` and `DELAY_TICKS` (log 9). -/
def Config.default : Config := { addrMap := .default, tHalf := 2, fClk := 1, delayTicks := 2 }

/-- The platform's duty of rule R156: `DELAY_TICKS >= T_HALF * f_clk`. -/
abbrev Config.wf (c : Config) : Prop := c.tHalf * c.fClk ≤ c.delayTicks

/-- FREE VALUE (rule R87): the level of the n-th sample where the environment's answers in the state have run out. -/
opaque Config.freeSample : Nat → Bool

/-- `PIN_DECODE`: the physical (port, line) a pin identity names (rule R6). The block never interprets it. -/
opaque Config.pinDecode : PinId → Nat × Nat

end Sys2Proof
end

