-- ==== Sys2Proof/Syntax.lean ====
section
/-! DEFINITION. The instructions: one constructor per row of spec/opcode_table.json. -/

namespace Sys2Proof

/-- The 18 host operations (rule R65) and the 16 wire command bytes (rules R68, R69). Operands are the fields of the
command word of rule R63 (`A`, `B` bytes, `P` a bit). A write command byte carries the data byte that follows it on the
wire (rules R51, R82). -/
inductive Instr where
  -- Bus Transport (40_bus_transport.md)
  | busReset
  | busStart (c : Byte)
  | busWriteByte (b : Byte)
  | busReadByte
  | writeReg (c v : Byte)
  | readReg (c : Byte)
  -- single-field getters (42_public_api.md)
  | getSeconds
  | getMinutes
  | getHours (is12h : Bool)
  -- register codec (41_register_codec.md)
  | rangeMin (f : Byte)
  | rangeMax (f : Byte)
  | dateMax (y m : Byte)
  | encode (f v : Byte)
  | decode (f p : Byte)
  -- write protection, aggregate, configure (42_public_api.md)
  | setWp (enabled : Bool)
  | getDatetime (present : Bool)
  | setDatetime (present : Bool)
  | configure (present : Bool)
  -- wire command bytes (30_encoding.md section 3)
  | wireWrSeconds (v : Byte)
  | wireRdSeconds
  | wireWrMinutes (v : Byte)
  | wireRdMinutes
  | wireWrHours (v : Byte)
  | wireRdHours
  | wireWrDate (v : Byte)
  | wireRdDate
  | wireWrMonth (v : Byte)
  | wireRdMonth
  | wireWrWeekday (v : Byte)
  | wireRdWeekday
  | wireWrYear (v : Byte)
  | wireRdYear
  | wireWrWp (v : Byte)
  | wireRdWp
  deriving DecidableEq, Repr

end Sys2Proof
end

