-- ==== Sys2Proof/WellFormed.lean ====
section
/-! DEFINITION. The legality of a command word's fields, as the table of rule R65 and rules R66, R67 give it. It is
written beside the decoder, not from it: that the two agree is an obligation. -/

namespace Sys2Proof

/-- The fields of a command word (rule R63). -/
structure CommandFields where
  op : Byte
  a : Byte
  b : Byte
  rsv : BitVec 7
  p : Bool
  deriving DecidableEq, Repr

/-- One row of the table of rule R65: which fields the operation uses. -/
structure OpRow where
  op : Byte
  usesA : Bool
  usesB : Bool
  usesP : Bool
  deriving DecidableEq, Repr

/-- The table of rule R65. -/
def opRows : List OpRow :=
  [⟨0x01, false, false, false⟩, ⟨0x02, true, false, false⟩, ⟨0x03, true, false, false⟩,
   ⟨0x04, false, false, false⟩, ⟨0x05, true, true, false⟩, ⟨0x06, true, false, false⟩] ++
  [⟨0x10, false, false, false⟩, ⟨0x11, false, false, false⟩, ⟨0x12, false, false, true⟩] ++
  [⟨0x20, true, false, false⟩, ⟨0x21, true, false, false⟩, ⟨0x22, true, true, false⟩,
   ⟨0x23, true, true, false⟩, ⟨0x24, true, true, false⟩] ++
  [⟨0x30, false, false, true⟩, ⟨0x40, false, false, true⟩, ⟨0x41, false, false, true⟩,
   ⟨0x70, false, false, true⟩]

/-- The row of an assigned operation code; none for the codes of rule R67. -/
def opRow? (op : Byte) : Option OpRow := opRows.find? (fun r => r.op == op)

/-- Rule R66 for one row: RSV and the unused fields are 0. -/
def OpRow.accepts (r : OpRow) (c : CommandFields) : Bool :=
  c.rsv == 0 && (r.usesA || c.a == 0) && (r.usesB || c.b == 0) && (r.usesP || !c.p)

/-- A legal command word (rules R66, R67). -/
def CommandFields.wellFormed (c : CommandFields) : Bool :=
  match opRow? c.op with
  | some r => r.accepts c
  | none => false

/-- The command byte pattern `1000_AAA_R` (rule R68). -/
def wireByteOk (c : Byte) : Bool := c &&& 0xF0 == 0x80

/-- The fields of a host operation's command word (rule R65); none for a wire command byte. -/
def Instr.fields? : Instr → Option CommandFields
  | .busReset => some ⟨0x01, 0, 0, 0, false⟩
  | .busStart c => some ⟨0x02, c, 0, 0, false⟩
  | .busWriteByte b => some ⟨0x03, b, 0, 0, false⟩
  | .busReadByte => some ⟨0x04, 0, 0, 0, false⟩
  | .writeReg c v => some ⟨0x05, c, v, 0, false⟩
  | .readReg c => some ⟨0x06, c, 0, 0, false⟩
  | .getSeconds => some ⟨0x10, 0, 0, 0, false⟩
  | .getMinutes => some ⟨0x11, 0, 0, 0, false⟩
  | .getHours p => some ⟨0x12, 0, 0, 0, p⟩
  | .rangeMin f => some ⟨0x20, f, 0, 0, false⟩
  | .rangeMax f => some ⟨0x21, f, 0, 0, false⟩
  | .dateMax y m => some ⟨0x22, y, m, 0, false⟩
  | .encode f v => some ⟨0x23, f, v, 0, false⟩
  | .decode f p => some ⟨0x24, f, p, 0, false⟩
  | .setWp p => some ⟨0x30, 0, 0, 0, p⟩
  | .getDatetime p => some ⟨0x40, 0, 0, 0, p⟩
  | .setDatetime p => some ⟨0x41, 0, 0, 0, p⟩
  | .configure p => some ⟨0x70, 0, 0, 0, p⟩
  | .wireWrSeconds _ | .wireRdSeconds | .wireWrMinutes _ | .wireRdMinutes => none
  | .wireWrHours _ | .wireRdHours | .wireWrDate _ | .wireRdDate => none
  | .wireWrMonth _ | .wireRdMonth | .wireWrWeekday _ | .wireRdWeekday => none
  | .wireWrYear _ | .wireRdYear | .wireWrWp _ | .wireRdWp => none

/-- The command byte of a wire row (the table of rule R44, default map); none for a host operation. -/
def Instr.wireByte? : Instr → Option Byte
  | .wireWrSeconds _ => some 0x80
  | .wireRdSeconds => some 0x81
  | .wireWrMinutes _ => some 0x82
  | .wireRdMinutes => some 0x83
  | .wireWrHours _ => some 0x84
  | .wireRdHours => some 0x85
  | .wireWrDate _ => some 0x86
  | .wireRdDate => some 0x87
  | .wireWrMonth _ => some 0x88
  | .wireRdMonth => some 0x89
  | .wireWrWeekday _ => some 0x8A
  | .wireRdWeekday => some 0x8B
  | .wireWrYear _ => some 0x8C
  | .wireRdYear => some 0x8D
  | .wireWrWp _ => some 0x8E
  | .wireRdWp => some 0x8F
  | .busReset | .busStart _ | .busWriteByte _ | .busReadByte | .writeReg _ _ | .readReg _ => none
  | .getSeconds | .getMinutes | .getHours _ => none
  | .rangeMin _ | .rangeMax _ | .dateMax _ _ | .encode _ _ | .decode _ _ => none
  | .setWp _ | .getDatetime _ | .setDatetime _ | .configure _ => none

/-- A well-formed instruction: its command word is legal, or its command byte has the pattern of rule R68. -/
def Instr.wellFormed (i : Instr) : Bool :=
  i.fields?.any CommandFields.wellFormed || i.wireByte?.any wireByteOk

end Sys2Proof
end

