-- ==== Sys2Proof/Decode.lean ====
section
/-! DEFINITION. The decoder (total on any bytes, rejecting by name) and the encoder, both from 30_encoding.md. -/

namespace Sys2Proof

/-! ## Fields of a command word (rule R63) -/

/-- Bits 31:24, OP. -/
def wordOp (w : Word) : Byte := w.extractLsb' 24 8
/-- Bits 23:16, A. -/
def wordA (w : Word) : Byte := w.extractLsb' 16 8
/-- Bits 15:8, B. -/
def wordB (w : Word) : Byte := w.extractLsb' 8 8
/-- Bits 7:1, RSV. -/
def wordRsv (w : Word) : BitVec 7 := w.extractLsb' 1 7
/-- Bit 0, P. -/
def wordP (w : Word) : Bool := w.getLsbD 0

/-- The five fields together. -/
def wordFields (w : Word) : CommandFields := ⟨wordOp w, wordA w, wordB w, wordRsv w, wordP w⟩

/-- A byte at bit n of a word: `x << n`. -/
def byteAt (x : Byte) (n : Nat) : Word := x.setWidth 32 <<< n

/-- `OP << 24 | A << 16 | B << 8 | P`, RSV being 0 (rule R63). -/
def packWord (op a b : Byte) (p : Bool) : Word :=
  byteAt op 24 ||| byteAt a 16 ||| byteAt b 8 ||| (if p then 1 else 0)

/-! ## Decoding -/

/-- Why bytes are no instruction. -/
inductive DecodeError where
  /-- OP is not in the table of rule R65 (rule R67). -/
  | unassignedOp (op : Byte)
  /-- RSV is not 0 (rule R66). -/
  | reservedNonzero
  /-- A field the operation does not use is not 0 (rule R66). -/
  | unusedNonzero
  /-- A single byte that is no read command byte of rule R69. -/
  | notReadCommand (c : Byte)
  /-- Two bytes whose first is no write command byte of rule R69. -/
  | notWriteCommand (c : Byte)
  /-- Neither a wire transaction (1 or 2 bytes) nor a command word (4 bytes): rule R82 has no other length. -/
  | noSuchLength (n : Nat)
  deriving DecidableEq, Repr

/-- The row of rule R65 for an operation code: whether the fields it leaves unused are 0, and the instruction. -/
def opCandidate (op a b : Byte) (p : Bool) : Option (Bool × Instr) :=
  match op.toNat with
  | 0x01 => some (a == 0 && b == 0 && !p, .busReset)
  | 0x02 => some (b == 0 && !p, .busStart a)
  | 0x03 => some (b == 0 && !p, .busWriteByte a)
  | 0x04 => some (a == 0 && b == 0 && !p, .busReadByte)
  | 0x05 => some (!p, .writeReg a b)
  | 0x06 => some (b == 0 && !p, .readReg a)
  | 0x10 => some (a == 0 && b == 0 && !p, .getSeconds)
  | 0x11 => some (a == 0 && b == 0 && !p, .getMinutes)
  | 0x12 => some (a == 0 && b == 0, .getHours p)
  | 0x20 => some (b == 0 && !p, .rangeMin a)
  | 0x21 => some (b == 0 && !p, .rangeMax a)
  | 0x22 => some (!p, .dateMax a b)
  | 0x23 => some (!p, .encode a b)
  | 0x24 => some (!p, .decode a b)
  | 0x30 => some (a == 0 && b == 0, .setWp p)
  | 0x40 => some (a == 0 && b == 0, .getDatetime p)
  | 0x41 => some (a == 0 && b == 0, .setDatetime p)
  | 0x70 => some (a == 0 && b == 0, .configure p)
  | _ => none

/-- A host command word (rules R63, R65, R66, R67). -/
def decodeWord (w : Word) : Except DecodeError Instr :=
  match opCandidate (wordOp w) (wordA w) (wordB w) (wordP w) with
  | none => .error (.unassignedOp (wordOp w))
  | some (unusedZero, i) =>
    if wordRsv w != 0 then .error .reservedNonzero
    else if unusedZero then .ok i
    else .error .unusedNonzero

/-- A read command byte (rules R44, R69): bit 0 is 1. -/
def decodeWireRead (c : Byte) : Except DecodeError Instr :=
  match c.toNat with
  | 0x81 => .ok .wireRdSeconds
  | 0x83 => .ok .wireRdMinutes
  | 0x85 => .ok .wireRdHours
  | 0x87 => .ok .wireRdDate
  | 0x89 => .ok .wireRdMonth
  | 0x8B => .ok .wireRdWeekday
  | 0x8D => .ok .wireRdYear
  | 0x8F => .ok .wireRdWp
  | _ => .error (.notReadCommand c)

/-- A write command byte and the data byte after it (rules R44, R69, R51): bit 0 of the command byte is 0. -/
def decodeWireWrite (c v : Byte) : Except DecodeError Instr :=
  match c.toNat with
  | 0x80 => .ok (.wireWrSeconds v)
  | 0x82 => .ok (.wireWrMinutes v)
  | 0x84 => .ok (.wireWrHours v)
  | 0x86 => .ok (.wireWrDate v)
  | 0x88 => .ok (.wireWrMonth v)
  | 0x8A => .ok (.wireWrWeekday v)
  | 0x8C => .ok (.wireWrYear v)
  | 0x8E => .ok (.wireWrWp v)
  | _ => .error (.notWriteCommand c)

/-- A word from its four bytes, the least significant first (log 18: the spec has no byte order, rule R49). -/
def wordOfBytes (b0 b1 b2 b3 : Byte) : Word := byteAt b3 24 ||| byteAt b2 16 ||| byteAt b1 8 ||| byteAt b0 0

/-- The decoder, total on any bytes: one byte is a read command on the wire, two are a write command and its data
byte, four are a host command word (rule R82). -/
def decode : List Byte → Except DecodeError Instr
  | [c] => decodeWireRead c
  | [c, v] => decodeWireWrite c v
  | [b0, b1, b2, b3] => decodeWord (wordOfBytes b0 b1 b2 b3)
  | bs => .error (.noSuchLength bs.length)

/-! ## Encoding -/

/-- The host command word that carries an instruction: its own word for a host operation (rules R63, R65); for a wire
command byte the word of the pseudo-instruction `rd REG` or `wr REG, V` that sends exactly it (rule R84, log 7). -/
def commandWord : Instr → Word
  | .busReset => packWord 0x01 0 0 false
  | .busStart c => packWord 0x02 c 0 false
  | .busWriteByte b => packWord 0x03 b 0 false
  | .busReadByte => packWord 0x04 0 0 false
  | .writeReg c v => packWord 0x05 c v false
  | .readReg c => packWord 0x06 c 0 false
  | .getSeconds => packWord 0x10 0 0 false
  | .getMinutes => packWord 0x11 0 0 false
  | .getHours p => packWord 0x12 0 0 p
  | .rangeMin f => packWord 0x20 f 0 false
  | .rangeMax f => packWord 0x21 f 0 false
  | .dateMax y m => packWord 0x22 y m false
  | .encode f v => packWord 0x23 f v false
  | .decode f p => packWord 0x24 f p false
  | .setWp p => packWord 0x30 0 0 p
  | .getDatetime p => packWord 0x40 0 0 p
  | .setDatetime p => packWord 0x41 0 0 p
  | .configure p => packWord 0x70 0 0 p
  | .wireWrSeconds v => packWord 0x05 0x80 v false
  | .wireRdSeconds => packWord 0x06 0x81 0 false
  | .wireWrMinutes v => packWord 0x05 0x82 v false
  | .wireRdMinutes => packWord 0x06 0x83 0 false
  | .wireWrHours v => packWord 0x05 0x84 v false
  | .wireRdHours => packWord 0x06 0x85 0 false
  | .wireWrDate v => packWord 0x05 0x86 v false
  | .wireRdDate => packWord 0x06 0x87 0 false
  | .wireWrMonth v => packWord 0x05 0x88 v false
  | .wireRdMonth => packWord 0x06 0x89 0 false
  | .wireWrWeekday v => packWord 0x05 0x8A v false
  | .wireRdWeekday => packWord 0x06 0x8B 0 false
  | .wireWrYear v => packWord 0x05 0x8C v false
  | .wireRdYear => packWord 0x06 0x8D 0 false
  | .wireWrWp v => packWord 0x05 0x8E v false
  | .wireRdWp => packWord 0x06 0x8F 0 false

/-- The four bytes of a word, the least significant first (log 18). -/
def bytesOfWord (w : Word) : List Byte :=
  [w.extractLsb' 0 8, w.extractLsb' 8 8, w.extractLsb' 16 8, w.extractLsb' 24 8]

/-- The wire bytes of a wire command row (rule R44's table of command bytes, rule R51); none for a host operation. -/
def wireBytes? : Instr → Option (List Byte)
  | .wireWrSeconds v => some [0x80, v]
  | .wireRdSeconds => some [0x81]
  | .wireWrMinutes v => some [0x82, v]
  | .wireRdMinutes => some [0x83]
  | .wireWrHours v => some [0x84, v]
  | .wireRdHours => some [0x85]
  | .wireWrDate v => some [0x86, v]
  | .wireRdDate => some [0x87]
  | .wireWrMonth v => some [0x88, v]
  | .wireRdMonth => some [0x89]
  | .wireWrWeekday v => some [0x8A, v]
  | .wireRdWeekday => some [0x8B]
  | .wireWrYear v => some [0x8C, v]
  | .wireRdYear => some [0x8D]
  | .wireWrWp v => some [0x8E, v]
  | .wireRdWp => some [0x8F]
  | .busReset | .busStart _ | .busWriteByte _ | .busReadByte | .writeReg _ _ | .readReg _ => none
  | .getSeconds | .getMinutes | .getHours _ => none
  | .rangeMin _ | .rangeMax _ | .dateMax _ _ | .encode _ _ | .decode _ _ => none
  | .setWp _ | .getDatetime _ | .setDatetime _ | .configure _ => none

/-- The bytes of an instruction. -/
def encode (i : Instr) : List Byte :=
  match wireBytes? i with
  | some bs => bs
  | none => bytesOfWord (commandWord i)

/-! ## The opcode table's numbering -/

/-- The bytes an instruction of `nbits` bits numbered `w` is given to the decoder as: an 8-bit row is a wire command
byte, followed by its data byte where bit 0 says write; every other row is a command word. -/
def tableBytes (nbits w : Nat) : List Byte :=
  if nbits ≤ 16 then
    if (BitVec.ofNat 8 w).getLsbD 0 then [BitVec.ofNat 8 w]
    else [BitVec.ofNat 8 w, BitVec.ofNat 8 (w / 256)]
  else bytesOfWord (BitVec.ofNat 32 w)

/-- The instruction the decoder reads from the opcode table's `nbits`-bit word `w`. -/
def decodeTableWord (nbits w : Nat) : Option Instr :=
  match decode (tableBytes nbits w) with
  | .ok i => some i
  | .error _ => none

end Sys2Proof
end

