-- ==== Sys2Proof/Machine/State.lean ====
section
/-! DEFINITION. The state of the block (10_state.md) as plain data, the micro-steps of an operation, the inputs, the
faults and refusals, and the state after reset. -/

namespace Sys2Proof.Machine

/-- BUS_STATE (rule R30): exactly five values. -/
inductive BusState where
  | idle | reset | cmd | started | xfer
  deriving DecidableEq, Repr

/-- The fault causes of rule R148; `none` is code 0x00. -/
inductive Cause where
  | none | illegalOp | notConfigured | invalidField | invalidMonth | range
  deriving DecidableEq, Repr

/-- The three line roles (rule R34). -/
inductive Role where
  | ce | sclk | io
  deriving DecidableEq, Repr

/-- A direction the block gives a line (rule R34): push-pull output, or floating input. -/
inductive Dir where
  | output | floating
  deriving DecidableEq, Repr

/-- DIR[r] and LVL[r] of one role (rule R34). `dir = none` is the spec's None: the block has not taken the line. -/
structure Pin where
  dir : Option Dir
  lvl : Bool
  deriving DecidableEq, Repr

/-- The datetime buffer DT (rule R25). -/
structure DateTime where
  sec : Byte
  min : Byte
  hour : Byte
  wday : Byte
  date : Byte
  mon : Byte
  year : Byte
  fmt : Byte
  pm : Byte
  deriving DecidableEq, Repr

/-- The ten field descriptors (rule R64). -/
inductive Field where
  | seconds | minutes | hours24 | hours12 | weekday | date | month | year | format | ampm
  deriving DecidableEq, Repr

/-- Where the byte a shift-out sends comes from. -/
inductive ByteSrc where
  /-- A byte of the command word, or a constant. -/
  | lit (b : Byte)
  /-- `CMD_RD(reg)` (rule R69). -/
  | cmdRd (r : DevReg)
  /-- `CMD_WR(reg)` (rule R69). -/
  | cmdWr (r : DevReg)
  /-- The DT registers packed for a device register (rule R145). -/
  | dt (r : DevReg)
  deriving DecidableEq, Repr

/-- One micro-step: a pin or timer event (rule R85), or an internal assignment of a procedure, which is no event
(rule R86). -/
inductive Micro where
  /-- `Drive(r, b)`. -/
  | drive (r : Role) (b : Bool)
  /-- `Drive(IO, SHIFT[i])` (rule R92). -/
  | driveBit (i : BitVec 3)
  /-- `SetDir(r, d)`. -/
  | setDir (r : Role) (d : Dir)
  /-- `s <- Sample(IO)` (rule R93). -/
  | sample
  /-- `Delay`. -/
  | delay
  /-- `BUS_STATE <- b`. -/
  | setBus (b : BusState)
  /-- `BUS_STATE <- (LVL[CE] == 1) ? STARTED : IDLE` (rules R92, R93). -/
  | settleBus
  /-- `BITIDX <- i`. -/
  | setBit (i : BitVec 3)
  /-- `SHIFT <- b`. -/
  | loadShift (b : ByteSrc)
  /-- `ACC <- 0`. -/
  | clearAcc
  /-- `ACC <- ACC | (s << i)`. -/
  | orAcc (i : BitVec 3)
  /-- `RESULT <- v`. -/
  | setResult (v : Byte)
  /-- `RESULT <-` the byte read, raw (`none`) or decoded with a field's layout. -/
  | resultAcc (f : Option Field)
  /-- The DT registers of a device register `<-` the byte read, decoded (rule R144). -/
  | dtAcc (r : DevReg)
  /-- `PINS <- PINCFG[23:0]` (rule R146). -/
  | latchPins
  /-- `CONFIGURED <- 1` (rule R146). -/
  | setConfigured
  /-- `OK <- b`. -/
  | setOk (b : Bool)
  deriving DecidableEq, Repr

/-- An event of the trace (rule R86), tagged with its role and the pin identity it resolved to. -/
inductive Event where
  | drive (r : Role) (pin : PinId) (b : Bool)
  /-- `SetDir(r, Out)`, with the level the line is driven to at once (rule R85, log 15). -/
  | setOut (r : Role) (pin : PinId) (b : Bool)
  /-- `SetDir(r, In)`. -/
  | setIn (r : Role) (pin : PinId)
  /-- `Sample(IO)`, with the level drawn. -/
  | sample (pin : PinId) (b : Bool)
  | delay
  /-- The model's marker (log 13): a block reset, after which the block drives no line (rule R161), nor one an earlier
  CONFIGURE named. -/
  | released
  deriving DecidableEq, Repr

/-- An operation in progress (rule R33): BUSY = 1 exactly while there is one (rule R29). -/
structure Running where
  /-- OP, the accepted command word. -/
  op : Word
  /-- The micro-step position: events done so far. -/
  pos : Nat
  /-- The micro-steps still to come. -/
  todo : List Micro
  /-- The delay timer: idle, or the cycles the running `Delay` still counts (rule R156). -/
  timer : Option Nat
  deriving DecidableEq, Repr

/-- What happens next, as the host, the sequencer and the platform choose it (rule R16, log 4). -/
inductive Action where
  /-- `MemWrite(off, width, v)` (rule R42). A CMD write runs its operation to its end in this step (log 5). -/
  | write (off width : Nat) (v : Word)
  /-- `MemRead(off, width)` (rule R42). -/
  | read (off width : Nat)
  /-- A CMD write whose operation is then run by `tick`, one micro-step at a time (log 5). -/
  | launch (w : Word)
  /-- The sequencer or the delay timer makes its next micro-step. -/
  | tick
  /-- The host polls STATUS until BUSY = 0 (the pseudo-instruction `wait`, rule R84). -/
  | wait
  /-- The codec layer asks the transport for the write transaction of this command byte (rules R2, R94, log 6). It
  waits while BUSY = 1 and then runs whole in its step. -/
  | devWrite (c v : Byte)
  /-- The codec layer asks the transport for the read transaction of this command byte (rules R2, R95, log 6). It
  waits while BUSY = 1 and then runs whole in its step. -/
  | devRead (c : Byte)
  /-- The platform asserts block reset (rule R161). DESIGN CHOICE (log 29): the interval for which it is held is one
  instant, and every host access falls before or after it. -/
  | reset
  deriving DecidableEq, Repr

/-- The state of the block. -/
@[ext]
structure State where
  /-- The platform's parameters; constant (log 9). -/
  cfg : Config
  /-- STATUS.CONFIGURED (rule R26). -/
  configured : Bool
  /-- STATUS.FAULT (rule R27). -/
  fault : Bool
  /-- STATUS.OK (rule R28). -/
  ok : Bool
  /-- STATUS.BUS_STATE (rule R30). -/
  busState : BusState
  /-- STATUS.BITIDX (rule R31). -/
  bitIdx : BitVec 3
  /-- STATUS.CAUSE (rule R148). -/
  cause : Cause
  /-- RESULT (rule R20). -/
  result : Byte
  /-- FAULT_INFO (rule R21). -/
  faultInfo : Word
  /-- FAULT_ARG (rule R22): FIELD in bits 15:8, VALUE in bits 7:0. -/
  faultArg : BitVec 16
  /-- PINCFG (rule R23): CE_PIN, DAT_PIN, CLK_PIN from the top. -/
  pincfg : BitVec 24
  /-- PINS (rule R24), same layout. -/
  pins : BitVec 24
  /-- DT_SEC to DT_PM (rule R25). -/
  dt : DateTime
  /-- SHIFT (rule R32). -/
  shift : Byte
  /-- ACC (rule R32). -/
  acc : Byte
  /-- The bit `s` of rule R93 between its sample and its use (log 2). -/
  sampled : Bool
  /-- OP, the micro-step position and the delay timer (rules R33, R156); BUSY (rule R29). -/
  running : Option Running
  /-- DIR[CE], LVL[CE] (rule R34). -/
  ce : Pin
  /-- DIR[SCLK], LVL[SCLK] (rule R34). -/
  sclk : Pin
  /-- DIR[IO], LVL[IO] (rule R34). -/
  io : Pin
  /-- The model's own: the inputs to come, in order (log 4). -/
  agenda : List Action
  /-- The model's own: the levels the device will answer, in order (rule R87, log 3). -/
  samples : List Bool
  /-- The model's own: how many samples have been taken (log 3). -/
  drawn : Nat
  /-- The model's own: the events so far, oldest first (rule R86, log 17). -/
  trace : List Event
  /-- The model's own: the words host reads returned, oldest first (log 17). -/
  reads : List Word
  deriving DecidableEq, Repr

/-- Why the machine stops with a fault. A programming-contract violation is NOT one: it is the fault state of rule
R149, a next state. -/
inductive Fault where
  /-- An event whose precondition in rule R85 fails. Raised by a micro-step; rule R85 says no procedure reaches it, and
  the spec gives such an event no effect. Safe: the model stops (log 12). -/
  | eventPrecondition (m : Micro)
  deriving DecidableEq, Repr

/-- Why a step has no meaning. -/
inductive Refusal where
  /-- Raised by `exec`'s arm of an instruction that has no meaning yet. Safe. -/
  | notModelled (mnemonic : String)
  /-- Raised by a host access whose width is not 4 bytes (rule R42). Safe: the host is stuck (log 11). -/
  | hostAccessWidth (width : Nat)
  /-- Raised by a host access at an offset that is no multiple of 4 (rule R42). Safe (log 11). -/
  | hostAccessUnaligned (off : Nat)
  /-- Raised by a host access at an offset no register occupies (rule R42). Safe (log 11). -/
  | hostAccessUnoccupied (off : Nat)
  deriving DecidableEq, Repr

/-- The state after reset (rules R41, R161). SHIFT, ACC and `sampled`: DESIGN CHOICE (logs 1, 2). The parameters are
the defaults (log 9); the model's own fields are empty (logs 3, 4, 17). -/
def State.reset : State where
  cfg := .default
  configured := false
  fault := false
  ok := false
  busState := .idle
  bitIdx := 0
  cause := .none
  result := 0
  faultInfo := 0
  faultArg := 0
  pincfg := 0
  pins := 0
  dt := ⟨0, 0, 0, 0, 0, 0, 0, 0, 0⟩
  shift := 0
  acc := 0
  sampled := false
  running := none
  ce := ⟨none, false⟩
  sclk := ⟨none, false⟩
  io := ⟨none, false⟩
  agenda := []
  samples := []
  drawn := 0
  trace := []
  reads := []

end Sys2Proof.Machine
end

