-- ==== Sys2Proof/Machine/Operands.lean ====
section
/-! DEFINITION. Operand forms: field identifiers (rule R64), command bytes (rules R68, R69), the BCD codec, the range
table and the calendar (41_register_codec.md), the hours block (rule R137). Arithmetic is on natural numbers (rule R12). -/

namespace Sys2Proof.Machine

/-! ## Field identifiers (rule R64) -/

/-- The number of a field descriptor. -/
def fieldId : Field → Byte
  | .seconds => 0
  | .minutes => 1
  | .hours24 => 2
  | .hours12 => 3
  | .weekday => 4
  | .date => 5
  | .month => 6
  | .year => 7
  | .format => 8
  | .ampm => 9

/-- The field a field identifier names; identifiers 10 to 255 are not recognised. -/
def fieldOf? (a : Byte) : Option Field :=
  match a.toNat with
  | 0 => some .seconds
  | 1 => some .minutes
  | 2 => some .hours24
  | 3 => some .hours12
  | 4 => some .weekday
  | 5 => some .date
  | 6 => some .month
  | 7 => some .year
  | 8 => some .format
  | 9 => some .ampm
  | _ => none

/-- FAULT_ARG.FIELD when no field applies (rule R22). -/
def noField : Byte := 0xFF

/-! ## Command bytes (rules R68, R69) -/

/-- `CMD_RD(reg)`: `0x80 | (AAA << 1) | 1`. -/
def cmdRd (m : AddrMap) (r : DevReg) : Byte := 0x80 ||| ((m.num r).setWidth 8 <<< 1) ||| 1

/-- `CMD_WR(reg)`: `0x80 | (AAA << 1) | 0`. -/
def cmdWr (m : AddrMap) (r : DevReg) : Byte := 0x80 ||| ((m.num r).setWidth 8 <<< 1)

/-! ## BCD (rules R104, R105) -/

/-- `bcd_enc(v, TM, TS)` (rule R104). -/
def bcdEnc (v tm ts : Nat) : Nat := (((v / 10) <<< ts) &&& tm) ||| (v % 10)

/-- `bcd_dec(p, UM, TM, TS)` (rule R105). -/
def bcdDec (p um tm ts : Nat) : Nat := (p &&& um) + ((p &&& tm) >>> ts) * 10

/-- The encode function of each field (rules R106 to R124), on natural numbers. -/
def encNat : Field → Nat → Nat
  | .seconds, v => bcdEnc v 0x70 4
  | .minutes, v => bcdEnc v 0x70 4
  | .hours24, v => bcdEnc v 0x30 4
  | .hours12, v => bcdEnc v 0x10 4
  | .weekday, v => v
  | .date, v => bcdEnc v 0x30 4
  | .month, v => bcdEnc v 0x10 4
  | .year, v => bcdEnc v 0xF0 4
  | .format, v => v <<< 7
  | .ampm, v => v <<< 5

/-- The decode function of each field (rules R107 to R125), on natural numbers. -/
def decNat : Field → Nat → Nat
  | .seconds, p => bcdDec p 0x0F 0x70 4
  | .minutes, p => bcdDec p 0x0F 0x70 4
  | .hours24, p => bcdDec p 0x0F 0x30 4
  | .hours12, p => bcdDec p 0x0F 0x10 4
  | .weekday, p => p &&& 0x07
  | .date, p => bcdDec p 0x0F 0x30 4
  | .month, p => bcdDec p 0x0F 0x10 4
  | .year, p => bcdDec p 0x0F 0xF0 4
  | .format, p => (p >>> 7) &&& 1
  | .ampm, p => (p >>> 5) &&& 1

/-- A value packed with a field's layout. -/
def encField (f : Field) (v : Byte) : Byte := BitVec.ofNat 8 (encNat f v.toNat)

/-- A packed byte unpacked with a field's layout. -/
def decField (f : Field) (p : Byte) : Byte := BitVec.ofNat 8 (decNat f p.toNat)

/-! ## The hours block (rule R137) -/

/-- `hours_unpack(b)`: hour, format, AM/PM. -/
def hoursUnpack (b : Byte) : Byte × Byte × Byte :=
  if decField .format b == 1 then (decField .hours12 b, 1, decField .ampm b)
  else (decField .hours24 b, 0, 0)

/-- `hours_pack(h, f, pm)`. -/
def hoursPack (h f pm : Byte) : Byte :=
  if f == 1 then encField .hours12 h ||| encField .format 1 ||| encField .ampm pm
  else encField .hours24 h

/-! ## Range table (rules R126, R127) and calendar (rules R128, R129) -/

/-- The minimum of each field (rule R126). -/
def rangeMinOf : Field → Nat
  | .seconds => 0
  | .minutes => 0
  | .hours24 => 0
  | .hours12 => 1
  | .weekday => 1
  | .date => 1
  | .month => 1
  | .year => 0
  | .format => 0
  | .ampm => 0

/-- The maximum of each field (rule R126); the day-of-month field has none. -/
def rangeMaxOf : Field → Option Nat
  | .seconds => some 59
  | .minutes => some 59
  | .hours24 => some 23
  | .hours12 => some 12
  | .weekday => some 7
  | .date => none
  | .month => some 12
  | .year => some 99
  | .format => some 1
  | .ampm => some 1

/-- `in_range(f, v)` (rule R127): the static check of date is 1 to 31. -/
def inRange (f : Field) (v : Byte) : Bool :=
  decide (rangeMinOf f ≤ v.toNat) && decide (v.toNat ≤ (rangeMaxOf f).getD 31)

/-- `leap(y)` on the two-digit year (rule R128). -/
def leap (y : Nat) : Bool := y % 4 == 0 && (y % 100 != 0 || y % 400 == 0)

/-- `days_in_month(y, m)` (rule R129), undefined for a month outside 1 to 12. -/
def daysInMonth (y m : Nat) : Option Nat :=
  match m with
  | 1 | 3 | 5 | 7 | 8 | 10 | 12 => some 31
  | 4 | 6 | 9 | 11 => some 30
  | 2 => some (if leap y then 29 else 28)
  | _ => none

/-! ## The DT registers as bytes on the wire -/

/-- The data byte SET_DATETIME writes to a device register (rule R145). The aggregate has no write-protect byte. -/
def dtPacked (d : DateTime) : DevReg → Byte
  | .seconds => encField .seconds d.sec
  | .minutes => encField .minutes d.min
  | .hours => hoursPack d.hour d.fmt d.pm
  | .date => encField .date d.date
  | .month => encField .month d.mon
  | .weekday => encField .weekday d.wday
  | .year => encField .year d.year
  | .wp => 0

/-- The DT registers after GET_DATETIME has read a device register's byte (rule R144). -/
def dtStore (d : DateTime) (r : DevReg) (b : Byte) : DateTime :=
  match r with
  | .seconds => { d with sec := decField .seconds b }
  | .minutes => { d with min := decField .minutes b }
  | .hours =>
    let u := hoursUnpack b
    { d with hour := u.1, fmt := u.2.1, pm := u.2.2 }
  | .date => { d with date := decField .date b }
  | .month => { d with mon := decField .month b }
  | .weekday => { d with wday := decField .weekday b }
  | .year => { d with year := decField .year b }
  | .wp => d

/-- The byte a shift-out sends. -/
def srcByte (s : State) : ByteSrc → Byte
  | .lit b => b
  | .cmdRd r => cmdRd s.cfg.addrMap r
  | .cmdWr r => cmdWr s.cfg.addrMap r
  | .dt r => dtPacked s.dt r

end Sys2Proof.Machine
end

