-- ==== Sys2Proof/Machine/Flags.lean ====
section
/-! DEFINITION. The STATUS word (rule R19) and the flags in it. -/

namespace Sys2Proof.Machine

/-- STATUS.BUSY (rule R29): an operation is in progress. -/
def busy (s : State) : Bool := s.running.isSome

/-- The encoding of BUS_STATE (rule R30). -/
def busStateCode : BusState → BitVec 3
  | .idle => 0
  | .reset => 1
  | .cmd => 2
  | .started => 3
  | .xfer => 4

/-- The fault cause codes (rule R148). -/
def causeCode : Cause → Byte
  | .none => 0x00
  | .illegalOp => 0x01
  | .notConfigured => 0x02
  | .invalidField => 0x03
  | .invalidMonth => 0x04
  | .range => 0x05

/-- A one-bit flag at bit n of a word. -/
def flagBit (b : Bool) (n : Nat) : Word := (if b then 1 else 0) <<< n

/-- The STATUS word: CAUSE in 23:16, BITIDX in 10:8, BUS_STATE in 6:4, OK, FAULT, CONFIGURED, BUSY in 3:0; every other
bit reads 0 (rule R19). -/
def statusWord (s : State) : Word :=
  ((causeCode s.cause).setWidth 32 <<< 16) ||| (s.bitIdx.setWidth 32 <<< 8) |||
    ((busStateCode s.busState).setWidth 32 <<< 4) ||| flagBit s.ok 3 ||| flagBit s.fault 2 |||
    flagBit s.configured 1 ||| flagBit (busy s) 0

/-- The state BUS_STATE settles in after a shift (rules R92, R93): STARTED while CE is high, else IDLE. -/
def settledBus (s : State) : BusState := bif s.ce.lvl then .started else .idle

end Sys2Proof.Machine
end

