-- ==== Sys2Proof/Machine/Ops.lean ====
section
/-! DEFINITION. The shared operations: pins, events, micro-steps, taking a fault, the life cycle of an operation
(40_bus_transport.md sections 1 to 4, 60_exceptions.md section 2). -/

namespace Sys2Proof.Machine

/-- What a step answers. -/
abbrev Result := Host.Outcome State Fault Refusal

/-- One outcome after another: the second runs in the state the first leaves. -/
def andThen (o : Result) (k : State → Result) : Result :=
  match o with
  | .next s => k s
  | .fault r => .fault r
  | .refused r => .refused r

/-! ## Pins -/

/-- The pin identity of a role in a pin assignment (rules R23, R24, R88). -/
def rolePin (pins : BitVec 24) : Role → PinId
  | .ce => pins.extractLsb' 16 8
  | .sclk => pins.extractLsb' 0 8
  | .io => pins.extractLsb' 8 8

/-- The pin identity a role resolves to now, from PINS (rule R88). -/
def pinOf (s : State) (r : Role) : PinId := rolePin s.pins r

/-- DIR[r] and LVL[r]. -/
def getPin (s : State) : Role → Pin
  | .ce => s.ce
  | .sclk => s.sclk
  | .io => s.io

/-- DIR[r] and LVL[r] written. -/
def setPin (s : State) (r : Role) (p : Pin) : State :=
  match r with
  | .ce => { s with ce := p }
  | .sclk => { s with sclk := p }
  | .io => { s with io := p }

/-! ## Draws (rule R87) -/

/-- The k-th sample from now: the environment's next answers, and past them a free value (log 3). DESIGN CHOICE (logs 3,
21): two instances whose answers have run out draw the same level at the same count. -/
def draw (s : State) (k : Nat) : Bool :=
  match s.samples[k]? with
  | some b => b
  | none => Config.freeSample (s.drawn + k)

/-- Eight samples from the k-th on, the first in bit 0 (rules R47, R93). -/
def drawnByte (s : State) (k : Nat) : Byte :=
  BitVec.ofBoolListLE [draw s k, draw s (k + 1), draw s (k + 2), draw s (k + 3), draw s (k + 4), draw s (k + 5),
    draw s (k + 6), draw s (k + 7)]

/-! ## Events -/

/-- An event done: it joins the trace, and the micro-step position advances by one (rule R86). -/
def emit (e : Event) (s : State) : State :=
  { s with
    trace := s.trace ++ [e]
    running := s.running.map fun r => { r with pos := r.pos + 1 } }

/-- `Drive(r, b)` (rule R85). -/
def applyDrive (r : Role) (b : Bool) (s : State) : State :=
  emit (.drive r (pinOf s r) b) (setPin s r { getPin s r with lvl := b })

/-- `SetDir(r, d)` (rule R85): with Out the line is driven to LVL[r] at once. -/
def applySetDir (r : Role) (d : Dir) (s : State) : State :=
  let e : Event :=
    match d with
    | .output => .setOut r (pinOf s r) (getPin s r).lvl
    | .floating => .setIn r (pinOf s r)
  emit e (setPin s r { getPin s r with dir := some d })

/-- `Sample(IO)` (rule R85): one bit, a draw. -/
def applySample (s : State) : State :=
  emit (.sample (pinOf s .io) (draw s 0))
    { s with sampled := draw s 0, samples := s.samples.drop 1, drawn := s.drawn + 1 }

/-- `Delay` (rule R85) changes no state; the timer that ran it is idle again (rule R156). -/
def applyDelay (s : State) : State :=
  emit .delay { s with running := s.running.map fun r => { r with timer := none } }

/-! ## Micro-steps -/

/-- The OP code of CONFIGURE (rule R65). -/
def opConfigure : Byte := 0x70

/-- The sequencer is within CONFIGURE (rule R85's precondition of `SetDir`). -/
def withinConfigure (s : State) : Bool := s.running.any fun r => wordOp r.op == opConfigure

/-- The precondition of a micro-step (rule R85); an internal assignment has none. -/
def microPre (m : Micro) (s : State) : Bool :=
  match m with
  | .drive r _ => (getPin s r).dir == some .output
  | .driveBit _ => s.io.dir == some .output
  | .setDir _ _ => s.configured || withinConfigure s
  | .sample => s.io.dir == some .floating
  | .delay | .setBus _ | .settleBus | .setBit _ | .loadShift _ | .clearAcc | .orAcc _ => true
  | .setResult _ | .resultAcc _ | .dtAcc _ | .latchPins | .setConfigured | .setOk _ => true

/-- A sampled bit at its place in the assembled byte: `s << i` (rule R93). -/
def bitAt (b : Bool) (i : BitVec 3) : Byte := (if b then 1 else 0) <<< i.toNat

/-- The effect of a micro-step. -/
def microEffect (m : Micro) (s : State) : State :=
  match m with
  | .drive r b => applyDrive r b s
  | .driveBit i => applyDrive .io (s.shift.getLsbD i.toNat) s
  | .setDir r d => applySetDir r d s
  | .sample => applySample s
  | .delay => applyDelay s
  | .setBus b => { s with busState := b }
  | .settleBus => { s with busState := settledBus s }
  | .setBit i => { s with bitIdx := i }
  | .loadShift src => { s with shift := srcByte s src }
  | .clearAcc => { s with acc := 0 }
  | .orAcc i => { s with acc := s.acc ||| bitAt s.sampled i }
  | .setResult v => { s with result := v }
  | .resultAcc none => { s with result := s.acc }
  | .resultAcc (some f) => { s with result := decField f s.acc }
  | .dtAcc r => { s with dt := dtStore s.dt r s.acc }
  | .latchPins => { s with pins := s.pincfg }
  | .setConfigured => { s with configured := true }
  | .setOk b => { s with ok := b }

/-- One micro-step. An event whose precondition fails has no effect the spec gives: the model stops (log 12). -/
def perform (m : Micro) (s : State) : Result :=
  if microPre m s then .next (microEffect m s) else .fault (.eventPrecondition m)

/-- Micro-steps in order. -/
def runMicros : List Micro → State → Result
  | [], s => .next s
  | m :: ms, s => andThen (perform m s) (runMicros ms)

/-! ## Taking a fault (rule R149) -/

/-- A cause and the FAULT_ARG recorded with it (rule R148). -/
structure FaultRec where
  cause : Cause
  field : Byte
  value : Byte
  deriving DecidableEq, Repr

/-- FAULT_ARG: FIELD in bits 15:8, VALUE in bits 7:0 (rule R22). -/
def faultArgOf (f : FaultRec) : BitVec 16 := (f.field.setWidth 16 <<< 8) ||| f.value.setWidth 16

/-- `raise Fault(cause, {field, value})` (rule R149) for the operation of command word `w`: BUSY ends at 0. There is no
handler, saved return point or return (rule R153). -/
def raiseFault (w : Word) (f : FaultRec) (s : State) : State :=
  { s with
    cause := f.cause
    fault := true
    faultInfo := w
    faultArg := faultArgOf f
    ok := false
    running := none }

/-! ## The life cycle of an operation (rule R89) -/

/-- What an operation does once its word is legal: its checks in the order of rule R151, then its body. -/
abbrev Plan := State → Except FaultRec (List Micro)

/-- The operation in progress runs to its end (rule R40: a write waits until BUSY = 0); nothing happens when there is
none. -/
def finishRunning (s : State) : Result :=
  match s.running with
  | none => .next s
  | some r => andThen (runMicros r.todo s) fun t => .next { t with running := none }

/-- The operation is accepted: BUSY <- 1, OP <- w, and its body stands ready, with OK <- 1 at its end (rule R89). -/
def beginOp (w : Word) (body : List Micro) (s : State) : State :=
  { s with running := some ⟨w, 0, body, none⟩ }

/-- Acceptance of command word `w` when the block is not busy: discarded while FAULT = 1 (rule R150); a failing check
raises its fault before any event; else the operation begins. -/
def acceptIdle (w : Word) (plan : Plan) (s : State) : Result :=
  if s.fault then .next s
  else
    match plan s with
    | .error f => .next (raiseFault w f s)
    | .ok body => .next (beginOp w body s)

/-- Acceptance of a command word: it waits until BUSY = 0 (rules R18, R40). -/
def launchOp (w : Word) (plan : Plan) (s : State) : Result :=
  andThen (finishRunning s) (acceptIdle w plan)

/-- An operation from its acceptance to its end. -/
def runOp (w : Word) (plan : Plan) (s : State) : Result :=
  andThen (launchOp w plan s) finishRunning

/-- A body whose last assignment is OK <- 1 (rule R89). -/
def okBody (body : List Micro) : List Micro := body ++ [.setOk true]

/-- The check of every operation that drives a line (rules R26, R148): CONFIGURED = 1, else F_NOT_CONFIGURED. -/
def whenConfigured (body : List Micro) : Plan := fun s =>
  if s.configured then .ok body else .error ⟨.notConfigured, noField, 0⟩

/-- The plan of an illegal command word (rules R66, R67, R148): F_ILLEGAL_OP with its opcode byte. -/
def planIllegal (w : Word) : Plan := fun _ => .error ⟨.illegalOp, noField, wordOp w⟩

/-! ## The procedures (40_bus_transport.md sections 3 and 4) -/

/-- The bit positions of a byte, in the order of the wire (rules R14, R47). -/
def cells : List (BitVec 3) := [0, 1, 2, 3, 4, 5, 6, 7]

/-- `proc_reset()` (rule R90). -/
def procReset : List Micro := [.setBus .reset, .drive .ce false, .drive .sclk false, .setBus .idle]

/-- One bit cell of a shift-out (rule R92). -/
def cellOut (i : BitVec 3) : List Micro :=
  [.setBit i, .driveBit i, .delay, .drive .sclk true, .delay, .drive .sclk false, .delay]

/-- `proc_shift_out(b, phase)` (rule R92). -/
def procShiftOut (src : ByteSrc) (phase : BusState) : List Micro :=
  [.setDir .io .output, .loadShift src, .setBus phase] ++ cells.flatMap cellOut ++ [.settleBus]

/-- One bit cell of a shift-in (rule R93). -/
def cellIn (i : BitVec 3) : List Micro :=
  [.setBit i, .drive .sclk true, .delay, .sample, .drive .sclk false, .delay, .orAcc i]

/-- `proc_shift_in()` (rule R93); the byte is left in ACC. -/
def procShiftIn : List Micro :=
  [.setDir .io .floating, .clearAcc, .setBus .xfer] ++ cells.flatMap cellIn ++ [.settleBus]

/-- `proc_start(cmd)` (rule R91). -/
def procStart (cmd : ByteSrc) : List Micro :=
  [.setBus .reset, .drive .ce false, .delay, .drive .ce true, .delay] ++ procShiftOut cmd .cmd

/-- `DevWrite(cmd, v)` (rule R94). -/
def devWrite (cmd v : ByteSrc) : List Micro := procStart cmd ++ procShiftOut v .xfer ++ procReset

/-- `DevRead(cmd)` (rule R95); the byte is left in ACC. -/
def devRead (cmd : ByteSrc) : List Micro := procStart cmd ++ procShiftIn ++ procReset

/-! ## Block reset (rule R161) -/

/-- The state after a block reset: every piece of the block's state at its reset value, the lines let go; what belongs
to the platform and the environment stays, and the logs go on (log 13). Reset is one instant, so no host access falls
within it (log 29). -/
def blockReset (s : State) : State :=
  { State.reset with
    cfg := s.cfg
    agenda := s.agenda
    samples := s.samples
    drawn := s.drawn
    trace := s.trace ++ [.released]
    reads := s.reads }

end Sys2Proof.Machine
end

