-- ==== Sys2Proof/Machine/Codec.lean ====
section
/-! DEFINITION. The host operations of the register codec (41_register_codec.md section 5). None needs CONFIGURED, none
produces an event. -/

namespace Sys2Proof.Machine

/-- The body of an operation whose only effect is a result. -/
def resultBody (n : Nat) : List Micro := okBody [.setResult (BitVec.ofNat 8 n)]

/-- F_INVALID_FIELD for an unrecognised field identifier (rule R148). -/
def invalidField (a : Byte) : FaultRec := ⟨.invalidField, noField, a⟩

/-- RANGE_MIN (rule R130). -/
def planRangeMin (a : Byte) : Plan := fun _ =>
  match fieldOf? a with
  | none => .error (invalidField a)
  | some f => .ok (resultBody (rangeMinOf f))

/-- RANGE_MAX (rule R131): the day-of-month field has no static maximum and faults. -/
def planRangeMax (a : Byte) : Plan := fun _ =>
  match fieldOf? a with
  | none => .error (invalidField a)
  | some f =>
    match rangeMaxOf f with
    | none => .error ⟨.invalidField, fieldId f, a⟩
    | some n => .ok (resultBody n)

/-- DATE_MAX (rule R132): the month is checked before the year. -/
def planDateMax (y m : Byte) : Plan := fun _ =>
  match daysInMonth y.toNat m.toNat with
  | none => .error ⟨.invalidMonth, fieldId .month, m⟩
  | some n => if y.toNat ≤ 99 then .ok (resultBody n) else .error ⟨.range, fieldId .year, y⟩

/-- ENCODE (rule R133). -/
def planEncode (a v : Byte) : Plan := fun _ =>
  match fieldOf? a with
  | none => .error (invalidField a)
  | some f => if inRange f v then .ok (resultBody (encField f v).toNat) else .error ⟨.range, a, v⟩

/-- DECODE (rule R134): total on the packed byte. -/
def planDecode (a p : Byte) : Plan := fun _ =>
  match fieldOf? a with
  | none => .error (invalidField a)
  | some f => .ok (resultBody (decField f p).toNat)

/-- RANGE_MIN (rule R130). -/
def execRangeMin (f : Byte) (s : State) : Result := runOp (commandWord (.rangeMin f)) (planRangeMin f) s

/-- RANGE_MAX (rule R131). -/
def execRangeMax (f : Byte) (s : State) : Result := runOp (commandWord (.rangeMax f)) (planRangeMax f) s

/-- DATE_MAX (rule R132). -/
def execDateMax (y m : Byte) (s : State) : Result := runOp (commandWord (.dateMax y m)) (planDateMax y m) s

/-- ENCODE (rule R133). -/
def execEncode (f v : Byte) (s : State) : Result := runOp (commandWord (.encode f v)) (planEncode f v) s

/-- DECODE (rule R134). -/
def execDecode (f p : Byte) (s : State) : Result := runOp (commandWord (.decode f p)) (planDecode f p) s

end Sys2Proof.Machine
end

