-- ==== Sys2Proof/Machine/PublicApi.lean ====
section
/-! DEFINITION. The public operations that touch the bus (42_public_api.md). -/

namespace Sys2Proof.Machine

/-! ## Getters and write protection -/

/-- A single-field getter: one read transaction, the byte decoded with the field's layout to RESULT. -/
def getterBody (r : DevReg) (f : Field) : List Micro := okBody (devRead (.cmdRd r) ++ [.resultAcc (some f)])

/-- GET_SECONDS (rule R138). -/
def planGetSeconds : Plan := whenConfigured (getterBody .seconds .seconds)

/-- GET_MINUTES (rule R139). -/
def planGetMinutes : Plan := whenConfigured (getterBody .minutes .minutes)

/-- GET_HOURS (rule R140): the requested format selects the layout; the byte's own format bit is not consulted. -/
def planGetHours (is12h : Bool) : Plan := whenConfigured (getterBody .hours (if is12h then .hours12 else .hours24))

/-- The byte SET_WP writes (rules R79, R141). -/
def wpByte (enabled : Bool) : Byte := if enabled then 0x80 else 0x00

/-- SET_WP (rule R141). -/
def planSetWp (enabled : Bool) : Plan := whenConfigured (okBody (devWrite (.cmdWr .wp) (.lit (wpByte enabled))))

/-! ## The datetime aggregate -/

/-- The order of the aggregate's transactions, seconds last (rule R57). -/
def aggregateOrder : List DevReg := [.year, .month, .date, .weekday, .hours, .minutes, .seconds]

/-- GET_DATETIME (rule R144): with P = 0 an empty operation, before any other check (rule R151). -/
def planGetDatetime (present : Bool) : Plan :=
  if present then
    whenConfigured (okBody (aggregateOrder.flatMap fun r => devRead (.cmdRd r) ++ [.dtAcc r]))
  else fun _ => .ok (okBody [])

/-- The hour check of rule R143 step 6: the format selects the field and its bounds. -/
def hourField (d : DateTime) : Field := if d.fmt == 0 then .hours24 else .hours12

/-- The checks of rule R143 in order: whether the step passes, the field and the value it checks. -/
def dtChecks (d : DateTime) : List (Bool × Field × Byte) :=
  [(decide (d.year.toNat ≤ 99), .year, d.year),
   (decide (1 ≤ d.mon.toNat) && decide (d.mon.toNat ≤ 12), .month, d.mon),
   (decide (1 ≤ d.date.toNat) && decide (d.date.toNat ≤ (daysInMonth d.year.toNat d.mon.toNat).getD 0), .date, d.date),
   (decide (1 ≤ d.wday.toNat) && decide (d.wday.toNat ≤ 7), .weekday, d.wday),
   (d.fmt == 0 || d.fmt == 1, .format, d.fmt),
   (inRange (hourField d) d.hour, hourField d, d.hour),
   (d.fmt == 0 || d.pm == 0 || d.pm == 1, .ampm, d.pm),
   (decide (d.min.toNat ≤ 59), .minutes, d.min),
   (decide (d.sec.toNat ≤ 59), .seconds, d.sec)]

/-- `dt_validate()`: the fault of the first failing check (rule R143). -/
def dtFault (d : DateTime) : Option FaultRec :=
  ((dtChecks d).find? fun c => !c.1).map fun c => ⟨.range, fieldId c.2.1, c.2.2⟩

/-- SET_DATETIME (rule R145): with P = 0 an empty operation; every check precedes the first transaction. -/
def planSetDatetime (present : Bool) : Plan :=
  if present then fun s =>
    if s.configured then
      match dtFault s.dt with
      | some f => .error f
      | none => .ok (okBody (aggregateOrder.flatMap fun r => devWrite (.cmdWr r) (.dt r)))
    else .error ⟨.notConfigured, noField, 0⟩
  else fun _ => .ok (okBody [])

/-! ## Configure -/

/-- CONFIGURE (rule R146): with P = 0 only OK <- 0, the sentinel failure return. -/
def planConfigure (present : Bool) : Plan := fun _ =>
  if present then
    .ok [.latchPins,
      .setDir .sclk .output, .drive .sclk false,
      .setDir .io .output, .drive .io false,
      .setDir .ce .output, .drive .ce false,
      .setConfigured, .setBus .idle, .setOk true]
  else .ok [.setOk false]

/-! ## The meanings -/

/-- GET_SECONDS (rule R138). -/
def execGetSeconds (s : State) : Result := runOp (commandWord .getSeconds) planGetSeconds s

/-- GET_MINUTES (rule R139). -/
def execGetMinutes (s : State) : Result := runOp (commandWord .getMinutes) planGetMinutes s

/-- GET_HOURS (rule R140). -/
def execGetHours (is12h : Bool) (s : State) : Result := runOp (commandWord (.getHours is12h)) (planGetHours is12h) s

/-- SET_WP (rule R141). -/
def execSetWp (enabled : Bool) (s : State) : Result := runOp (commandWord (.setWp enabled)) (planSetWp enabled) s

/-- GET_DATETIME (rule R144). -/
def execGetDatetime (present : Bool) (s : State) : Result :=
  runOp (commandWord (.getDatetime present)) (planGetDatetime present) s

/-- SET_DATETIME (rule R145). -/
def execSetDatetime (present : Bool) (s : State) : Result :=
  runOp (commandWord (.setDatetime present)) (planSetDatetime present) s

/-- CONFIGURE (rule R146). -/
def execConfigure (present : Bool) (s : State) : Result :=
  runOp (commandWord (.configure present)) (planConfigure present) s

end Sys2Proof.Machine
end

