-- ==== Sys2Proof/Machine/Transport.lean ====
section
/-! DEFINITION. The host operations of the Bus Transport (40_bus_transport.md section 5). -/

namespace Sys2Proof.Machine

/-- BUS_RESET (rule R96). -/
def planBusReset : Plan := whenConfigured (okBody procReset)

/-- BUS_START (rule R97). -/
def planBusStart (c : Byte) : Plan := whenConfigured (okBody (procStart (.lit c)))

/-- BUS_WRITE_BYTE (rule R98). -/
def planBusWriteByte (b : Byte) : Plan := whenConfigured (okBody (procShiftOut (.lit b) .xfer))

/-- BUS_READ_BYTE (rule R99). -/
def planBusReadByte : Plan := whenConfigured (okBody (procShiftIn ++ [.resultAcc none]))

/-- WRITE_REG (rule R100). -/
def planWriteReg (c v : Byte) : Plan := whenConfigured (okBody (devWrite (.lit c) (.lit v)))

/-- READ_REG (rule R101). -/
def planReadReg (c : Byte) : Plan := whenConfigured (okBody (devRead (.lit c) ++ [.resultAcc none]))

/-- BUS_RESET drives chip-enable and clock low (rule R96). -/
def execBusReset (s : State) : Result := runOp (commandWord .busReset) planBusReset s

/-- BUS_START opens a frame and sends the command byte (rule R97). -/
def execBusStart (c : Byte) (s : State) : Result := runOp (commandWord (.busStart c)) (planBusStart c) s

/-- BUS_WRITE_BYTE shifts a byte out (rule R98). -/
def execBusWriteByte (b : Byte) (s : State) : Result := runOp (commandWord (.busWriteByte b)) (planBusWriteByte b) s

/-- BUS_READ_BYTE shifts a byte in, to RESULT (rule R99). -/
def execBusReadByte (s : State) : Result := runOp (commandWord .busReadByte) planBusReadByte s

/-- WRITE_REG runs one write transaction (rule R100). -/
def execWriteReg (c v : Byte) (s : State) : Result := runOp (commandWord (.writeReg c v)) (planWriteReg c v) s

/-- READ_REG runs one read transaction, the raw byte to RESULT (rule R101). -/
def execReadReg (c : Byte) (s : State) : Result := runOp (commandWord (.readReg c)) (planReadReg c) s

end Sys2Proof.Machine
end

