-- ==== Sys2Proof/Machine/Wire.lean ====
section
/-! DEFINITION. The wire command bytes (30_encoding.md section 3, 20_memory.md rule R44): each opens one transaction of
the Bus Transport, rule R94 for a write byte, rule R95 for a read byte. The codec layer reaches the transport only through
these (rule R2). OK and RESULT belong to host operations and keep their values; a read leaves its byte in ACC (log 6). -/

namespace Sys2Proof.Machine

/-- The write transaction of a command byte sent as given (rules R94, R70). -/
def planWireWrite (c v : Byte) : Plan := whenConfigured (devWrite (.lit c) (.lit v))

/-- The read transaction of a command byte sent as given (rules R95, R70). -/
def planWireRead (c : Byte) : Plan := whenConfigured (devRead (.lit c))

/-- The word recorded for a write transaction that faults (log 7): the pseudo-instruction `wr` of rule R84. -/
def wireWriteWord (c v : Byte) : Word := packWord 0x05 c v false

/-- The word recorded for a read transaction that faults (log 7): the pseudo-instruction `rd` of rule R84. -/
def wireReadWord (c : Byte) : Word := packWord 0x06 c 0 false

/-- WIRE_CMD_WR_SECONDS: 0x80 and the data byte of the seconds register (layout R71). -/
def execWireWrSeconds (v : Byte) (s : State) : Result :=
  runOp (commandWord (.wireWrSeconds v)) (planWireWrite 0x80 v) s

/-- WIRE_CMD_RD_SECONDS: 0x81, then the seconds register's byte (layout R71). -/
def execWireRdSeconds (s : State) : Result :=
  runOp (commandWord .wireRdSeconds) (planWireRead 0x81) s

/-- WIRE_CMD_WR_MINUTES: 0x82 and the data byte of the minutes register (layout R72). -/
def execWireWrMinutes (v : Byte) (s : State) : Result :=
  runOp (commandWord (.wireWrMinutes v)) (planWireWrite 0x82 v) s

/-- WIRE_CMD_RD_MINUTES: 0x83, then the minutes register's byte (layout R72). -/
def execWireRdMinutes (s : State) : Result :=
  runOp (commandWord .wireRdMinutes) (planWireRead 0x83) s

/-- WIRE_CMD_WR_HOURS: 0x84 and the data byte of the hours register (layout R73, R74). -/
def execWireWrHours (v : Byte) (s : State) : Result :=
  runOp (commandWord (.wireWrHours v)) (planWireWrite 0x84 v) s

/-- WIRE_CMD_RD_HOURS: 0x85, then the hours register's byte (layout R73, R74). -/
def execWireRdHours (s : State) : Result :=
  runOp (commandWord .wireRdHours) (planWireRead 0x85) s

/-- WIRE_CMD_WR_DATE: 0x86 and the data byte of the date register (layout R75). -/
def execWireWrDate (v : Byte) (s : State) : Result :=
  runOp (commandWord (.wireWrDate v)) (planWireWrite 0x86 v) s

/-- WIRE_CMD_RD_DATE: 0x87, then the date register's byte (layout R75). -/
def execWireRdDate (s : State) : Result :=
  runOp (commandWord .wireRdDate) (planWireRead 0x87) s

/-- WIRE_CMD_WR_MONTH: 0x88 and the data byte of the month register (layout R76). -/
def execWireWrMonth (v : Byte) (s : State) : Result :=
  runOp (commandWord (.wireWrMonth v)) (planWireWrite 0x88 v) s

/-- WIRE_CMD_RD_MONTH: 0x89, then the month register's byte (layout R76). -/
def execWireRdMonth (s : State) : Result :=
  runOp (commandWord .wireRdMonth) (planWireRead 0x89) s

/-- WIRE_CMD_WR_WEEKDAY: 0x8A and the data byte of the weekday register (layout R77). -/
def execWireWrWeekday (v : Byte) (s : State) : Result :=
  runOp (commandWord (.wireWrWeekday v)) (planWireWrite 0x8A v) s

/-- WIRE_CMD_RD_WEEKDAY: 0x8B, then the weekday register's byte (layout R77). -/
def execWireRdWeekday (s : State) : Result :=
  runOp (commandWord .wireRdWeekday) (planWireRead 0x8B) s

/-- WIRE_CMD_WR_YEAR: 0x8C and the data byte of the year register (layout R78). -/
def execWireWrYear (v : Byte) (s : State) : Result :=
  runOp (commandWord (.wireWrYear v)) (planWireWrite 0x8C v) s

/-- WIRE_CMD_RD_YEAR: 0x8D, then the year register's byte (layout R78). -/
def execWireRdYear (s : State) : Result :=
  runOp (commandWord .wireRdYear) (planWireRead 0x8D) s

/-- WIRE_CMD_WR_WP: 0x8E and the data byte of the write-protect register (layout R79). -/
def execWireWrWp (v : Byte) (s : State) : Result :=
  runOp (commandWord (.wireWrWp v)) (planWireWrite 0x8E v) s

/-- WIRE_CMD_RD_WP: 0x8F, then the write-protect register's byte (layout R79). -/
def execWireRdWp (s : State) : Result :=
  runOp (commandWord .wireRdWp) (planWireRead 0x8F) s

end Sys2Proof.Machine
end

