-- ==== Sys2Proof/Machine/Dispatch.lean ====
section
/-! DEFINITION. The dispatch: one arm per instruction. -/

namespace Sys2Proof.Machine

def exec (i : Instr) (s : State) : Host.Outcome State Fault Refusal :=
  match i with
  | .busReset => Sys2Proof.Machine.execBusReset s
  | .busStart c => Sys2Proof.Machine.execBusStart c s
  | .busWriteByte b => Sys2Proof.Machine.execBusWriteByte b s
  | .busReadByte => Sys2Proof.Machine.execBusReadByte s
  | .writeReg c v => Sys2Proof.Machine.execWriteReg c v s
  | .readReg c => Sys2Proof.Machine.execReadReg c s
  | .getSeconds => Sys2Proof.Machine.execGetSeconds s
  | .getMinutes => Sys2Proof.Machine.execGetMinutes s
  | .getHours is12h => Sys2Proof.Machine.execGetHours is12h s
  | .rangeMin f => Sys2Proof.Machine.execRangeMin f s
  | .rangeMax f => Sys2Proof.Machine.execRangeMax f s
  | .dateMax y m => Sys2Proof.Machine.execDateMax y m s
  | .encode f v => Sys2Proof.Machine.execEncode f v s
  | .decode f p => Sys2Proof.Machine.execDecode f p s
  | .setWp enabled => Sys2Proof.Machine.execSetWp enabled s
  | .getDatetime present => Sys2Proof.Machine.execGetDatetime present s
  | .setDatetime present => Sys2Proof.Machine.execSetDatetime present s
  | .configure present => Sys2Proof.Machine.execConfigure present s
  | .wireWrSeconds v => Sys2Proof.Machine.execWireWrSeconds v s
  | .wireRdSeconds => Sys2Proof.Machine.execWireRdSeconds s
  | .wireWrMinutes v => Sys2Proof.Machine.execWireWrMinutes v s
  | .wireRdMinutes => Sys2Proof.Machine.execWireRdMinutes s
  | .wireWrHours v => Sys2Proof.Machine.execWireWrHours v s
  | .wireRdHours => Sys2Proof.Machine.execWireRdHours s
  | .wireWrDate v => Sys2Proof.Machine.execWireWrDate v s
  | .wireRdDate => Sys2Proof.Machine.execWireRdDate s
  | .wireWrMonth v => Sys2Proof.Machine.execWireWrMonth v s
  | .wireRdMonth => Sys2Proof.Machine.execWireRdMonth s
  | .wireWrWeekday v => Sys2Proof.Machine.execWireWrWeekday v s
  | .wireRdWeekday => Sys2Proof.Machine.execWireRdWeekday s
  | .wireWrYear v => Sys2Proof.Machine.execWireWrYear v s
  | .wireRdYear => Sys2Proof.Machine.execWireRdYear s
  | .wireWrWp v => Sys2Proof.Machine.execWireWrWp v s
  | .wireRdWp => Sys2Proof.Machine.execWireRdWp s

end Sys2Proof.Machine
end

