-- ==== Sys2Proof/Machine/Sequencer.lean ====
section
/-! DEFINITION. The plan of each instruction, for running an operation one micro-step at a time (rule R86). -/

namespace Sys2Proof.Machine

/-- The checks and body of each instruction: the same its meaning runs to the end. -/
def planOf : Instr → Plan
  | .busReset => planBusReset
  | .busStart c => planBusStart c
  | .busWriteByte b => planBusWriteByte b
  | .busReadByte => planBusReadByte
  | .writeReg c v => planWriteReg c v
  | .readReg c => planReadReg c
  | .getSeconds => planGetSeconds
  | .getMinutes => planGetMinutes
  | .getHours is12h => planGetHours is12h
  | .rangeMin f => planRangeMin f
  | .rangeMax f => planRangeMax f
  | .dateMax y m => planDateMax y m
  | .encode f v => planEncode f v
  | .decode f p => planDecode f p
  | .setWp enabled => planSetWp enabled
  | .getDatetime present => planGetDatetime present
  | .setDatetime present => planSetDatetime present
  | .configure present => planConfigure present
  | .wireWrSeconds v => planWireWrite 0x80 v
  | .wireRdSeconds => planWireRead 0x81
  | .wireWrMinutes v => planWireWrite 0x82 v
  | .wireRdMinutes => planWireRead 0x83
  | .wireWrHours v => planWireWrite 0x84 v
  | .wireRdHours => planWireRead 0x85
  | .wireWrDate v => planWireWrite 0x86 v
  | .wireRdDate => planWireRead 0x87
  | .wireWrMonth v => planWireWrite 0x88 v
  | .wireRdMonth => planWireRead 0x89
  | .wireWrWeekday v => planWireWrite 0x8A v
  | .wireRdWeekday => planWireRead 0x8B
  | .wireWrYear v => planWireWrite 0x8C v
  | .wireRdYear => planWireRead 0x8D
  | .wireWrWp v => planWireWrite 0x8E v
  | .wireRdWp => planWireRead 0x8F

/-- The micro-step of the operation in progress that comes next: of the sequencer, or of the delay timer while a `Delay`
runs (rules R33, R156, log 14). An operation with no micro-step left ends: BUSY <- 0. Nothing happens when there is none. -/
def microTick (s : State) : Result :=
  match s.running with
  | none => .next s
  | some r =>
    match r.todo, r.timer with
    | [], _ => .next { s with running := none }
    | .delay :: _, none => .next { s with running := some { r with timer := some s.cfg.delayTicks } }
    | .delay :: _, some (n + 1) => .next { s with running := some { r with timer := some n } }
    | .delay :: ms, some 0 => perform .delay { s with running := some { r with todo := ms } }
    | m :: ms, _ => perform m { s with running := some { r with todo := ms } }

/-- n micro-steps. -/
def microTicks : Nat → State → Result
  | 0, s => .next s
  | n + 1, s => andThen (microTick s) (microTicks n)

/-- The micro-steps one micro-step of a body takes: a `Delay` starts the timer, counts its cycles and ends (log 14). -/
def ticksOf (cfg : Config) : Micro → Nat
  | .delay => cfg.delayTicks + 2
  | .drive _ _ | .driveBit _ | .setDir _ _ | .sample | .setBus _ | .settleBus | .setBit _ | .loadShift _ => 1
  | .clearAcc | .orAcc _ | .setResult _ | .resultAcc _ | .dtAcc _ | .latchPins | .setConfigured | .setOk _ => 1

/-- The micro-steps from an operation's acceptance to BUSY = 0 (rule R171). -/
def ticksFor (cfg : Config) (body : List Micro) : Nat := (body.map (ticksOf cfg)).sum + 1

/-- A CMD write that is accepted and then runs by `microTick` (rules R18, R89). -/
def launchCommand (w : Word) (s : State) : Result :=
  match decodeWord w with
  | .ok i => launchOp w (planOf i) s
  | .error _ => launchOp w (planIllegal w) s

/-- A CMD write that runs to its end: a legal word runs its instruction; an illegal one raises F_ILLEGAL_OP
(rules R66, R67, R89). -/
def runCommand (w : Word) (s : State) : Result :=
  match decodeWord w with
  | .ok i => exec i s
  | .error _ => runOp w (planIllegal w) s

end Sys2Proof.Machine
end

