-- ==== Sys2Proof/Machine/HostAccess.lean ====
section
/-! DEFINITION. Host access to the register space (10_state.md sections 2, 3 and 6, 20_memory.md rule R42). -/

namespace Sys2Proof.Machine

/-- The host-visible registers (rule R17). -/
inductive HostReg where
  | cmd | status | result | faultInfo | faultArg | pincfg | pins
  | dtSec | dtMin | dtHour | dtWday | dtDate | dtMon | dtYear | dtFmt | dtPm
  deriving DecidableEq, Repr

/-- The register at a byte offset (the table of rule R17); 0x1C and everything from 0x44 on hold none. -/
def hostRegAt (off : Nat) : Option HostReg :=
  match off with
  | 0x00 => some .cmd
  | 0x04 => some .status
  | 0x08 => some .result
  | 0x0C => some .faultInfo
  | 0x10 => some .faultArg
  | 0x14 => some .pincfg
  | 0x18 => some .pins
  | 0x20 => some .dtSec
  | 0x24 => some .dtMin
  | 0x28 => some .dtHour
  | 0x2C => some .dtWday
  | 0x30 => some .dtDate
  | 0x34 => some .dtMon
  | 0x38 => some .dtYear
  | 0x3C => some .dtFmt
  | 0x40 => some .dtPm
  | _ => none

/-- The value a host read of a register returns: bits the register does not use read 0 (rule R17), CMD reads 0
(rule R18). Host reads have no side effect (rule R54). -/
def readHostReg (r : HostReg) (s : State) : Word :=
  match r with
  | .cmd => 0
  | .status => statusWord s
  | .result => s.result.setWidth 32
  | .faultInfo => s.faultInfo
  | .faultArg => s.faultArg.setWidth 32
  | .pincfg => s.pincfg.setWidth 32
  | .pins => s.pins.setWidth 32
  | .dtSec => s.dt.sec.setWidth 32
  | .dtMin => s.dt.min.setWidth 32
  | .dtHour => s.dt.hour.setWidth 32
  | .dtWday => s.dt.wday.setWidth 32
  | .dtDate => s.dt.date.setWidth 32
  | .dtMon => s.dt.mon.setWidth 32
  | .dtYear => s.dt.year.setWidth 32
  | .dtFmt => s.dt.fmt.setWidth 32
  | .dtPm => s.dt.pm.setWidth 32

/-- A host write of a register other than CMD: bits a register does not use, and read-only registers, ignore it
(rule R17). Nothing is validated (rule R25). -/
def writeHostReg (r : HostReg) (v : Word) (s : State) : State :=
  match r with
  | .cmd | .status | .result | .faultInfo | .faultArg | .pins => s
  | .pincfg => { s with pincfg := v.setWidth 24 }
  | .dtSec => { s with dt := { s.dt with sec := v.setWidth 8 } }
  | .dtMin => { s with dt := { s.dt with min := v.setWidth 8 } }
  | .dtHour => { s with dt := { s.dt with hour := v.setWidth 8 } }
  | .dtWday => { s with dt := { s.dt with wday := v.setWidth 8 } }
  | .dtDate => { s with dt := { s.dt with date := v.setWidth 8 } }
  | .dtMon => { s with dt := { s.dt with mon := v.setWidth 8 } }
  | .dtYear => { s with dt := { s.dt with year := v.setWidth 8 } }
  | .dtFmt => { s with dt := { s.dt with fmt := v.setWidth 8 } }
  | .dtPm => { s with dt := { s.dt with pm := v.setWidth 8 } }

/-- The register an access names, or why it is refused (rule R42). -/
def hostTarget (off width : Nat) : Except Refusal HostReg :=
  if width ≠ 4 then .error (.hostAccessWidth width)
  else if off % 4 ≠ 0 then .error (.hostAccessUnaligned off)
  else
    match hostRegAt off with
    | none => .error (.hostAccessUnoccupied off)
    | some r => .ok r

/-- A word a host read returns, logged (log 17). -/
def logRead (v : Word) (s : State) : State := { s with reads := s.reads ++ [v] }

/-- `MemRead(off, width)`: at once, at any time (rule R40). -/
def hostRead (off width : Nat) (s : State) : Result :=
  match hostTarget off width with
  | .error e => .refused e
  | .ok r => .next (logRead (readHostReg r s) s)

/-- `MemWrite(off, width, v)`: it waits until BUSY = 0 and then takes effect (rule R40); a CMD write issues the operation
(rule R18). -/
def hostWrite (off width : Nat) (v : Word) (s : State) : Result :=
  match hostTarget off width with
  | .error e => .refused e
  | .ok .cmd => runCommand v s
  | .ok r => andThen (finishRunning s) fun t => .next (writeHostReg r v t)

end Sys2Proof.Machine
end

