-- ==== Sys2Proof/Machine/Actions.lean ====
section
/-! DEFINITION. What each action of the agenda does (rule R16, log 4). -/

namespace Sys2Proof.Machine

/-- A write transaction the codec layer asks the transport for: a table row runs its instruction; any other command byte
is sent as given (rule R70, log 19). DESIGN CHOICE (log 6): on a busy block it waits for the operation in progress to end,
and it runs whole in this step, so that no read or reset falls within it. -/
def runDevWrite (c v : Byte) (s : State) : Result :=
  match decode [c, v] with
  | .ok i => exec i s
  | .error _ => runOp (wireWriteWord c v) (planWireWrite c v) s

/-- A read transaction the codec layer asks the transport for (rule R70, log 19). DESIGN CHOICE (log 6): it waits and runs
whole, as a write transaction does. -/
def runDevRead (c : Byte) (s : State) : Result :=
  match decode [c] with
  | .ok i => exec i s
  | .error _ => runOp (wireReadWord c) (planWireRead c) s

/-- The host polls STATUS; while BUSY = 1 the sequencer goes on and the poll comes again (rule R84). -/
def runWait (s : State) : Result :=
  if busy s then microTick (logRead (statusWord s) { s with agenda := .wait :: s.agenda })
  else .next (logRead (statusWord s) s)

/-- One action, in the state whose agenda no longer holds it. DESIGN CHOICE (log 29): a reset is one step, so a host access
comes before or after it, never while it is asserted. -/
def runAction (a : Action) (s : State) : Result :=
  match a with
  | .write off width v => hostWrite off width v s
  | .read off width => hostRead off width s
  | .launch w => launchCommand w s
  | .tick => microTick s
  | .wait => runWait s
  | .devWrite c v => runDevWrite c v s
  | .devRead c => runDevRead c s
  | .reset => .next (blockReset s)

/-- The first action of the agenda; with none, the operation in progress goes on, and an idle block waits (rule R161). -/
def runNext (s : State) : Result :=
  match s.agenda with
  | [] => microTick s
  | a :: rest => runAction a { s with agenda := rest }

/-- The action that asks for the instruction the opcode table numbers `w`: a wire command byte is a transaction, a
command word a host write of CMD. -/
def tableAction (nbits w : Nat) : Action :=
  match tableBytes nbits w with
  | [c] => .devRead c
  | [c, v] => .devWrite c v
  | [b0, b1, b2, b3] => .write 0x00 4 (wordOfBytes b0 b1 b2 b3)
  | _ => .tick

end Sys2Proof.Machine
end

