-- ==== Sys2Proof/Machine/Step.lean ====
section
/-! DEFINITION. One step, and where its next instruction comes from. -/

namespace Sys2Proof.Machine

/-- One step: the next action of the agenda. The block fetches nothing (rule R38): an instruction comes as a host write
of CMD, or as a transaction the codec layer asks for. -/
def step (s : State) : Host.Outcome State Fault Refusal := runNext s

/-- The state in which the next step runs the instruction of the opcode table's `nbits`-bit word `w` (log 8): the host
writes the command word, or the transaction is asked for, next. Nothing else changes. -/
def State.withFetchWord (s : State) (nbits w : Nat) : State :=
  { s with agenda := tableAction nbits w :: s.agenda }

end Sys2Proof.Machine
end

