-- ==== Sys2Proof/Machine/Assembler.lean ====
section
/-! DEFINITION. The assembler syntax (rule R83) and the pseudo-instructions (rule R84). -/

namespace Sys2Proof.Machine

/-- A line of rule R83. A field operand is its identifier; `none` of `hours` and the null forms are the flag P. -/
inductive AsmLine where
  | busReset
  | busStart (c : Byte)
  | busWr (v : Byte)
  | busRd
  | regWr (c v : Byte)
  | regRd (c : Byte)
  | getSec
  | getMin
  | getHours (is12h : Bool)
  | rangeMin (f : Byte)
  | rangeMax (f : Byte)
  | dateMax (y m : Byte)
  | codecEnc (f v : Byte)
  | codecDec (f v : Byte)
  | wpSet (on : Bool)
  | dtGet (null : Bool)
  | dtSet (null : Bool)
  | configure (null : Bool)
  deriving DecidableEq, Repr

/-- The command word of a line (the table of rule R83). -/
def assemble : AsmLine → Word
  | .busReset => 0x01000000
  | .busStart c => 0x02000000 ||| byteAt c 16
  | .busWr v => 0x03000000 ||| byteAt v 16
  | .busRd => 0x04000000
  | .regWr c v => 0x05000000 ||| byteAt c 16 ||| byteAt v 8
  | .regRd c => 0x06000000 ||| byteAt c 16
  | .getSec => 0x10000000
  | .getMin => 0x11000000
  | .getHours false => 0x12000000
  | .getHours true => 0x12000001
  | .rangeMin f => 0x20000000 ||| byteAt f 16
  | .rangeMax f => 0x21000000 ||| byteAt f 16
  | .dateMax y m => 0x22000000 ||| byteAt y 16 ||| byteAt m 8
  | .codecEnc f v => 0x23000000 ||| byteAt f 16 ||| byteAt v 8
  | .codecDec f v => 0x24000000 ||| byteAt f 16 ||| byteAt v 8
  | .wpSet false => 0x30000000
  | .wpSet true => 0x30000001
  | .dtGet false => 0x40000001
  | .dtGet true => 0x40000000
  | .dtSet false => 0x41000001
  | .dtSet true => 0x41000000
  | .configure false => 0x70000001
  | .configure true => 0x70000000

/-- The instruction a line stands for. -/
def lineInstr : AsmLine → Instr
  | .busReset => .busReset
  | .busStart c => .busStart c
  | .busWr v => .busWriteByte v
  | .busRd => .busReadByte
  | .regWr c v => .writeReg c v
  | .regRd c => .readReg c
  | .getSec => .getSeconds
  | .getMin => .getMinutes
  | .getHours h => .getHours h
  | .rangeMin f => .rangeMin f
  | .rangeMax f => .rangeMax f
  | .dateMax y m => .dateMax y m
  | .codecEnc f v => .encode f v
  | .codecDec f v => .decode f v
  | .wpSet on => .setWp on
  | .dtGet null => .getDatetime (!null)
  | .dtSet null => .setDatetime (!null)
  | .configure null => .configure (!null)

/-- The pseudo-instructions of rule R84. -/
inductive Pseudo where
  | rd (r : DevReg)
  | wr (r : DevReg) (v : Byte)
  | wpOn
  | wpOff
  | pincfg (clk dat ce : PinId)
  | dtLoad (d : DateTime)
  | wait
  deriving DecidableEq, Repr

/-- A source line: a command, a pseudo-instruction, or nothing. -/
inductive SourceLine where
  | command (l : AsmLine)
  | pseudo (p : Pseudo)
  | blank
  deriving DecidableEq, Repr

/-- The host write that issues a command line. -/
def issue (l : AsmLine) : Action := .write 0x00 4 (assemble l)

/-- `MemWrite(0x20 + 4k, 4, value_k)`. -/
def dtWrite (k : Nat) (v : Byte) : Action := .write (0x20 + 4 * k) 4 (v.setWidth 32)

/-- The expansion of a pseudo-instruction (rule R84). -/
def expand (m : AddrMap) : Pseudo → List Action
  | .rd r => [issue (.regRd (cmdRd m r))]
  | .wr r v => [issue (.regWr (cmdWr m r) v)]
  | .wpOn => [issue (.wpSet true)]
  | .wpOff => [issue (.wpSet false)]
  | .pincfg clk dat ce => [.write 0x14 4 (byteAt ce 16 ||| byteAt dat 8 ||| byteAt clk 0)]
  | .dtLoad d =>
    [dtWrite 0 d.sec, dtWrite 1 d.min, dtWrite 2 d.hour, dtWrite 3 d.wday, dtWrite 4 d.date, dtWrite 5 d.mon,
     dtWrite 6 d.year, dtWrite 7 d.fmt, dtWrite 8 d.pm]
  | .wait => [.wait]

/-- The actions of a source line. -/
def actionsOf (m : AddrMap) : SourceLine → List Action
  | .command l => [issue l]
  | .pseudo p => expand m p
  | .blank => []

/-! ## Reading a line of text (rule R83: decimal or `0x` numbers, `;` starts a comment) -/

/-- The characters before a comment. -/
def beforeComment : List Char → List Char := List.takeWhile (· != ';')

/-- The words of a line: runs of characters other than blanks, tabs and commas. DESIGN CHOICE (log 30): rule R83 writes its
operands apart with a comma and a blank; here any run of blanks, tabs and commas does. -/
def wordsOf : List Char → List (List Char)
  | [] => [[]]
  | c :: cs =>
    match wordsOf cs with
    | w :: ws => if c == ' ' || c == '\t' || c == ',' then [] :: w :: ws else (c :: w) :: ws
    | [] => [[c]]

/-- The value of a digit in a base up to 16. DESIGN CHOICE (log 30): a hexadecimal digit may be a small or a capital
letter. -/
def digitOf? (base : Nat) (c : Char) : Option Nat :=
  let n :=
    if '0' ≤ c ∧ c ≤ '9' then c.toNat - '0'.toNat
    else if 'a' ≤ c ∧ c ≤ 'f' then c.toNat - 'a'.toNat + 10
    else if 'A' ≤ c ∧ c ≤ 'F' then c.toNat - 'A'.toNat + 10
    else 16
  if n < base then some n else none

/-- The number a run of digits spells, after `n`. -/
def digitsOf? (base : Nat) : Nat → List Char → Option Nat
  | n, [] => some n
  | n, c :: cs =>
    match digitOf? base c with
    | some d => digitsOf? base (n * base + d) cs
    | none => none

/-- A number that fits 8 bits, decimal or `0x` hexadecimal (rule R83). DESIGN CHOICE (log 30): a larger one is no operand,
and leading zeros are allowed. -/
def byteOf? (w : List Char) : Option Byte :=
  let n? :=
    match w with
    | [] => none
    | '0' :: 'x' :: c :: cs => digitsOf? 16 0 (c :: cs)
    | cs => digitsOf? 10 0 cs
  match n? with
  | some n => if n < 256 then some (BitVec.ofNat 8 n) else none
  | none => none

/-- A field operand: its name (rule R83) or its number. -/
def fieldOperand? (w : List Char) : Option Byte :=
  match String.ofList w with
  | "sec" => some 0
  | "min" => some 1
  | "hour24" => some 2
  | "hour12" => some 3
  | "wday" => some 4
  | "date" => some 5
  | "month" => some 6
  | "year" => some 7
  | "fmt" => some 8
  | "ampm" => some 9
  | _ => byteOf? w

/-- A device register's name (rule R84). -/
def regOperand? (w : List Char) : Option DevReg :=
  match String.ofList w with
  | "seconds" => some .seconds
  | "minutes" => some .minutes
  | "hours" => some .hours
  | "date" => some .date
  | "month" => some .month
  | "weekday" => some .weekday
  | "year" => some .year
  | "wp" => some .wp
  | _ => none

/-- A keyword operand. -/
def keyword? (w : List Char) (yes no : String) : Option Bool :=
  if String.ofList w == yes then some true else if String.ofList w == no then some false else none

/-- The operand-free lines. -/
def parseBare? (k : String) : Option SourceLine :=
  match k with
  | "bus.reset" => some (.command .busReset)
  | "bus.rd" => some (.command .busRd)
  | "get.sec" => some (.command .getSec)
  | "get.min" => some (.command .getMin)
  | "dt.get" => some (.command (.dtGet false))
  | "dt.set" => some (.command (.dtSet false))
  | "configure" => some (.command (.configure false))
  | "wp.on" => some (.pseudo .wpOn)
  | "wp.off" => some (.pseudo .wpOff)
  | "wait" => some (.pseudo .wait)
  | _ => none

/-- The lines with one operand. -/
def parseOne? (k : String) (x : List Char) : Option SourceLine :=
  match k with
  | "bus.start" => (byteOf? x).map fun c => .command (.busStart c)
  | "bus.wr" => (byteOf? x).map fun v => .command (.busWr v)
  | "reg.rd" => (byteOf? x).map fun c => .command (.regRd c)
  | "get.hours" => (keyword? x "12h" "24h").map fun h => .command (.getHours h)
  | "range.min" => (fieldOperand? x).map fun f => .command (.rangeMin f)
  | "range.max" => (fieldOperand? x).map fun f => .command (.rangeMax f)
  | "wp.set" => (keyword? x "on" "off").map fun b => .command (.wpSet b)
  | "dt.get" => if String.ofList x == "null" then some (.command (.dtGet true)) else none
  | "dt.set" => if String.ofList x == "null" then some (.command (.dtSet true)) else none
  | "configure" => if String.ofList x == "null" then some (.command (.configure true)) else none
  | "rd" => (regOperand? x).map fun r => .pseudo (.rd r)
  | _ => none

/-- The lines with two operands. -/
def parseTwo? (k : String) (x y : List Char) : Option SourceLine :=
  match k with
  | "reg.wr" => (byteOf? x).bind fun c => (byteOf? y).map fun v => .command (.regWr c v)
  | "date.max" => (byteOf? x).bind fun a => (byteOf? y).map fun b => .command (.dateMax a b)
  | "codec.enc" => (fieldOperand? x).bind fun f => (byteOf? y).map fun v => .command (.codecEnc f v)
  | "codec.dec" => (fieldOperand? x).bind fun f => (byteOf? y).map fun v => .command (.codecDec f v)
  | "wr" => (regOperand? x).bind fun r => (byteOf? y).map fun v => .pseudo (.wr r v)
  | _ => none

/-- The lines with more operands. -/
def parseMany? (k : String) (xs : List (List Char)) : Option SourceLine :=
  match k, xs.map byteOf? with
  | "pincfg", [some clk, some dat, some ce] => some (.pseudo (.pincfg clk dat ce))
  | "dt.load", [some s, some mi, some h, some wd, some d, some mo, some y, some f, some p] =>
    some (.pseudo (.dtLoad ⟨s, mi, h, wd, d, mo, y, f, p⟩))
  | _, _ => none

/-- A line of assembler text; none where it is no line of rules R83 and R84. DESIGN CHOICE (log 30): an empty line, or one
that is all comment, stands for nothing. -/
def parseLine? (text : String) : Option SourceLine :=
  match (wordsOf (beforeComment text.toList)).filter (fun w => !w.isEmpty) with
  | [] => some .blank
  | [k] => parseBare? (String.ofList k)
  | [k, x] => parseOne? (String.ofList k) x
  | [k, x, y] => parseTwo? (String.ofList k) x y
  | k :: xs => parseMany? (String.ofList k) xs

end Sys2Proof.Machine
end

