-- ==== Sys2Proof/Machine/Platform.lean ====
section
/-! DEFINITION. Several instances of the block (rules R10, R158): each has its own state; they share nothing. DESIGN CHOICE
(logs 3, 21): past its own `samples` each draws the one free value `Config.freeSample` at its own count. -/

namespace Sys2Proof.Machine

/-- The `N_INST` blocks of a platform. -/
structure Platform where
  blocks : List State
  deriving DecidableEq, Repr

/-- `N_INST >= 1` (rule R10). -/
abbrev Platform.wf (p : Platform) : Prop := 1 ≤ p.blocks.length

/-- What a step of the platform answers. -/
abbrev PlatformResult := Host.Outcome Platform Fault Refusal

/-- The k-th block makes one step; a platform without a k-th block stays as it is. -/
def stepBlock (k : Nat) (p : Platform) : PlatformResult :=
  match p.blocks[k]? with
  | none => .next p
  | some s =>
    match step s with
    | .next t => .next ⟨p.blocks.set k t⟩
    | .fault r => .fault r
    | .refused r => .refused r

end Sys2Proof.Machine
end

