-- ==== Sys2Proof/Machine/Traces.lean ====
section
/-! DEFINITION. The closed forms of the procedures: the events each adds to the trace (rules R90 to R95, R146) and the
state each leaves. The meanings do not use them; claims are stated in them. -/

namespace Sys2Proof.Machine

/-! ## Events -/

/-- `Drive(r, b)` under a pin assignment. -/
def driveEvent (pins : BitVec 24) (r : Role) (b : Bool) : Event := .drive r (rolePin pins r) b

/-- The events of `proc_reset()` (rule R90). -/
def resetEvents (pins : BitVec 24) : List Event := [driveEvent pins .ce false, driveEvent pins .sclk false]

/-- One bit cell out (rule R92). -/
def cellOutEvents (pins : BitVec 24) (b : Bool) : List Event :=
  [driveEvent pins .io b, .delay, driveEvent pins .sclk true, .delay, driveEvent pins .sclk false, .delay]

/-- The events of `proc_shift_out(b, _)` (rule R92), IO being driven to `lvl` by `SetDir`. -/
def shiftOutEvents (pins : BitVec 24) (lvl : Bool) (b : Byte) : List Event :=
  .setOut .io (rolePin pins .io) lvl :: cells.flatMap fun i => cellOutEvents pins (b.getLsbD i.toNat)

/-- One bit cell in (rule R93). -/
def cellInEvents (pins : BitVec 24) (b : Bool) : List Event :=
  [driveEvent pins .sclk true, .delay, .sample (rolePin pins .io) b, driveEvent pins .sclk false, .delay]

/-- The events of `proc_shift_in()` (rule R93), the samples spelling out `d`. -/
def shiftInEvents (pins : BitVec 24) (d : Byte) : List Event :=
  .setIn .io (rolePin pins .io) :: cells.flatMap fun i => cellInEvents pins (d.getLsbD i.toNat)

/-- The events of `proc_start(c)` (rule R91). -/
def startEvents (pins : BitVec 24) (lvl : Bool) (c : Byte) : List Event :=
  [driveEvent pins .ce false, .delay, driveEvent pins .ce true, .delay] ++ shiftOutEvents pins lvl c

/-- The events of `DevWrite(c, v)` (rule R94). -/
def writeEvents (pins : BitVec 24) (lvl : Bool) (c v : Byte) : List Event :=
  startEvents pins lvl c ++ shiftOutEvents pins (c.getLsbD 7) v ++ resetEvents pins

/-- The events of `DevRead(c)` when the device answers `d` (rule R95). -/
def readEvents (pins : BitVec 24) (lvl : Bool) (c d : Byte) : List Event :=
  startEvents pins lvl c ++ shiftInEvents pins d ++ resetEvents pins

/-- The events of CONFIGURE (rule R146): each `SetDir` drives its line to the level it had (rule R169). -/
def configureEvents (pins : BitVec 24) (s : State) : List Event :=
  [.setOut .sclk (rolePin pins .sclk) s.sclk.lvl, driveEvent pins .sclk false,
   .setOut .io (rolePin pins .io) s.io.lvl, driveEvent pins .io false,
   .setOut .ce (rolePin pins .ce) s.ce.lvl, driveEvent pins .ce false]

/-- The `Delay` events of a trace. -/
def delayCount (es : List Event) : Nat := es.countP (· == .delay)

/-- The `Sample` events of a trace. -/
def sampleCount (es : List Event) : Nat :=
  es.countP fun e => match e with
    | .sample _ _ => true
    | .drive _ _ _ | .setOut _ _ _ | .setIn _ _ | .delay | .released => false

/-- The lower bound of rule R172 on the duration of a trace, in microseconds. -/
def minDuration (cfg : Config) (es : List Event) : Nat := delayCount es * cfg.tHalf

/-! ## The status along a run (rules R30, R31, R159) -/

/-- BUS_STATE and BITIDX. -/
abbrev Phase := BusState × BitVec 3

/-- BUS_STATE and BITIDX of a state. -/
def phaseOf (s : State) : Phase := (s.busState, s.bitIdx)

/-- A micro-step that is an event (rules R85, R86). -/
def Micro.isEvent : Micro → Bool
  | .drive _ _ | .driveBit _ | .setDir _ _ | .sample | .delay => true
  | .setBus _ | .settleBus | .setBit _ | .loadShift _ | .clearAcc | .orAcc _ => false
  | .setResult _ | .resultAcc _ | .dtAcc _ | .latchPins | .setConfigured | .setOk _ => false

/-- BUS_STATE and BITIDX as they stand at each event of a run, in order. -/
def eventPhases : List Micro → State → List Phase
  | [], _ => []
  | m :: ms, s => (if m.isEvent then [phaseOf (microEffect m s)] else []) ++ eventPhases ms (microEffect m s)

/-- The value of BUS_STATE after each micro-step of a run, in order. -/
def busStates : List Micro → State → List BusState
  | [], _ => []
  | m :: ms, s => (microEffect m s).busState :: busStates ms (microEffect m s)

/-- A list with each run of equal neighbours cut to one. -/
def dropRepeats : List BusState → List BusState
  | a :: b :: l => if a = b then dropRepeats (b :: l) else a :: dropRepeats (b :: l)
  | [a] => [a]
  | [] => []

/-- The values BUS_STATE passes through in a run, its value before the run first. -/
def busPath (ms : List Micro) (s : State) : List BusState := dropRepeats (s.busState :: busStates ms s)

/-- The phases of eight bit cells of n events each: BITIDX is the number of the cell (rule R31). -/
def cellPhases (b : BusState) (n : Nat) : List Phase := cells.flatMap fun i => List.replicate n (b, i)

/-! ## The physical lines -/

/-- What the block last did to a physical line. -/
inductive Line where
  | driven (b : Bool)
  | floating
  deriving DecidableEq, Repr

/-- A line after one more event (rule R85). A block reset lets the lines of the three roles go (rule R161). DESIGN CHOICE
(log 13): it lets a line go that an earlier CONFIGURE named and a later one left (rule R169), too. -/
def lineStep (p : PinId) (cur : Option Line) (e : Event) : Option Line :=
  match e with
  | .drive _ q b => if q = p then some (.driven b) else cur
  | .setOut _ q b => if q = p then some (.driven b) else cur
  | .setIn _ q => if q = p then some .floating else cur
  | .sample _ _ | .delay => cur
  | .released => none

/-- The line a pin identity names, after a trace; none where the block has not taken it (rules R34, R169). -/
def lineNow (es : List Event) (p : PinId) : Option Line := es.foldl (lineStep p) none

/-- The physical (port, line) a role resolves to (rules R6, R45). -/
def physicalLine (s : State) (r : Role) : Nat × Nat := Config.pinDecode (pinOf s r)

/-! ## States -/

/-- After `proc_reset()` (rule R90). -/
def afterReset (s : State) : State :=
  { s with
    busState := .idle
    ce := { s.ce with lvl := false }
    sclk := { s.sclk with lvl := false }
    trace := s.trace ++ resetEvents s.pins }

/-- After `proc_shift_out(b, _)` (rule R92). -/
def afterShiftOut (b : Byte) (s : State) : State :=
  { s with
    shift := b
    bitIdx := 7
    busState := settledBus s
    io := ⟨some .output, b.getLsbD 7⟩
    sclk := { s.sclk with lvl := false }
    trace := s.trace ++ shiftOutEvents s.pins s.io.lvl b }

/-- After `proc_shift_in()` (rule R93). -/
def afterShiftIn (s : State) : State :=
  { s with
    acc := drawnByte s 0
    sampled := draw s 7
    bitIdx := 7
    busState := settledBus s
    io := { s.io with dir := some .floating }
    sclk := { s.sclk with lvl := false }
    samples := s.samples.drop 8
    drawn := s.drawn + 8
    trace := s.trace ++ shiftInEvents s.pins (drawnByte s 0) }

/-- After `proc_start(c)` (rule R91). -/
def afterStart (c : Byte) (s : State) : State :=
  { s with
    shift := c
    bitIdx := 7
    busState := .started
    ce := { s.ce with lvl := true }
    io := ⟨some .output, c.getLsbD 7⟩
    sclk := { s.sclk with lvl := false }
    trace := s.trace ++ startEvents s.pins s.io.lvl c }

/-- After `DevWrite(c, v)` (rule R94). -/
def afterWrite (c v : Byte) (s : State) : State :=
  { s with
    shift := v
    bitIdx := 7
    busState := .idle
    ce := { s.ce with lvl := false }
    io := ⟨some .output, v.getLsbD 7⟩
    sclk := { s.sclk with lvl := false }
    trace := s.trace ++ writeEvents s.pins s.io.lvl c v }

/-- After `DevRead(c)` (rule R95). -/
def afterRead (c : Byte) (s : State) : State :=
  { s with
    shift := c
    acc := drawnByte s 0
    sampled := draw s 7
    bitIdx := 7
    busState := .idle
    ce := { s.ce with lvl := false }
    io := ⟨some .floating, c.getLsbD 7⟩
    sclk := { s.sclk with lvl := false }
    samples := s.samples.drop 8
    drawn := s.drawn + 8
    trace := s.trace ++ readEvents s.pins s.io.lvl c (drawnByte s 0) }

/-- After CONFIGURE with a present configuration (rule R146). -/
def afterConfigure (s : State) : State :=
  { s with
    pins := s.pincfg
    configured := true
    busState := .idle
    ok := true
    ce := ⟨some .output, false⟩
    sclk := ⟨some .output, false⟩
    io := ⟨some .output, false⟩
    trace := s.trace ++ configureEvents s.pincfg s }

end Sys2Proof.Machine
end

