-- ==== Sys2Proof/Safety.lean ====
section
/-! DEFINITION. What claims are stated in: the states a line operation can run in, a safe run, and the invariant. -/

namespace Sys2Proof.Machine

/-- A safe state: no programming-contract violation has been raised. A faulted block is not a finished run: it refutes a
claim of correct behaviour (rule R150). -/
abbrev Healthy (s : State) : Prop := s.fault = false

/-- The block is idle and healthy: a command word is accepted and acted on at once (rules R18, R89). -/
abbrev Accepting (s : State) : Prop := s.fault = false ∧ s.running = none

/-- The block is configured as well, with CE and SCLK its outputs (rules R26, R35): an operation that drives lines runs. -/
abbrev Ready (s : State) : Prop :=
  s.fault = false ∧ s.running = none ∧ s.configured = true ∧ s.ce.dir = some .output ∧ s.sclk.dir = some .output

/-- Rule R35 for a configured block between operations: CE and SCLK are outputs, SCLK is low, CE is high exactly in
STARTED and low in IDLE; IO has been taken. -/
abbrev LinesSettled (s : State) : Prop :=
  s.ce.dir = some .output ∧ s.sclk.dir = some .output ∧ s.io.dir ≠ none ∧ s.sclk.lvl = false ∧
    s.busState = settledBus s

/-- Rule R34 before the first CONFIGURE: the block has taken no line. -/
abbrev LinesUntaken (s : State) : Prop :=
  s.ce = ⟨none, false⟩ ∧ s.sclk = ⟨none, false⟩ ∧ s.io = ⟨none, false⟩ ∧ s.busState = .idle

/-- The fault record agrees with the FAULT bit: CAUSE is 0 while FAULT = 0 (rule R19), and FAULT_INFO and FAULT_ARG are
written only when a fault is raised (rules R21, R22). -/
abbrev FaultRecordOk (s : State) : Prop :=
  (s.fault = true ↔ s.cause ≠ .none) ∧ (s.fault = false → s.faultInfo = 0 ∧ s.faultArg = 0)

/-- The invariant between operations. -/
abbrev IdleInv (s : State) : Prop :=
  FaultRecordOk s ∧ (s.configured = true → LinesSettled s) ∧
    (s.configured = false → LinesUntaken s ∧ s.pins = 0)

/-- The invariant: between operations `IdleInv`; during one, the block is healthy and the micro-steps still to come run
to a state that satisfies it. -/
def BlockInv (s : State) : Prop :=
  match s.running with
  | none => IdleInv s
  | some r =>
    s.fault = false ∧
      match runMicros r.todo s with
      | .next t => IdleInv t
      | .fault _ | .refused _ => False

end Sys2Proof.Machine
end

