-- ==== Sys2Proof/Certificates/Slice0/Obligations.lean ====
section
/-! DEFINITION. The statements for the provers. -/

open Sys2Proof Sys2Proof.Machine

/-! ## Encoding -/

/-- Every well-formed instruction, with every operand, is read back from its bytes (rules R63, R65, R68, R69, R82). -/
def Obligations.DecodeOfEncodeIsTheInstruction : Prop :=
  ∀ i : Instr, i.wellFormed = true → decode (Sys2Proof.encode i) = .ok i

/-- A command word has one meaning: what it decodes to has it as its word (rules R63, R65). -/
def Obligations.DecodedWordEncodesBack : Prop :=
  ∀ (w : Word) (i : Instr), decodeWord w = .ok i → commandWord i = w ∧ i.fields? = some (wordFields w)

/-- The decoder accepts exactly the words the table of rule R65 and rules R66, R67 make legal. -/
def Obligations.DecoderAcceptsExactlyTheLegalWords : Prop :=
  ∀ w : Word, (∃ i, decodeWord w = .ok i) ↔ (wordFields w).wellFormed = true

/-- Words written out from the encoding tables decode to what they stand for (rules R44, R65, R83). -/
def Obligations.WrittenOutWordsDecode : Prop :=
  decodeTableWord 32 0x05_8C_24_00 = some (.writeReg 0x8C 0x24) ∧
  decodeTableWord 32 0x12_00_00_01 = some (.getHours true) ∧
  decodeTableWord 32 0x22_01_02_00 = some (.dateMax 1 2) ∧
  decodeTableWord 32 0x30_00_00_01 = some (.setWp true) ∧
  decodeTableWord 32 0x41_00_00_01 = some (.setDatetime true) ∧
  decodeTableWord 32 0x70_00_00_01 = some (.configure true) ∧
  decodeTableWord 8 0x8D = some .wireRdYear ∧
  decodeTableWord 8 0x8E = some (.wireWrWp 0) ∧
  decodeTableWord 32 0x20_00_00_02 = none

/-- Every operation code outside the table of rule R65 raises F_ILLEGAL_OP, whatever the other fields (rule R67). -/
def Obligations.UnassignedOpcodeRaisesIllegalOp : Prop :=
  ∀ (s : State) (w : Word) (rest : List Action), Accepting s → s.agenda = .write 0x00 4 w :: rest →
    (let op := (wordOp w).toNat
     op = 0x00 ∨ (0x07 ≤ op ∧ op ≤ 0x0F) ∨ (0x13 ≤ op ∧ op ≤ 0x1F) ∨ (0x25 ≤ op ∧ op ≤ 0x2F) ∨
       (0x31 ≤ op ∧ op ≤ 0x3F) ∨ (0x42 ≤ op ∧ op ≤ 0x6F) ∨ (0x71 ≤ op ∧ op ≤ 0xFF)) →
    step s = .next (raiseFault w ⟨.illegalOp, 0xFF, wordOp w⟩ { s with agenda := rest })

/-- A nonzero reserved or unused field raises F_ILLEGAL_OP (rule R66); the raised fault is written out. -/
def Obligations.NonzeroUnusedFieldRaisesIllegalOp : Prop :=
  ∀ (s : State) (w : Word) (r : OpRow) (rest : List Action), Accepting s → s.agenda = .write 0x00 4 w :: rest →
    opRow? (wordOp w) = some r →
    (wordRsv w ≠ 0 ∨ (r.usesA = false ∧ wordA w ≠ 0) ∨ (r.usesB = false ∧ wordB w ≠ 0) ∨
      (r.usesP = false ∧ wordP w = true)) →
    ∃ t, step s = .next t ∧
      t = { s with
        agenda := rest, cause := .illegalOp, fault := true, faultInfo := w, faultArg := t.faultArg, ok := false } ∧
      t.faultArg.extractLsb' 8 8 = 0xFF ∧ t.faultArg.extractLsb' 0 8 = wordOp w

/-! ## Steps -/

/-- A step whose next action is a host write of a legal command word runs that instruction; a transaction asked for runs
its wire command row; `withFetchWord` makes either the next action. -/
def Obligations.StepRunsTheDecodedInstruction : Prop :=
  ∀ (s : State) (i : Instr) (rest : List Action),
    (∀ w, s.agenda = .write 0x00 4 w :: rest → decodeWord w = .ok i → step s = exec i { s with agenda := rest }) ∧
    (∀ c v, s.agenda = .devWrite c v :: rest → decode [c, v] = .ok i → step s = exec i { s with agenda := rest }) ∧
    (∀ c, s.agenda = .devRead c :: rest → decode [c] = .ok i → step s = exec i { s with agenda := rest }) ∧
    (∀ w, decodeTableWord 32 w = some i → step (s.withFetchWord 32 w) = exec i s) ∧
    (∀ w, decodeTableWord 8 w = some i → step (s.withFetchWord 8 w) = exec i s)

/-- A busy block works its micro-steps off in order, the position moving on by one for each event (rules R33, R38); a
command or another host write that finds it busy waits and takes effect in the state the micro-steps end in (rules R18,
R40). Micro-steps are the model's (logs 5, 14, 16), and so is that the wait lies within the write's own step (log 23)
and that a wire command row waits as well (log 6). -/
def Obligations.BusyBlockFinishesBeforeAWrite : Prop :=
  ∀ (s u : State) (n : Nat), microTicks n s = .next u →
    (∀ r q, s.running = some r → u.running = some q →
      q.op = r.op ∧ q.pos + s.trace.length = r.pos + u.trace.length ∧
      ∃ ms t, r.todo = ms ++ q.todo ∧ runMicros ms s = .next t ∧ u = { t with running := some q }) ∧
    (u.running = none →
      (∀ i, exec i s = exec i u) ∧ (∀ w, launchCommand w s = launchCommand w u) ∧
        ∀ off v, hostWrite off 4 v s = hostWrite off 4 v u)

/-- Running an operation one micro-step at a time, from its acceptance, ends after a stated number of micro-steps in the
state the operation run to its end answers (rules R33, R86, R171). -/
def Obligations.EventByEventExecutionAgrees : Prop :=
  ∀ (w : Word) (s u t : State), Accepting s → launchCommand w s = .next u → runCommand w s = .next t →
    (u.running = none ∧ u = t) ∨
    ∃ r, u.running = some r ∧ r.op = w ∧ r.pos = 0 ∧ microTicks (ticksFor s.cfg r.todo) u = .next t ∧
      t.running = none

/-- Only a host access that rule R42 shuts out is refused. -/
def Obligations.OnlyBadHostAccessesAreRefused : Prop :=
  ∀ (s : State) (e : Refusal), step s = .refused e →
    ∃ off width rest, (s.agenda = .read off width :: rest ∨ ∃ v, s.agenda = .write off width v :: rest) ∧
      ((width ≠ 4 ∧ e = .hostAccessWidth width) ∨
       (width = 4 ∧ off % 4 ≠ 0 ∧ e = .hostAccessUnaligned off) ∨
       (width = 4 ∧ off % 4 = 0 ∧ (off = 0x1C ∨ 0x44 ≤ off) ∧ e = .hostAccessUnoccupied off))

/-- A host access of another width, at an unaligned offset, or at an offset no register occupies has no step
(rule R42); every other one does, on an idle block. -/
def Obligations.HostAccessIsRefusedExactlyOffTheMap : Prop :=
  ∀ (s : State) (off width : Nat) (v : Word) (rest : List Action),
    let bad := width ≠ 4 ∨ off % 4 ≠ 0 ∨ off = 0x1C ∨ 0x44 ≤ off
    (bad → s.agenda = .read off width :: rest → ∃ e, step s = .refused e) ∧
    (bad → s.agenda = .write off width v :: rest → ∃ e, step s = .refused e) ∧
    (¬ bad → s.agenda = .read off width :: rest → ∃ t, step s = .next t) ∧
    (¬ bad → BlockInv s → s.agenda = .write off width v :: rest → ∃ t, step s = .next t)

/-! ## Reset and invariants -/

/-- The values rule R41 states for reset: every host register reads 0, nothing is in operation, no line is taken. -/
def Obligations.ResetLeavesTheStatedValues : Prop :=
  (∀ r : HostReg, readHostReg r State.reset = 0) ∧ State.reset.running = none ∧
    State.reset.busState = .idle ∧ State.reset.bitIdx = 0 ∧ State.reset.cause = .none ∧
    ∀ r : Role, getPin State.reset r = ⟨none, false⟩

/-- Block reset, at any time, gives every piece of the block's state its reset value: an operation in progress is
abandoned and nothing it would have written is written (rule R161). What the environment and the logs keep is the model's
choice (log 13), and so are the values of SHIFT and ACC, which the rule leaves unspecified (log 1), and of `sampled`
(log 2). -/
def Obligations.BlockResetRestoresResetState : Prop :=
  ∀ (s : State) (rest : List Action), s.agenda = .reset :: rest →
    step s = .next { State.reset with
      cfg := s.cfg, agenda := rest, samples := s.samples, drawn := s.drawn, trace := s.trace ++ [.released],
      reads := s.reads }

/-- The reset state satisfies the invariant. -/
def Obligations.ResetStateSatisfiesInv : Prop := BlockInv State.reset

/-- Every step keeps the invariant: between operations the lines are as rules R34 and R35 say, CE high exactly in
STARTED, and the fault record agrees with FAULT (rules R19, R21, R22); during one, what remains of it runs to such a
state. -/
def Obligations.EveryStepKeepsInv : Prop :=
  ∀ s t : State, BlockInv s → step s = .next t → BlockInv t

/-- No step from a state of the invariant reaches an event whose precondition fails (rule R85). -/
def Obligations.NoEventPreconditionFails : Prop :=
  ∀ (s : State) (f : Fault), BlockInv s → step s ≠ .fault f

/-- A configured, healthy, idle state of the invariant is ready: CE and SCLK are outputs (rules R26, R35). -/
def Obligations.InvariantMakesConfiguredBlockReady : Prop :=
  ∀ s : State, BlockInv s → s.configured = true → s.fault = false → s.running = none →
    Ready s ∧ s.sclk.lvl = false ∧ (s.ce.lvl = true ↔ s.busState = .started) ∧
      (s.ce.lvl = false ↔ s.busState = .idle)

/-- Every operation ends: an operation in progress in a state of the invariant is over after at most as many micro-steps
as its remaining micro-steps and the running timer count (rules R156, R171). The bound is the model's: a `Delay` counts
exactly `DELAY_TICKS` cycles (log 14) and an assignment is a micro-step (log 16); the rules give no upper bound. -/
def Obligations.EveryOperationEnds : Prop :=
  ∀ (s : State) (r : Running), BlockInv s → s.running = some r →
    ∃ n t, n ≤ ticksFor s.cfg r.todo + r.timer.getD 0 ∧ microTicks n s = .next t ∧ t.running = none ∧ IdleInv t

/-- CONFIGURED and FAULT never fall but by block reset (rules R26, R27), and no step changes the parameters. -/
def Obligations.ConfiguredAndFaultFallOnlyByReset : Prop :=
  ∀ s t : State, step s = .next t →
    t.cfg = s.cfg ∧
    ((∀ rest, s.agenda ≠ .reset :: rest) →
      (s.configured = true → t.configured = true) ∧ (s.fault = true → t.fault = true))

/-! ## Frames over all instructions -/

/-- What no instruction, and which single instruction, changes: PINS and CONFIGURED only CONFIGURE (rules R24, R26), DT
only GET_DATETIME (rule R25), RESULT only the ten operations of rule R20, PINCFG none (rule R23); CE and SCLK never become
inputs (rule R34). That the sixteen wire command rows keep RESULT is the model's reading of them (log 6). -/
def Obligations.InstructionsKeepOtherRegisters : Prop :=
  ∀ (i : Instr) (s t : State), s.running = none → exec i s = .next t →
    t.running = none ∧ t.cfg = s.cfg ∧ t.pincfg = s.pincfg ∧ t.agenda = s.agenda ∧ t.reads = s.reads ∧
    (i ≠ .configure true → t.pins = s.pins ∧ t.configured = s.configured) ∧
    (i ≠ .getDatetime true → t.dt = s.dt) ∧
    ((i ≠ .busReadByte ∧ (∀ c, i ≠ .readReg c) ∧ i ≠ .getSeconds ∧ i ≠ .getMinutes ∧ (∀ p, i ≠ .getHours p) ∧
      (∀ f, i ≠ .rangeMin f) ∧ (∀ f, i ≠ .rangeMax f) ∧ (∀ y m, i ≠ .dateMax y m) ∧ (∀ f v, i ≠ .encode f v) ∧
      (∀ f p, i ≠ .decode f p)) → t.result = s.result) ∧
    (s.ce.dir ≠ some .floating → t.ce.dir ≠ some .floating) ∧
    (s.sclk.dir ≠ some .floating → t.sclk.dir ≠ some .floating)

/-- The codec operations, the null forms and a failed CONFIGURE touch no line and no internal register: they change
RESULT, OK and the fault record only. -/
def Obligations.CodecAndNullFormsTouchNoLine : Prop :=
  ∀ (i : Instr) (s t : State), s.running = none →
    ((∃ f, i = .rangeMin f) ∨ (∃ f, i = .rangeMax f) ∨ (∃ y m, i = .dateMax y m) ∨ (∃ f v, i = .encode f v) ∨
      (∃ f p, i = .decode f p) ∨ i = .getDatetime false ∨ i = .setDatetime false ∨ i = .configure false) →
    exec i s = .next t →
    t = { s with
      result := t.result, ok := t.ok, cause := t.cause, fault := t.fault, faultInfo := t.faultInfo,
      faultArg := t.faultArg }

/-- Faults are precise: an instruction that raises one changes the fault record, FAULT and OK, and nothing else; no event
has occurred (rule R149). -/
def Obligations.FaultsArePrecise : Prop :=
  ∀ (i : Instr) (s t : State), Accepting s → exec i s = .next t → t.fault = true →
    t = { s with
      cause := t.cause, fault := true, faultInfo := commandWord i, faultArg := t.faultArg, ok := false } ∧
    t.cause ≠ .none

/-- While FAULT = 1 a CMD write, legal or not, is accepted and discarded, and host writes of PINCFG and the DT registers
take effect (rule R150). -/
def Obligations.FaultedBlockDiscardsCommands : Prop :=
  ∀ (s : State) (rest : List Action), s.fault = true → s.running = none →
    (∀ i, exec i s = .next s) ∧
    (∀ w, s.agenda = .write 0x00 4 w :: rest → step s = .next { s with agenda := rest }) ∧
    (∀ v, s.agenda = .write 0x14 4 v :: rest → step s = .next { s with agenda := rest, pincfg := v.setWidth 24 }) ∧
    (∀ v, s.agenda = .write 0x20 4 v :: rest →
      step s = .next { s with agenda := rest, dt := { s.dt with sec := v.setWidth 8 } })

/-- Every event an instruction adds is tagged with the pin PINS gives its role at that event: CE_PIN for CE, CLK_PIN for
SCLK, DAT_PIN for IO (rule R88). CONFIGURE writes PINS before its first event. -/
def Obligations.EventsResolveThroughPins : Prop :=
  ∀ (i : Instr) (s t : State), s.running = none → exec i s = .next t →
    let pin : Role → PinId := fun r => match r with
      | .ce => t.pins.extractLsb' 16 8
      | .sclk => t.pins.extractLsb' 0 8
      | .io => t.pins.extractLsb' 8 8
    ∃ es : List Event, t.trace = s.trace ++ es ∧ ∀ e ∈ es,
      e = .delay ∨ (∃ r b, e = .drive r (pin r) b) ∨ (∃ r b, e = .setOut r (pin r) b) ∨ e = .setIn .io (pin .io) ∨
        ∃ b, e = .sample (pin .io) b

/-! ## Bus Transport -/

/-- The fault of an operation that drives lines on a block that is not configured (rule R148). -/
abbrev TakesNotConfigured (i : Instr) (s : State) : Prop :=
  exec i s = .next { s with
    cause := .notConfigured, fault := true, faultInfo := commandWord i, faultArg := 0xFF00, ok := false }

/-- BUS_RESET (rules R90, R96): its two events, also when a frame is open; unconfigured, its fault. -/
def Obligations.BusResetDrivesCeAndSclkLow : Prop :=
  ∀ s : State,
    (Ready s → exec .busReset s = .next { s with
      busState := .idle, ok := true, ce := { s.ce with lvl := false }, sclk := { s.sclk with lvl := false }
      trace := s.trace ++ [.drive .ce (rolePin s.pins .ce) false, .drive .sclk (rolePin s.pins .sclk) false] }) ∧
    (Accepting s → s.configured = false → TakesNotConfigured .busReset s)

/-- BUS_START leaves the frame open after the command byte (rules R91, R97). -/
def Obligations.BusStartOpensAFrame : Prop :=
  ∀ (c : Byte) (s : State),
    (Ready s → exec (.busStart c) s = .next { afterStart c s with ok := true }) ∧
    (Accepting s → s.configured = false → TakesNotConfigured (.busStart c) s)

/-- BUS_WRITE_BYTE (rules R92, R98), with CE high or low. -/
def Obligations.BusWriteByteShiftsOut : Prop :=
  ∀ (b : Byte) (s : State),
    (Ready s → exec (.busWriteByte b) s = .next { afterShiftOut b s with ok := true }) ∧
    (Accepting s → s.configured = false → TakesNotConfigured (.busWriteByte b) s)

/-- BUS_READ_BYTE: sample k becomes RESULT bit k (rules R93, R99). -/
def Obligations.BusReadByteAssemblesSamples : Prop :=
  ∀ s : State,
    (Ready s → ∃ t, exec .busReadByte s = .next t ∧
      t = { afterShiftIn s with ok := true, result := t.result } ∧
      ∀ k, k < 8 → t.result.getLsbD k = draw s k) ∧
    (Accepting s → s.configured = false → TakesNotConfigured .busReadByte s)

/-- WRITE_REG and READ_REG run one transaction with the command byte as given (rules R70, R94, R95, R100, R101). -/
def Obligations.RegisterTransactionsRun : Prop :=
  ∀ (c v : Byte) (s : State),
    (Ready s → exec (.writeReg c v) s = .next { afterWrite c v s with ok := true } ∧
      exec (.readReg c) s = .next { afterRead c s with ok := true, result := drawnByte s 0 }) ∧
    (Accepting s → s.configured = false → TakesNotConfigured (.writeReg c v) s ∧ TakesNotConfigured (.readReg c) s)

/-- The write rows of the wire commands: the transaction of rule R94 with the row's byte (rules R44, R69). -/
def Obligations.WireWriteCommandsRun : Prop :=
  ∀ (v : Byte) (s : State), Ready s →
    exec (.wireWrSeconds v) s = .next (afterWrite 0x80 v s) ∧ exec (.wireWrMinutes v) s = .next (afterWrite 0x82 v s) ∧
    exec (.wireWrHours v) s = .next (afterWrite 0x84 v s) ∧ exec (.wireWrDate v) s = .next (afterWrite 0x86 v s) ∧
    exec (.wireWrMonth v) s = .next (afterWrite 0x88 v s) ∧ exec (.wireWrWeekday v) s = .next (afterWrite 0x8A v s) ∧
    exec (.wireWrYear v) s = .next (afterWrite 0x8C v s) ∧ exec (.wireWrWp v) s = .next (afterWrite 0x8E v s)

/-- The read rows of the wire commands: the transaction of rule R95 with the row's byte (rules R44, R69). -/
def Obligations.WireReadCommandsRun : Prop :=
  ∀ s : State, Ready s →
    exec .wireRdSeconds s = .next (afterRead 0x81 s) ∧ exec .wireRdMinutes s = .next (afterRead 0x83 s) ∧
    exec .wireRdHours s = .next (afterRead 0x85 s) ∧ exec .wireRdDate s = .next (afterRead 0x87 s) ∧
    exec .wireRdMonth s = .next (afterRead 0x89 s) ∧ exec .wireRdWeekday s = .next (afterRead 0x8B s) ∧
    exec .wireRdYear s = .next (afterRead 0x8D s) ∧ exec .wireRdWp s = .next (afterRead 0x8F s)

/-- Every operation that drives a line, on a block that is not configured, raises F_NOT_CONFIGURED (rules R26, R148). -/
def Obligations.UnconfiguredLineOperationsFault : Prop :=
  ∀ (i : Instr) (s : State), Accepting s → s.configured = false →
    (i = .busReset ∨ (∃ c, i = .busStart c) ∨ (∃ b, i = .busWriteByte b) ∨ i = .busReadByte ∨
      (∃ c v, i = .writeReg c v) ∨ (∃ c, i = .readReg c) ∨ i = .getSeconds ∨ i = .getMinutes ∨
      (∃ p, i = .getHours p) ∨ (∃ p, i = .setWp p) ∨ i = .getDatetime true ∨ i = .setDatetime true) →
    TakesNotConfigured i s

/-- A wire command on a block that is not configured takes the same fault; the recorded word is the model's choice
(log 7). -/
def Obligations.UnconfiguredWireCommandsFault : Prop :=
  ∀ (i : Instr) (s : State), Accepting s → s.configured = false → i.wireByte?.isSome = true → TakesNotConfigured i s

/-- The levels IO is driven to, in order. -/
def ioLevels (es : List Event) : List Bool :=
  es.filterMap fun e => match e with
    | .drive .io _ b => some b
    | .drive .ce _ _ | .drive .sclk _ _ | .setOut _ _ _ | .setIn _ _ | .sample _ _ | .delay | .released => none

/-- The levels sampled, in order. -/
def sampledLevels (es : List Event) : List Bool :=
  es.filterMap fun e => match e with
    | .sample _ b => some b
    | .drive _ _ _ | .setOut _ _ _ | .setIn _ _ | .delay | .released => none

/-- The bits of a byte, the least significant first. -/
def bitsLsbFirst (b : Byte) : List Bool :=
  [b.getLsbD 0, b.getLsbD 1, b.getLsbD 2, b.getLsbD 3, b.getLsbD 4, b.getLsbD 5, b.getLsbD 6, b.getLsbD 7]

/-- On the wire the command byte and the data byte alike go least significant bit first, sent or received (rule R47). -/
def Obligations.BytesGoLeastSignificantBitFirst : Prop :=
  ∀ (c v : Byte) (s : State), Ready s →
    (∃ t es, exec (.writeReg c v) s = .next t ∧ t.trace = s.trace ++ es ∧
      ioLevels es = bitsLsbFirst c ++ bitsLsbFirst v) ∧
    (∃ t es, exec (.readReg c) s = .next t ∧ t.trace = s.trace ++ es ∧
      ioLevels es = bitsLsbFirst c ∧ sampledLevels es = bitsLsbFirst t.result)

/-- A byte shifted out and read back through a loopback of the same levels is the byte (rule R102). -/
def Obligations.LoopbackReproducesTheByte : Prop :=
  ∀ (b : Byte) (s t : State), Ready s → exec (.busWriteByte b) s = .next t →
    (∃ es, t.trace = s.trace ++ es ∧ ioLevels es = [draw t 0, draw t 1, draw t 2, draw t 3, draw t 4, draw t 5, draw t 6,
      draw t 7]) →
    ∃ u, exec .busReadByte t = .next u ∧ u.result = b

/-- What lies between two states' traces: so many events, so many of them `Delay`, so many `Sample`. -/
def AddsEvents (s t : State) (events delays samples : Nat) : Prop :=
  ∃ es, t.trace = s.trace ++ es ∧ es.length = events ∧ delayCount es = delays ∧ sampleCount es = samples

/-- Events, `Delay` events and `Sample` events of each procedure and transaction, wherever it runs (rule R103); BUS_STATE
and BITIDX at each of those events, and the states BUS_STATE passes through (rules R30, R31, R90 to R95): BITIDX is the
number of the bit cell, CMD the phase of the command byte, XFER that of the data byte. -/
def Obligations.EventCountsOfTheProcedures : Prop :=
  ∀ (s t : State) (c v : ByteSrc) (phase : BusState),
    let settled : BusState := if s.ce.lvl then .started else .idle
    let b : BusState := s.busState
    let i : BitVec 3 := s.bitIdx
    (runMicros procReset s = .next t → AddsEvents s t 2 0 0 ∧ phaseOf t = (.idle, i) ∧
      eventPhases procReset s = [(.reset, i), (.reset, i)]) ∧
    (runMicros (procShiftOut v phase) s = .next t → AddsEvents s t 49 24 0 ∧ phaseOf t = (settled, 7) ∧
      eventPhases (procShiftOut v phase) s = (b, i) :: cellPhases phase 6) ∧
    (runMicros procShiftIn s = .next t → AddsEvents s t 41 16 8 ∧ phaseOf t = (settled, 7) ∧
      eventPhases procShiftIn s = (b, i) :: cellPhases .xfer 5) ∧
    (runMicros (procStart c) s = .next t → AddsEvents s t 53 26 0 ∧ phaseOf t = (.started, 7) ∧
      eventPhases (procStart c) s = List.replicate 5 (.reset, i) ++ cellPhases .cmd 6) ∧
    (runMicros (devWrite c v) s = .next t → AddsEvents s t 104 50 0 ∧ phaseOf t = (.idle, 7) ∧
      eventPhases (devWrite c v) s =
        List.replicate 5 (.reset, i) ++ cellPhases .cmd 6 ++ [(.started, 7)] ++ cellPhases .xfer 6 ++
          [(.reset, 7), (.reset, 7)] ∧
      (b = .idle → busPath (devWrite c v) s = [.idle, .reset, .cmd, .started, .xfer, .started, .reset, .idle])) ∧
    (runMicros (devRead c) s = .next t → AddsEvents s t 96 42 8 ∧ phaseOf t = (.idle, 7) ∧
      eventPhases (devRead c) s =
        List.replicate 5 (.reset, i) ++ cellPhases .cmd 6 ++ [(.started, 7)] ++ cellPhases .xfer 5 ++
          [(.reset, 7), (.reset, 7)] ∧
      (b = .idle → busPath (devRead c) s = [.idle, .reset, .cmd, .started, .xfer, .started, .reset, .idle]))

/-- The row of the table of rule R172 for an operation that is not turned away: events, `Delay` events, `Sample` events,
the lower bound in microseconds at `T_HALF` = 2. A wire command row is one transaction (rules R94, R95). -/
def timingRow : Instr → Nat × Nat × Nat × Nat
  | .busReset => (2, 0, 0, 0)
  | .busStart _ => (53, 26, 0, 52)
  | .busWriteByte _ => (49, 24, 0, 48)
  | .busReadByte => (41, 16, 8, 32)
  | .writeReg _ _ | .setWp _ => (104, 50, 0, 100)
  | .readReg _ | .getSeconds | .getMinutes | .getHours _ => (96, 42, 8, 84)
  | .getDatetime true => (672, 294, 56, 588)
  | .setDatetime true => (728, 350, 0, 700)
  | .configure true => (6, 0, 0, 0)
  | .rangeMin _ | .rangeMax _ | .dateMax _ _ | .encode _ _ | .decode _ _ => (0, 0, 0, 0)
  | .getDatetime false | .setDatetime false | .configure false => (0, 0, 0, 0)
  | .wireWrSeconds _ | .wireWrMinutes _ | .wireWrHours _ | .wireWrDate _ => (104, 50, 0, 100)
  | .wireWrMonth _ | .wireWrWeekday _ | .wireWrYear _ | .wireWrWp _ => (104, 50, 0, 100)
  | .wireRdSeconds | .wireRdMinutes | .wireRdHours | .wireRdDate => (96, 42, 8, 84)
  | .wireRdMonth | .wireRdWeekday | .wireRdYear | .wireRdWp => (96, 42, 8, 84)

/-- Every operation that runs adds the events of its row of the timing table (rule R172). -/
def Obligations.OperationsAddTheirEvents : Prop :=
  ∀ (i : Instr) (s t : State), Accepting s → exec i s = .next t → t.fault = false →
    ∃ es, t.trace = s.trace ++ es ∧
      (es.length, delayCount es, sampleCount es, minDuration { s.cfg with tHalf := 2 } es) = timingRow i

/-! ## Register codec -/

/-- The range table, indexed by field id (rule R126). -/
def Obligations.RangeTableIsAsStated : Prop :=
  (∀ f : Field, (fieldId f, rangeMinOf f, rangeMaxOf f) =
    match f with
    | .seconds => (0, 0, some 59)
    | .minutes => (1, 0, some 59)
    | .hours24 => (2, 0, some 23)
    | .hours12 => (3, 1, some 12)
    | .weekday => (4, 1, some 7)
    | .date => (5, 1, none)
    | .month => (6, 1, some 12)
    | .year => (7, 0, some 99)
    | .format => (8, 0, some 1)
    | .ampm => (9, 0, some 1)) ∧
  ∀ f n, rangeMaxOf f = some n → rangeMinOf f ≤ n

/-- RANGE_MIN (rule R130): the minimum of a recognised field; any other identifier faults. -/
def Obligations.RangeMinAnswersTheMinimum : Prop :=
  ∀ (a : Byte) (s : State), Accepting s →
    (∀ f, fieldId f = a →
      exec (.rangeMin a) s = .next { s with result := BitVec.ofNat 8 (rangeMinOf f), ok := true }) ∧
    (9 < a.toNat → exec (.rangeMin a) s = .next (raiseFault (commandWord (.rangeMin a)) ⟨.invalidField, 0xFF, a⟩ s))

/-- RANGE_MAX (rule R131): the maximum; an unrecognised field, and the day-of-month field, fault. -/
def Obligations.RangeMaxAnswersTheMaximum : Prop :=
  ∀ (a : Byte) (s : State), Accepting s →
    (∀ f n, fieldId f = a → rangeMaxOf f = some n →
      exec (.rangeMax a) s = .next { s with result := BitVec.ofNat 8 n, ok := true }) ∧
    (a = 5 → exec (.rangeMax a) s = .next (raiseFault (commandWord (.rangeMax a)) ⟨.invalidField, 0x05, 0x05⟩ s)) ∧
    (9 < a.toNat → exec (.rangeMax a) s = .next (raiseFault (commandWord (.rangeMax a)) ⟨.invalidField, 0xFF, a⟩ s))

/-- DATE_MAX (rules R128, R129, R132): the days of the month, February by `y % 4` on a two-digit year; a bad month is
reported before a bad year. -/
def Obligations.DateMaxAnswersTheDaysOfTheMonth : Prop :=
  ∀ (y m : Byte) (s : State), Accepting s →
    let d : Nat :=
      if m = 2 then (if y.toNat % 4 = 0 then 29 else 28)
      else if m = 4 ∨ m = 6 ∨ m = 9 ∨ m = 11 then 30 else 31
    (1 ≤ m.toNat → m.toNat ≤ 12 → y.toNat ≤ 99 →
      exec (.dateMax y m) s = .next { s with result := BitVec.ofNat 8 d, ok := true }) ∧
    (m.toNat < 1 ∨ 12 < m.toNat →
      exec (.dateMax y m) s = .next (raiseFault (commandWord (.dateMax y m)) ⟨.invalidMonth, 0x06, m⟩ s)) ∧
    (1 ≤ m.toNat → m.toNat ≤ 12 → 99 < y.toNat →
      exec (.dateMax y m) s = .next (raiseFault (commandWord (.dateMax y m)) ⟨.range, 0x07, y⟩ s))

/-- The leap rule on 0 to 99 is true exactly for the multiples of 4 (rule R128). -/
def Obligations.LeapYearsAreTheMultiplesOfFour : Prop :=
  (∀ y : Nat, leap y = true ↔ y % 4 = 0 ∧ (y % 100 ≠ 0 ∨ y % 400 = 0)) ∧
  ∀ y : Nat, y ≤ 99 → (leap y = true ↔ y % 4 = 0)

/-- ENCODE (rules R104, R127, R133): the packed byte of a value in range; else F_INVALID_FIELD or F_RANGE. -/
def Obligations.EncodePacksTheValue : Prop :=
  ∀ (a v : Byte) (s : State), Accepting s →
    (∀ f, fieldId f = a → rangeMinOf f ≤ v.toNat → v.toNat ≤ (if f = .date then 31 else (rangeMaxOf f).getD 0) →
      exec (.encode a v) s = .next { s with
        result := (match f with
          | .weekday => v
          | .format => v <<< 7
          | .ampm => v <<< 5
          | .seconds | .minutes | .hours24 | .hours12 | .date | .month | .year =>
            BitVec.ofNat 8 (v.toNat / 10 * 16 + v.toNat % 10))
        ok := true }) ∧
    (∀ f, fieldId f = a → (v.toNat < rangeMinOf f ∨ (if f = .date then 31 else (rangeMaxOf f).getD 0) < v.toNat) →
      exec (.encode a v) s = .next (raiseFault (commandWord (.encode a v)) ⟨.range, a, v⟩ s)) ∧
    (9 < a.toNat → exec (.encode a v) s = .next (raiseFault (commandWord (.encode a v)) ⟨.invalidField, 0xFF, a⟩ s))

/-- DECODE (rules R105, R107 to R125, R134, R136): total on the byte, by the field's masks. -/
def Obligations.DecodeUnpacksEveryByte : Prop :=
  ∀ (a p : Byte) (s : State), Accepting s →
    (∀ f, fieldId f = a →
      exec (.decode a p) s = .next { s with
        result := (match f with
          | .seconds | .minutes => (p &&& 0x0F) + ((p &&& 0x70) >>> 4) * 10
          | .hours24 | .date => (p &&& 0x0F) + ((p &&& 0x30) >>> 4) * 10
          | .hours12 | .month => (p &&& 0x0F) + ((p &&& 0x10) >>> 4) * 10
          | .year => (p &&& 0x0F) + ((p &&& 0xF0) >>> 4) * 10
          | .weekday => p &&& 0x07
          | .format => (p >>> 7) &&& 1
          | .ampm => (p >>> 5) &&& 1)
        ok := true }) ∧
    (9 < a.toNat → exec (.decode a p) s = .next (raiseFault (commandWord (.decode a p)) ⟨.invalidField, 0xFF, a⟩ s))

/-- What ENCODE packs, DECODE gives back, for every field and value in range (rule R135). -/
def Obligations.DecodeOfEncodedValueIsTheValue : Prop :=
  ∀ (f : Field) (v : Byte) (s : State), Accepting s → inRange f v = true →
    ∃ t u, exec (.encode (fieldId f) v) s = .next t ∧ exec (.decode (fieldId f) t.result) t = .next u ∧
      u.result = v ∧ u.fault = false

/-- The hours block packs and unpacks in both formats (rule R137). -/
def Obligations.HoursBlockRoundTrips : Prop :=
  (∀ h pm : Byte, 1 ≤ h.toNat → h.toNat ≤ 12 → pm = 0 ∨ pm = 1 → hoursUnpack (hoursPack h 1 pm) = (h, 1, pm)) ∧
  (∀ h pm : Byte, h.toNat ≤ 23 → hoursUnpack (hoursPack h 0 pm) = (h, 0, 0)) ∧
  hoursPack 11 1 1 = 0xB1

/-! ## Public operations -/

/-- The getters read one register and decode it; GET_HOURS by the requested format alone (rules R138, R139, R140). -/
def Obligations.GettersDecodeTheByteRead : Prop :=
  ∀ s : State,
    (Ready s →
      let m := s.cfg.addrMap
      let p := drawnByte s 0
      exec .getSeconds s = .next { afterRead (0x81 ||| (m.seconds.setWidth 8 <<< 1)) s with
        ok := true, result := (p &&& 0x0F) + ((p &&& 0x70) >>> 4) * 10 } ∧
      exec .getMinutes s = .next { afterRead (0x81 ||| (m.minutes.setWidth 8 <<< 1)) s with
        ok := true, result := (p &&& 0x0F) + ((p &&& 0x70) >>> 4) * 10 } ∧
      exec (.getHours true) s = .next { afterRead (0x81 ||| (m.hours.setWidth 8 <<< 1)) s with
        ok := true, result := (p &&& 0x0F) + ((p &&& 0x10) >>> 4) * 10 } ∧
      exec (.getHours false) s = .next { afterRead (0x81 ||| (m.hours.setWidth 8 <<< 1)) s with
        ok := true, result := (p &&& 0x0F) + ((p &&& 0x30) >>> 4) * 10 }) ∧
    (Accepting s → s.configured = false →
      TakesNotConfigured .getSeconds s ∧ TakesNotConfigured .getMinutes s ∧ ∀ h, TakesNotConfigured (.getHours h) s)

/-- SET_WP writes 0x80 or 0x00 to the write-protect register (rules R79, R141). -/
def Obligations.SetWpWritesTheProtectByte : Prop :=
  ∀ (p : Bool) (s : State),
    (Ready s → exec (.setWp p) s = .next
      { afterWrite (0x80 ||| (s.cfg.addrMap.wp.setWidth 8 <<< 1)) (if p then 0x80 else 0x00) s with ok := true }) ∧
    (Accepting s → s.configured = false → TakesNotConfigured (.setWp p) s)

/-- The null forms (rule R152): no event, no register written; OK is 1 for the aggregate, 0 for CONFIGURE. They need no
configuration (rule R151). -/
def Obligations.NullFormsOnlyWriteOk : Prop :=
  ∀ s : State, Accepting s →
    exec (.getDatetime false) s = .next { s with ok := true } ∧
    exec (.setDatetime false) s = .next { s with ok := true } ∧
    exec (.configure false) s = .next { s with ok := false }

/-- GET_DATETIME runs seven read transactions in the order of rule R57 and decodes each byte into DT (rules R137, R144);
RESULT stays. -/
def Obligations.GetDatetimeReadsSevenRegisters : Prop :=
  ∀ s : State, Ready s → ∃ t, exec (.getDatetime true) s = .next t ∧
    (let m := s.cfg.addrMap
     let d := fun k => drawnByte s (8 * k)
     t.dt = ⟨decField .seconds (d 6), decField .minutes (d 5), (hoursUnpack (d 4)).1, decField .weekday (d 3),
       decField .date (d 2), decField .month (d 1), decField .year (d 0), (hoursUnpack (d 4)).2.1,
       (hoursUnpack (d 4)).2.2⟩ ∧
     t.trace = s.trace ++
       (readEvents s.pins s.io.lvl (cmdRd m .year) (d 0) ++
        readEvents s.pins ((cmdRd m .year).getLsbD 7) (cmdRd m .month) (d 1) ++
        readEvents s.pins ((cmdRd m .month).getLsbD 7) (cmdRd m .date) (d 2) ++
        readEvents s.pins ((cmdRd m .date).getLsbD 7) (cmdRd m .weekday) (d 3) ++
        readEvents s.pins ((cmdRd m .weekday).getLsbD 7) (cmdRd m .hours) (d 4) ++
        readEvents s.pins ((cmdRd m .hours).getLsbD 7) (cmdRd m .minutes) (d 5) ++
        readEvents s.pins ((cmdRd m .minutes).getLsbD 7) (cmdRd m .seconds) (d 6)) ∧
     t = { s with
       dt := t.dt, trace := t.trace, ok := true, busState := .idle, bitIdx := 7, shift := cmdRd m .seconds, acc := d 6,
       sampled := draw s 55, ce := { s.ce with lvl := false }, sclk := { s.sclk with lvl := false },
       io := ⟨some .floating, (cmdRd m .seconds).getLsbD 7⟩, samples := s.samples.drop 56, drawn := s.drawn + 56 })

/-- The aggregate is valid: the checks of rule R143 all pass. -/
def ValidDateTime (d : DateTime) : Prop :=
  d.year.toNat ≤ 99 ∧ (1 ≤ d.mon.toNat ∧ d.mon.toNat ≤ 12) ∧
  (1 ≤ d.date.toNat ∧ ∃ n, daysInMonth d.year.toNat d.mon.toNat = some n ∧ d.date.toNat ≤ n) ∧
  (1 ≤ d.wday.toNat ∧ d.wday.toNat ≤ 7) ∧ (d.fmt = 0 ∨ d.fmt = 1) ∧
  (d.fmt = 0 → d.hour.toNat ≤ 23) ∧ (d.fmt = 1 → 1 ≤ d.hour.toNat ∧ d.hour.toNat ≤ 12) ∧
  (d.fmt = 1 → d.pm = 0 ∨ d.pm = 1) ∧ d.min.toNat ≤ 59 ∧ d.sec.toNat ≤ 59

/-- SET_DATETIME on a valid aggregate runs seven write transactions, seconds last (rules R57, R145); DT stays. -/
def Obligations.SetDatetimeWritesSevenRegisters : Prop :=
  ∀ s : State, Ready s → ValidDateTime s.dt → ∃ t, exec (.setDatetime true) s = .next t ∧
    (let m := s.cfg.addrMap
     let hour := hoursPack s.dt.hour s.dt.fmt s.dt.pm
     t.trace = s.trace ++
       (writeEvents s.pins s.io.lvl (cmdWr m .year) (encField .year s.dt.year) ++
        writeEvents s.pins ((encField .year s.dt.year).getLsbD 7) (cmdWr m .month) (encField .month s.dt.mon) ++
        writeEvents s.pins ((encField .month s.dt.mon).getLsbD 7) (cmdWr m .date) (encField .date s.dt.date) ++
        writeEvents s.pins ((encField .date s.dt.date).getLsbD 7) (cmdWr m .weekday) (encField .weekday s.dt.wday) ++
        writeEvents s.pins ((encField .weekday s.dt.wday).getLsbD 7) (cmdWr m .hours) hour ++
        writeEvents s.pins (hour.getLsbD 7) (cmdWr m .minutes) (encField .minutes s.dt.min) ++
        writeEvents s.pins ((encField .minutes s.dt.min).getLsbD 7) (cmdWr m .seconds) (encField .seconds s.dt.sec)) ∧
     t = { s with
       trace := t.trace, ok := true, busState := .idle, bitIdx := 7, shift := encField .seconds s.dt.sec,
       ce := { s.ce with lvl := false }, sclk := { s.sclk with lvl := false },
       io := ⟨some .output, (encField .seconds s.dt.sec).getLsbD 7⟩ })

/-- The first failing check of rule R143, in its order, is the one SET_DATETIME reports; then nothing is written. -/
def Obligations.SetDatetimeReportsTheFirstBadField : Prop :=
  ∀ s : State, Accepting s → s.configured = true →
    let d := s.dt
    let bad := fun (f v : Byte) => exec (.setDatetime true) s = .next { s with
      cause := .range, fault := true, faultInfo := commandWord (.setDatetime true), ok := false
      faultArg := (f.setWidth 16 <<< 8) ||| v.setWidth 16 }
    if 99 < d.year.toNat then bad 7 d.year
    else if d.mon.toNat < 1 ∨ 12 < d.mon.toNat then bad 6 d.mon
    else if d.date.toNat < 1 ∨ (daysInMonth d.year.toNat d.mon.toNat).getD 0 < d.date.toNat then bad 5 d.date
    else if d.wday.toNat < 1 ∨ 7 < d.wday.toNat then bad 4 d.wday
    else if d.fmt ≠ 0 ∧ d.fmt ≠ 1 then bad 8 d.fmt
    else if d.fmt = 0 ∧ 23 < d.hour.toNat then bad 2 d.hour
    else if d.fmt = 1 ∧ (d.hour.toNat < 1 ∨ 12 < d.hour.toNat) then bad 3 d.hour
    else if d.fmt = 1 ∧ d.pm ≠ 0 ∧ d.pm ≠ 1 then bad 9 d.pm
    else if 59 < d.min.toNat then bad 1 d.min
    else if 59 < d.sec.toNat then bad 0 d.sec
    else ValidDateTime d

/-- CONFIGURE copies PINCFG to PINS, makes the three lines outputs driven low in the order clock, data, chip-enable, and
sets CONFIGURED; it needs no prior configuration, and with P = 0 it only sets OK to 0 (rule R146). -/
def Obligations.ConfigureTakesTheLines : Prop :=
  ∀ s : State, Accepting s →
    exec (.configure false) s = .next { s with ok := false } ∧ exec (.configure true) s = .next { s with
    pins := s.pincfg, configured := true, busState := .idle, ok := true,
    ce := ⟨some .output, false⟩, sclk := ⟨some .output, false⟩, io := ⟨some .output, false⟩
    trace := s.trace ++
      [.setOut .sclk (s.pincfg.extractLsb' 0 8) s.sclk.lvl, .drive .sclk (s.pincfg.extractLsb' 0 8) false,
       .setOut .io (s.pincfg.extractLsb' 8 8) s.io.lvl, .drive .io (s.pincfg.extractLsb' 8 8) false,
       .setOut .ce (s.pincfg.extractLsb' 16 8) s.ce.lvl, .drive .ce (s.pincfg.extractLsb' 16 8) false] }

/-- Instructions one after another. -/
def execAll : List Instr → State → Result
  | [], s => .next s
  | i :: is, s => andThen (exec i s) (execAll is)

/-- A line the new assignment does not name keeps what it was last driven to, through a CONFIGURE and every later
instruction but another CONFIGURE: no later event reaches it (rule R169). -/
def Obligations.OldLinesKeepTheirLevels : Prop :=
  ∀ (s t u : State) (is : List Instr) (p : PinId), s.running = none → exec (.configure true) s = .next t →
    t.fault = false → (∀ r, rolePin s.pincfg r ≠ p) → (∀ i ∈ is, i ≠ .configure true) → execAll is t = .next u →
    lineNow t.trace p = lineNow s.trace p ∧ lineNow u.trace p = lineNow s.trace p

/-! ## Host access -/

/-- STATUS has its fields where rule R19 puts them; every other bit reads 0. -/
def Obligations.StatusWordHoldsItsFields : Prop :=
  ∀ s : State,
    (statusWord s).getLsbD 0 = s.running.isSome ∧ (statusWord s).getLsbD 1 = s.configured ∧
    (statusWord s).getLsbD 2 = s.fault ∧ (statusWord s).getLsbD 3 = s.ok ∧
    (statusWord s).extractLsb' 4 3 = (match s.busState with
      | .idle => (0 : BitVec 3)
      | .reset => 1
      | .cmd => 2
      | .started => 3
      | .xfer => 4) ∧
    (statusWord s).getLsbD 7 = false ∧ (statusWord s).extractLsb' 8 3 = s.bitIdx ∧
    (statusWord s).extractLsb' 11 5 = 0 ∧
    (statusWord s).extractLsb' 16 8 = (match s.cause with
      | .none => (0 : Byte)
      | .illegalOp => 1
      | .notConfigured => 2
      | .invalidField => 3
      | .invalidMonth => 4
      | .range => 5) ∧
    (statusWord s).extractLsb' 24 8 = 0

/-- A host read returns the register of the table of rule R17 at once, also while BUSY = 1 (rule R40), and changes
nothing else (rule R54). -/
def Obligations.HostReadsReturnRegisters : Prop :=
  ∀ (s : State) (off : Nat) (v : Word) (rest : List Action), s.agenda = .read off 4 :: rest →
    ((off = 0x00 ∧ v = 0) ∨ (off = 0x04 ∧ v = statusWord s) ∨ (off = 0x08 ∧ v = s.result.setWidth 32) ∨
      (off = 0x0C ∧ v = s.faultInfo) ∨ (off = 0x10 ∧ v = s.faultArg.setWidth 32) ∨
      (off = 0x14 ∧ v = s.pincfg.setWidth 32) ∨ (off = 0x18 ∧ v = s.pins.setWidth 32) ∨
      (off = 0x20 ∧ v = s.dt.sec.setWidth 32) ∨ (off = 0x24 ∧ v = s.dt.min.setWidth 32) ∨
      (off = 0x28 ∧ v = s.dt.hour.setWidth 32) ∨ (off = 0x2C ∧ v = s.dt.wday.setWidth 32) ∨
      (off = 0x30 ∧ v = s.dt.date.setWidth 32) ∨ (off = 0x34 ∧ v = s.dt.mon.setWidth 32) ∨
      (off = 0x38 ∧ v = s.dt.year.setWidth 32) ∨ (off = 0x3C ∧ v = s.dt.fmt.setWidth 32) ∨
      (off = 0x40 ∧ v = s.dt.pm.setWidth 32)) →
    step s = .next { s with agenda := rest, reads := s.reads ++ [v] }

/-- A host write on an idle block: PINCFG and the DT registers take the bits they use and nothing else changes; a
read-only register ignores it (rules R17, R23, R25). -/
def Obligations.HostWritesReachWritableRegisters : Prop :=
  ∀ (s : State) (off : Nat) (v : Word) (rest : List Action), s.running = none → s.agenda = .write off 4 v :: rest →
    let b : Byte := v.extractLsb' 0 8
    let t := { s with agenda := rest }
    (off = 0x04 ∨ off = 0x08 ∨ off = 0x0C ∨ off = 0x10 ∨ off = 0x18 → step s = .next t) ∧
    (off = 0x14 → step s = .next { t with pincfg := v.extractLsb' 0 24 }) ∧
    (off = 0x20 → step s = .next { t with dt := { s.dt with sec := b } }) ∧
    (off = 0x24 → step s = .next { t with dt := { s.dt with min := b } }) ∧
    (off = 0x28 → step s = .next { t with dt := { s.dt with hour := b } }) ∧
    (off = 0x2C → step s = .next { t with dt := { s.dt with wday := b } }) ∧
    (off = 0x30 → step s = .next { t with dt := { s.dt with date := b } }) ∧
    (off = 0x34 → step s = .next { t with dt := { s.dt with mon := b } }) ∧
    (off = 0x38 → step s = .next { t with dt := { s.dt with year := b } }) ∧
    (off = 0x3C → step s = .next { t with dt := { s.dt with fmt := b } }) ∧
    (off = 0x40 → step s = .next { t with dt := { s.dt with pm := b } })

/-! ## Platform and assembler -/

/-- A step of one block of a platform leaves the others as they were (rules R10, R158). It does not say that two blocks draw
different levels: past their queues all read the model's one free value (log 21). -/
def Obligations.StepLeavesOtherInstances : Prop :=
  ∀ (p q : Platform) (k j : Nat), stepBlock k p = .next q → j ≠ k →
    q.blocks[j]? = p.blocks[j]? ∧ q.blocks.length = p.blocks.length

/-- Every line of the assembler syntax is the command word of its instruction (rule R83). -/
def Obligations.AssembledLineDecodes : Prop :=
  ∀ l : AsmLine, decodeWord (assemble l) = .ok (lineInstr l)

/-- The command bytes: the pattern of rule R68 for every map, and the bytes of rule R44 under the default one. -/
def Obligations.CommandBytesFollowTheAddressMap : Prop :=
  (∀ (m : AddrMap) (r : DevReg),
    (cmdRd m r).extractLsb' 4 4 = 0b1000 ∧ (cmdRd m r).extractLsb' 1 3 = m.num r ∧ (cmdRd m r).getLsbD 0 = true ∧
    (cmdWr m r).extractLsb' 4 4 = 0b1000 ∧ (cmdWr m r).extractLsb' 1 3 = m.num r ∧ (cmdWr m r).getLsbD 0 = false) ∧
  [DevReg.seconds, .minutes, .hours, .date, .month, .weekday, .year, .wp].map
      (fun r => (cmdWr .default r, cmdRd .default r)) =
    [(0x80, 0x81), (0x82, 0x83), (0x84, 0x85), (0x86, 0x87), (0x88, 0x89), (0x8A, 0x8B), (0x8C, 0x8D), (0x8E, 0x8F)]
end

