-- ==== Sys2Proof/Laws/Encoding.lean ====
section
/-! SUPPORT. The fields of a packed command word, and the bytes of a word. -/

namespace Sys2Proof

section fields
variable (op a b : Byte) (p : Bool)

@[simp] theorem wordOp_packWord : wordOp (packWord op a b p) = op := by
  apply BitVec.eq_of_getLsbD_eq
  intro i hi
  interval_cases i <;> cases p <;> simp [wordOp, packWord, byteAt]

@[simp] theorem wordA_packWord : wordA (packWord op a b p) = a := by
  apply BitVec.eq_of_getLsbD_eq
  intro i hi
  interval_cases i <;> cases p <;> simp [wordA, packWord, byteAt]

@[simp] theorem wordB_packWord : wordB (packWord op a b p) = b := by
  apply BitVec.eq_of_getLsbD_eq
  intro i hi
  interval_cases i <;> cases p <;> simp [wordB, packWord, byteAt]

@[simp] theorem wordRsv_packWord : wordRsv (packWord op a b p) = 0 := by
  apply BitVec.eq_of_getLsbD_eq
  intro i hi
  interval_cases i <;> cases p <;> simp [wordRsv, packWord, byteAt]

@[simp] theorem wordP_packWord : wordP (packWord op a b p) = p := by
  cases p <;> simp [wordP, packWord, byteAt]

@[simp] theorem wordFields_packWord : wordFields (packWord op a b p) = ⟨op, a, b, 0, p⟩ := by
  simp [wordFields]

end fields

/-- A word with RSV = 0 is its fields packed again. -/
theorem packWord_fields {w : Word} (h : wordRsv w = 0) : packWord (wordOp w) (wordA w) (wordB w) (wordP w) = w := by
  have hr : ∀ k < 7, w.getLsbD (1 + k) = false := by
    intro k hk
    have := congrArg (fun v : BitVec 7 => v.getLsbD k) h
    simpa [wordRsv, hk] using this
  have h1 := hr 0 (by omega)
  have h2 := hr 1 (by omega)
  have h3 := hr 2 (by omega)
  have h4 := hr 3 (by omega)
  have h5 := hr 4 (by omega)
  have h6 := hr 5 (by omega)
  have h7 := hr 6 (by omega)
  clear hr
  apply BitVec.eq_of_getLsbD_eq
  intro i hi
  cases hp : w.getLsbD 0 <;> interval_cases i <;>
    simp_all [wordOp, wordA, wordB, wordP, packWord, byteAt]

/-- The bytes of a word spell it again. -/
@[simp] theorem wordOfBytes_bytes (w : Word) :
    wordOfBytes (w.extractLsb' 0 8) (w.extractLsb' 8 8) (w.extractLsb' 16 8) (w.extractLsb' 24 8) = w := by
  apply BitVec.eq_of_getLsbD_eq
  intro i hi
  interval_cases i <;> simp [wordOfBytes, byteAt]

/-- Decoding the bytes of a word is decoding the word. -/
theorem decode_bytesOfWord (w : Word) : decode (bytesOfWord w) = decodeWord w := by
  simp [decode, bytesOfWord]

end Sys2Proof
end

