-- ==== Sys2Proof/Laws/State.lean ====
section
/-! SUPPORT. One lemma per field per shared update of the state, true by rfl: later proofs need not unfold a record
update. -/

namespace Sys2Proof.Machine

/-! ## An event -/

@[simp] theorem emit_cfg (e : Event) (s : State) : (emit e s).cfg = s.cfg := rfl
@[simp] theorem emit_configured (e : Event) (s : State) : (emit e s).configured = s.configured := rfl
@[simp] theorem emit_fault (e : Event) (s : State) : (emit e s).fault = s.fault := rfl
@[simp] theorem emit_ok (e : Event) (s : State) : (emit e s).ok = s.ok := rfl
@[simp] theorem emit_busState (e : Event) (s : State) : (emit e s).busState = s.busState := rfl
@[simp] theorem emit_bitIdx (e : Event) (s : State) : (emit e s).bitIdx = s.bitIdx := rfl
@[simp] theorem emit_cause (e : Event) (s : State) : (emit e s).cause = s.cause := rfl
@[simp] theorem emit_result (e : Event) (s : State) : (emit e s).result = s.result := rfl
@[simp] theorem emit_faultInfo (e : Event) (s : State) : (emit e s).faultInfo = s.faultInfo := rfl
@[simp] theorem emit_faultArg (e : Event) (s : State) : (emit e s).faultArg = s.faultArg := rfl
@[simp] theorem emit_pincfg (e : Event) (s : State) : (emit e s).pincfg = s.pincfg := rfl
@[simp] theorem emit_pins (e : Event) (s : State) : (emit e s).pins = s.pins := rfl
@[simp] theorem emit_dt (e : Event) (s : State) : (emit e s).dt = s.dt := rfl
@[simp] theorem emit_shift (e : Event) (s : State) : (emit e s).shift = s.shift := rfl
@[simp] theorem emit_acc (e : Event) (s : State) : (emit e s).acc = s.acc := rfl
@[simp] theorem emit_sampled (e : Event) (s : State) : (emit e s).sampled = s.sampled := rfl
@[simp] theorem emit_running (e : Event) (s : State) : (emit e s).running = s.running.map fun r => { r with pos := r.pos + 1 } := rfl
@[simp] theorem emit_ce (e : Event) (s : State) : (emit e s).ce = s.ce := rfl
@[simp] theorem emit_sclk (e : Event) (s : State) : (emit e s).sclk = s.sclk := rfl
@[simp] theorem emit_io (e : Event) (s : State) : (emit e s).io = s.io := rfl
@[simp] theorem emit_agenda (e : Event) (s : State) : (emit e s).agenda = s.agenda := rfl
@[simp] theorem emit_samples (e : Event) (s : State) : (emit e s).samples = s.samples := rfl
@[simp] theorem emit_drawn (e : Event) (s : State) : (emit e s).drawn = s.drawn := rfl
@[simp] theorem emit_trace (e : Event) (s : State) : (emit e s).trace = s.trace ++ [e] := rfl
@[simp] theorem emit_reads (e : Event) (s : State) : (emit e s).reads = s.reads := rfl

/-! ## An operation begins -/

@[simp] theorem beginOp_cfg (w : Word) (body : List Micro) (s : State) : (beginOp w body s).cfg = s.cfg := rfl
@[simp] theorem beginOp_configured (w : Word) (body : List Micro) (s : State) : (beginOp w body s).configured = s.configured := rfl
@[simp] theorem beginOp_fault (w : Word) (body : List Micro) (s : State) : (beginOp w body s).fault = s.fault := rfl
@[simp] theorem beginOp_ok (w : Word) (body : List Micro) (s : State) : (beginOp w body s).ok = s.ok := rfl
@[simp] theorem beginOp_busState (w : Word) (body : List Micro) (s : State) : (beginOp w body s).busState = s.busState := rfl
@[simp] theorem beginOp_bitIdx (w : Word) (body : List Micro) (s : State) : (beginOp w body s).bitIdx = s.bitIdx := rfl
@[simp] theorem beginOp_cause (w : Word) (body : List Micro) (s : State) : (beginOp w body s).cause = s.cause := rfl
@[simp] theorem beginOp_result (w : Word) (body : List Micro) (s : State) : (beginOp w body s).result = s.result := rfl
@[simp] theorem beginOp_faultInfo (w : Word) (body : List Micro) (s : State) : (beginOp w body s).faultInfo = s.faultInfo := rfl
@[simp] theorem beginOp_faultArg (w : Word) (body : List Micro) (s : State) : (beginOp w body s).faultArg = s.faultArg := rfl
@[simp] theorem beginOp_pincfg (w : Word) (body : List Micro) (s : State) : (beginOp w body s).pincfg = s.pincfg := rfl
@[simp] theorem beginOp_pins (w : Word) (body : List Micro) (s : State) : (beginOp w body s).pins = s.pins := rfl
@[simp] theorem beginOp_dt (w : Word) (body : List Micro) (s : State) : (beginOp w body s).dt = s.dt := rfl
@[simp] theorem beginOp_shift (w : Word) (body : List Micro) (s : State) : (beginOp w body s).shift = s.shift := rfl
@[simp] theorem beginOp_acc (w : Word) (body : List Micro) (s : State) : (beginOp w body s).acc = s.acc := rfl
@[simp] theorem beginOp_sampled (w : Word) (body : List Micro) (s : State) : (beginOp w body s).sampled = s.sampled := rfl
@[simp] theorem beginOp_running (w : Word) (body : List Micro) (s : State) : (beginOp w body s).running = some ⟨w, 0, body, none⟩ := rfl
@[simp] theorem beginOp_ce (w : Word) (body : List Micro) (s : State) : (beginOp w body s).ce = s.ce := rfl
@[simp] theorem beginOp_sclk (w : Word) (body : List Micro) (s : State) : (beginOp w body s).sclk = s.sclk := rfl
@[simp] theorem beginOp_io (w : Word) (body : List Micro) (s : State) : (beginOp w body s).io = s.io := rfl
@[simp] theorem beginOp_agenda (w : Word) (body : List Micro) (s : State) : (beginOp w body s).agenda = s.agenda := rfl
@[simp] theorem beginOp_samples (w : Word) (body : List Micro) (s : State) : (beginOp w body s).samples = s.samples := rfl
@[simp] theorem beginOp_drawn (w : Word) (body : List Micro) (s : State) : (beginOp w body s).drawn = s.drawn := rfl
@[simp] theorem beginOp_trace (w : Word) (body : List Micro) (s : State) : (beginOp w body s).trace = s.trace := rfl
@[simp] theorem beginOp_reads (w : Word) (body : List Micro) (s : State) : (beginOp w body s).reads = s.reads := rfl

/-! ## Taking a fault -/

@[simp] theorem raiseFault_cfg (w : Word) (f : FaultRec) (s : State) : (raiseFault w f s).cfg = s.cfg := rfl
@[simp] theorem raiseFault_configured (w : Word) (f : FaultRec) (s : State) : (raiseFault w f s).configured = s.configured := rfl
@[simp] theorem raiseFault_fault (w : Word) (f : FaultRec) (s : State) : (raiseFault w f s).fault = true := rfl
@[simp] theorem raiseFault_ok (w : Word) (f : FaultRec) (s : State) : (raiseFault w f s).ok = false := rfl
@[simp] theorem raiseFault_busState (w : Word) (f : FaultRec) (s : State) : (raiseFault w f s).busState = s.busState := rfl
@[simp] theorem raiseFault_bitIdx (w : Word) (f : FaultRec) (s : State) : (raiseFault w f s).bitIdx = s.bitIdx := rfl
@[simp] theorem raiseFault_cause (w : Word) (f : FaultRec) (s : State) : (raiseFault w f s).cause = f.cause := rfl
@[simp] theorem raiseFault_result (w : Word) (f : FaultRec) (s : State) : (raiseFault w f s).result = s.result := rfl
@[simp] theorem raiseFault_faultInfo (w : Word) (f : FaultRec) (s : State) : (raiseFault w f s).faultInfo = w := rfl
@[simp] theorem raiseFault_faultArg (w : Word) (f : FaultRec) (s : State) : (raiseFault w f s).faultArg = faultArgOf f := rfl
@[simp] theorem raiseFault_pincfg (w : Word) (f : FaultRec) (s : State) : (raiseFault w f s).pincfg = s.pincfg := rfl
@[simp] theorem raiseFault_pins (w : Word) (f : FaultRec) (s : State) : (raiseFault w f s).pins = s.pins := rfl
@[simp] theorem raiseFault_dt (w : Word) (f : FaultRec) (s : State) : (raiseFault w f s).dt = s.dt := rfl
@[simp] theorem raiseFault_shift (w : Word) (f : FaultRec) (s : State) : (raiseFault w f s).shift = s.shift := rfl
@[simp] theorem raiseFault_acc (w : Word) (f : FaultRec) (s : State) : (raiseFault w f s).acc = s.acc := rfl
@[simp] theorem raiseFault_sampled (w : Word) (f : FaultRec) (s : State) : (raiseFault w f s).sampled = s.sampled := rfl
@[simp] theorem raiseFault_running (w : Word) (f : FaultRec) (s : State) : (raiseFault w f s).running = none := rfl
@[simp] theorem raiseFault_ce (w : Word) (f : FaultRec) (s : State) : (raiseFault w f s).ce = s.ce := rfl
@[simp] theorem raiseFault_sclk (w : Word) (f : FaultRec) (s : State) : (raiseFault w f s).sclk = s.sclk := rfl
@[simp] theorem raiseFault_io (w : Word) (f : FaultRec) (s : State) : (raiseFault w f s).io = s.io := rfl
@[simp] theorem raiseFault_agenda (w : Word) (f : FaultRec) (s : State) : (raiseFault w f s).agenda = s.agenda := rfl
@[simp] theorem raiseFault_samples (w : Word) (f : FaultRec) (s : State) : (raiseFault w f s).samples = s.samples := rfl
@[simp] theorem raiseFault_drawn (w : Word) (f : FaultRec) (s : State) : (raiseFault w f s).drawn = s.drawn := rfl
@[simp] theorem raiseFault_trace (w : Word) (f : FaultRec) (s : State) : (raiseFault w f s).trace = s.trace := rfl
@[simp] theorem raiseFault_reads (w : Word) (f : FaultRec) (s : State) : (raiseFault w f s).reads = s.reads := rfl

/-! ## A host read -/

@[simp] theorem logRead_cfg (v : Word) (s : State) : (logRead v s).cfg = s.cfg := rfl
@[simp] theorem logRead_configured (v : Word) (s : State) : (logRead v s).configured = s.configured := rfl
@[simp] theorem logRead_fault (v : Word) (s : State) : (logRead v s).fault = s.fault := rfl
@[simp] theorem logRead_ok (v : Word) (s : State) : (logRead v s).ok = s.ok := rfl
@[simp] theorem logRead_busState (v : Word) (s : State) : (logRead v s).busState = s.busState := rfl
@[simp] theorem logRead_bitIdx (v : Word) (s : State) : (logRead v s).bitIdx = s.bitIdx := rfl
@[simp] theorem logRead_cause (v : Word) (s : State) : (logRead v s).cause = s.cause := rfl
@[simp] theorem logRead_result (v : Word) (s : State) : (logRead v s).result = s.result := rfl
@[simp] theorem logRead_faultInfo (v : Word) (s : State) : (logRead v s).faultInfo = s.faultInfo := rfl
@[simp] theorem logRead_faultArg (v : Word) (s : State) : (logRead v s).faultArg = s.faultArg := rfl
@[simp] theorem logRead_pincfg (v : Word) (s : State) : (logRead v s).pincfg = s.pincfg := rfl
@[simp] theorem logRead_pins (v : Word) (s : State) : (logRead v s).pins = s.pins := rfl
@[simp] theorem logRead_dt (v : Word) (s : State) : (logRead v s).dt = s.dt := rfl
@[simp] theorem logRead_shift (v : Word) (s : State) : (logRead v s).shift = s.shift := rfl
@[simp] theorem logRead_acc (v : Word) (s : State) : (logRead v s).acc = s.acc := rfl
@[simp] theorem logRead_sampled (v : Word) (s : State) : (logRead v s).sampled = s.sampled := rfl
@[simp] theorem logRead_running (v : Word) (s : State) : (logRead v s).running = s.running := rfl
@[simp] theorem logRead_ce (v : Word) (s : State) : (logRead v s).ce = s.ce := rfl
@[simp] theorem logRead_sclk (v : Word) (s : State) : (logRead v s).sclk = s.sclk := rfl
@[simp] theorem logRead_io (v : Word) (s : State) : (logRead v s).io = s.io := rfl
@[simp] theorem logRead_agenda (v : Word) (s : State) : (logRead v s).agenda = s.agenda := rfl
@[simp] theorem logRead_samples (v : Word) (s : State) : (logRead v s).samples = s.samples := rfl
@[simp] theorem logRead_drawn (v : Word) (s : State) : (logRead v s).drawn = s.drawn := rfl
@[simp] theorem logRead_trace (v : Word) (s : State) : (logRead v s).trace = s.trace := rfl
@[simp] theorem logRead_reads (v : Word) (s : State) : (logRead v s).reads = s.reads ++ [v] := rfl

/-! ## Block reset -/

@[simp] theorem blockReset_cfg (s : State) : (blockReset s).cfg = s.cfg := rfl
@[simp] theorem blockReset_configured (s : State) : (blockReset s).configured = State.reset.configured := rfl
@[simp] theorem blockReset_fault (s : State) : (blockReset s).fault = State.reset.fault := rfl
@[simp] theorem blockReset_ok (s : State) : (blockReset s).ok = State.reset.ok := rfl
@[simp] theorem blockReset_busState (s : State) : (blockReset s).busState = State.reset.busState := rfl
@[simp] theorem blockReset_bitIdx (s : State) : (blockReset s).bitIdx = State.reset.bitIdx := rfl
@[simp] theorem blockReset_cause (s : State) : (blockReset s).cause = State.reset.cause := rfl
@[simp] theorem blockReset_result (s : State) : (blockReset s).result = State.reset.result := rfl
@[simp] theorem blockReset_faultInfo (s : State) : (blockReset s).faultInfo = State.reset.faultInfo := rfl
@[simp] theorem blockReset_faultArg (s : State) : (blockReset s).faultArg = State.reset.faultArg := rfl
@[simp] theorem blockReset_pincfg (s : State) : (blockReset s).pincfg = State.reset.pincfg := rfl
@[simp] theorem blockReset_pins (s : State) : (blockReset s).pins = State.reset.pins := rfl
@[simp] theorem blockReset_dt (s : State) : (blockReset s).dt = State.reset.dt := rfl
@[simp] theorem blockReset_shift (s : State) : (blockReset s).shift = State.reset.shift := rfl
@[simp] theorem blockReset_acc (s : State) : (blockReset s).acc = State.reset.acc := rfl
@[simp] theorem blockReset_sampled (s : State) : (blockReset s).sampled = State.reset.sampled := rfl
@[simp] theorem blockReset_running (s : State) : (blockReset s).running = State.reset.running := rfl
@[simp] theorem blockReset_ce (s : State) : (blockReset s).ce = State.reset.ce := rfl
@[simp] theorem blockReset_sclk (s : State) : (blockReset s).sclk = State.reset.sclk := rfl
@[simp] theorem blockReset_io (s : State) : (blockReset s).io = State.reset.io := rfl
@[simp] theorem blockReset_agenda (s : State) : (blockReset s).agenda = s.agenda := rfl
@[simp] theorem blockReset_samples (s : State) : (blockReset s).samples = s.samples := rfl
@[simp] theorem blockReset_drawn (s : State) : (blockReset s).drawn = s.drawn := rfl
@[simp] theorem blockReset_trace (s : State) : (blockReset s).trace = s.trace ++ [.released] := rfl
@[simp] theorem blockReset_reads (s : State) : (blockReset s).reads = s.reads := rfl

/-! ## One pin written -/

@[simp] theorem getPin_setPin (s : State) (r : Role) (p : Pin) : getPin (setPin s r p) r = p := by cases r <;> rfl

theorem getPin_setPin_of_ne {r q : Role} (h : q ≠ r) (s : State) (p : Pin) :
    getPin (setPin s r p) q = getPin s q := by
  cases r <;> cases q <;> simp_all [getPin, setPin]

@[simp] theorem setPin_cfg (s : State) (r : Role) (p : Pin) : (setPin s r p).cfg = s.cfg := by cases r <;> rfl
@[simp] theorem setPin_configured (s : State) (r : Role) (p : Pin) : (setPin s r p).configured = s.configured := by cases r <;> rfl
@[simp] theorem setPin_fault (s : State) (r : Role) (p : Pin) : (setPin s r p).fault = s.fault := by cases r <;> rfl
@[simp] theorem setPin_ok (s : State) (r : Role) (p : Pin) : (setPin s r p).ok = s.ok := by cases r <;> rfl
@[simp] theorem setPin_busState (s : State) (r : Role) (p : Pin) : (setPin s r p).busState = s.busState := by cases r <;> rfl
@[simp] theorem setPin_bitIdx (s : State) (r : Role) (p : Pin) : (setPin s r p).bitIdx = s.bitIdx := by cases r <;> rfl
@[simp] theorem setPin_cause (s : State) (r : Role) (p : Pin) : (setPin s r p).cause = s.cause := by cases r <;> rfl
@[simp] theorem setPin_result (s : State) (r : Role) (p : Pin) : (setPin s r p).result = s.result := by cases r <;> rfl
@[simp] theorem setPin_faultInfo (s : State) (r : Role) (p : Pin) : (setPin s r p).faultInfo = s.faultInfo := by cases r <;> rfl
@[simp] theorem setPin_faultArg (s : State) (r : Role) (p : Pin) : (setPin s r p).faultArg = s.faultArg := by cases r <;> rfl
@[simp] theorem setPin_pincfg (s : State) (r : Role) (p : Pin) : (setPin s r p).pincfg = s.pincfg := by cases r <;> rfl
@[simp] theorem setPin_pins (s : State) (r : Role) (p : Pin) : (setPin s r p).pins = s.pins := by cases r <;> rfl
@[simp] theorem setPin_dt (s : State) (r : Role) (p : Pin) : (setPin s r p).dt = s.dt := by cases r <;> rfl
@[simp] theorem setPin_shift (s : State) (r : Role) (p : Pin) : (setPin s r p).shift = s.shift := by cases r <;> rfl
@[simp] theorem setPin_acc (s : State) (r : Role) (p : Pin) : (setPin s r p).acc = s.acc := by cases r <;> rfl
@[simp] theorem setPin_sampled (s : State) (r : Role) (p : Pin) : (setPin s r p).sampled = s.sampled := by cases r <;> rfl
@[simp] theorem setPin_running (s : State) (r : Role) (p : Pin) : (setPin s r p).running = s.running := by cases r <;> rfl
@[simp] theorem setPin_agenda (s : State) (r : Role) (p : Pin) : (setPin s r p).agenda = s.agenda := by cases r <;> rfl
@[simp] theorem setPin_samples (s : State) (r : Role) (p : Pin) : (setPin s r p).samples = s.samples := by cases r <;> rfl
@[simp] theorem setPin_drawn (s : State) (r : Role) (p : Pin) : (setPin s r p).drawn = s.drawn := by cases r <;> rfl
@[simp] theorem setPin_trace (s : State) (r : Role) (p : Pin) : (setPin s r p).trace = s.trace := by cases r <;> rfl
@[simp] theorem setPin_reads (s : State) (r : Role) (p : Pin) : (setPin s r p).reads = s.reads := by cases r <;> rfl

@[simp] theorem pinOf_setPin (s : State) (r q : Role) (p : Pin) : pinOf (setPin s r p) q = pinOf s q := by
  simp [pinOf]

@[simp] theorem pinOf_emit (e : Event) (s : State) (q : Role) : pinOf (emit e s) q = pinOf s q := rfl

@[simp] theorem getPin_emit (e : Event) (s : State) (q : Role) : getPin (emit e s) q = getPin s q := by cases q <;> rfl

end Sys2Proof.Machine
end

