-- ==== Sys2Proof/Laws/Ops.lean ====
section
/-! SUPPORT. What each shared operation can do, said once: sequencing, micro-steps, the procedures and transactions in
closed form. Proofs cite these instead of unfolding the operations. -/

namespace Sys2Proof.Machine

/-! ## Sequencing -/

@[simp] theorem andThen_next (s : State) (k : State → Result) : andThen (.next s) k = k s := rfl
@[simp] theorem andThen_fault (f : Fault) (k : State → Result) : andThen (.fault f) k = .fault f := rfl
@[simp] theorem andThen_refused (r : Refusal) (k : State → Result) : andThen (.refused r) k = .refused r := rfl

theorem andThen_assoc (o : Result) (k l : State → Result) :
    andThen (andThen o k) l = andThen o fun s => andThen (k s) l := by
  cases o <;> rfl

/-- A sequence that ends in a next state went through one. -/
theorem andThen_eq_next {o : Result} {k : State → Result} {t : State} (h : andThen o k = .next t) :
    ∃ s, o = .next s ∧ k s = .next t := by
  cases o with
  | next s => exact ⟨s, rfl, h⟩
  | fault f => cases h
  | refused r => cases h

@[simp] theorem runMicros_nil (s : State) : runMicros [] s = .next s := rfl

theorem runMicros_cons (m : Micro) (ms : List Micro) (s : State) :
    runMicros (m :: ms) s = andThen (perform m s) (runMicros ms) := rfl

theorem runMicros_append (ms ns : List Micro) (s : State) :
    runMicros (ms ++ ns) s = andThen (runMicros ms s) (runMicros ns) := by
  induction ms generalizing s with
  | nil => rfl
  | cons m ms ih =>
    simp only [List.cons_append, runMicros_cons, andThen_assoc]
    congr 1
    funext t
    exact ih t

theorem perform_of_pre {m : Micro} {s : State} (h : microPre m s = true) : perform m s = .next (microEffect m s) := by
  simp [perform, h]

/-- A micro-step that answers a next state met its precondition and had its effect. -/
theorem perform_eq_next {m : Micro} {s t : State} (h : perform m s = .next t) :
    microPre m s = true ∧ t = microEffect m s := by
  unfold perform at h
  split at h
  · rename_i hp
    injection h with h
    exact ⟨hp, h.symm⟩
  · cases h

/-- A micro-step that stops is an event whose precondition fails. -/
theorem perform_eq_fault {m : Micro} {s : State} {f : Fault} (h : perform m s = .fault f) :
    microPre m s = false ∧ f = .eventPrecondition m := by
  unfold perform at h
  split at h
  · cases h
  · rename_i hp
    injection h with h
    exact ⟨by simpa using hp, h.symm⟩

/-- A micro-step is never refused. -/
theorem perform_ne_refused (m : Micro) (s : State) (r : Refusal) : perform m s ≠ .refused r := by
  unfold perform
  split <;> simp

theorem runMicros_ne_refused (ms : List Micro) (s : State) (r : Refusal) : runMicros ms s ≠ .refused r := by
  induction ms generalizing s with
  | nil => simp
  | cons m ms ih =>
    rw [runMicros_cons]
    cases h : perform m s with
    | next t => exact ih t
    | fault f => simp
    | refused q => exact absurd h (perform_ne_refused m s q)

/-! ## What no micro-step changes -/

section frame
variable (m : Micro) (s : State)

theorem microEffect_frame :
    (microEffect m s).cfg = s.cfg ∧ (microEffect m s).fault = s.fault ∧ (microEffect m s).cause = s.cause ∧
    (microEffect m s).faultInfo = s.faultInfo ∧ (microEffect m s).faultArg = s.faultArg ∧
    (microEffect m s).pincfg = s.pincfg ∧ (microEffect m s).agenda = s.agenda ∧
    (microEffect m s).reads = s.reads := by
  cases m with
  | resultAcc f => cases f <;> simp [microEffect]
  | setDir r d => cases d <;> simp [microEffect, applySetDir]
  | _ => simp [microEffect, applyDrive, applySample, applyDelay]

@[simp] theorem microEffect_cfg : (microEffect m s).cfg = s.cfg := (microEffect_frame m s).1
@[simp] theorem microEffect_fault : (microEffect m s).fault = s.fault := (microEffect_frame m s).2.1
@[simp] theorem microEffect_cause : (microEffect m s).cause = s.cause := (microEffect_frame m s).2.2.1
@[simp] theorem microEffect_faultInfo : (microEffect m s).faultInfo = s.faultInfo := (microEffect_frame m s).2.2.2.1
@[simp] theorem microEffect_faultArg : (microEffect m s).faultArg = s.faultArg := (microEffect_frame m s).2.2.2.2.1
@[simp] theorem microEffect_pincfg : (microEffect m s).pincfg = s.pincfg := (microEffect_frame m s).2.2.2.2.2.1
@[simp] theorem microEffect_agenda : (microEffect m s).agenda = s.agenda := (microEffect_frame m s).2.2.2.2.2.2.1
@[simp] theorem microEffect_reads : (microEffect m s).reads = s.reads := (microEffect_frame m s).2.2.2.2.2.2.2

end frame

/-- A property of the state that every micro-step keeps holds after a run of micro-steps. -/
theorem runMicros_keeps {P : State → Prop} (hP : ∀ m s, microPre m s = true → P s → P (microEffect m s))
    {ms : List Micro} {s t : State} (h : runMicros ms s = .next t) (hs : P s) : P t := by
  induction ms generalizing s with
  | nil => cases h; exact hs
  | cons m ms ih =>
    obtain ⟨u, hu, ht⟩ := andThen_eq_next h
    obtain ⟨hp, rfl⟩ := perform_eq_next hu
    exact ih ht (hP m s hp hs)

/-! ## The life cycle -/

theorem finishRunning_idle {s : State} (h : s.running = none) : finishRunning s = .next s := by
  simp [finishRunning, h]

theorem finishRunning_running {s : State} {r : Running} (h : s.running = some r) :
    finishRunning s = andThen (runMicros r.todo s) fun t => .next { t with running := none } := by
  simp [finishRunning, h]

/-- Acceptance has exactly three outcomes: discarded, a fault taken, or the operation begun. -/
theorem acceptIdle_cases (w : Word) (plan : Plan) (s : State) :
    (s.fault = true ∧ acceptIdle w plan s = .next s) ∨
    (s.fault = false ∧ ∃ f, plan s = .error f ∧ acceptIdle w plan s = .next (raiseFault w f s)) ∨
    (s.fault = false ∧ ∃ body, plan s = .ok body ∧ acceptIdle w plan s = .next (beginOp w body s)) := by
  unfold acceptIdle
  cases hf : s.fault with
  | true => simp
  | false =>
    cases hp : plan s with
    | error f => simp
    | ok body => simp

theorem launchOp_idle (w : Word) (plan : Plan) {s : State} (h : s.running = none) :
    launchOp w plan s = acceptIdle w plan s := by
  simp [launchOp, finishRunning_idle h]

/-- Once the operation in progress has ended, a waiting one runs from there (rule R40). -/
theorem runOp_of_finishRunning (w : Word) (plan : Plan) {s t : State} (h : finishRunning s = .next t)
    (ht : t.running = none) : runOp w plan s = runOp w plan t := by
  simp [runOp, launchOp, h, finishRunning_idle ht]

/-- A faulted block discards an operation (rule R150). -/
theorem runOp_discarded (w : Word) (plan : Plan) {s : State} (hr : s.running = none) (hf : s.fault = true) :
    runOp w plan s = .next s := by
  simp [runOp, launchOp_idle _ _ hr, acceptIdle, hf, finishRunning_idle hr]

/-- An operation whose check fails takes its fault and does nothing else (rule R149). -/
theorem runOp_fault (w : Word) {plan : Plan} {s : State} {f : FaultRec} (hr : s.running = none) (hf : s.fault = false)
    (hp : plan s = .error f) : runOp w plan s = .next (raiseFault w f s) := by
  simp [runOp, launchOp_idle _ _ hr, acceptIdle, hf, hp, finishRunning_idle (s := raiseFault w f s) rfl]

/-- An operation whose checks pass runs its body from acceptance to BUSY = 0 (rule R89). -/
theorem runOp_body (w : Word) {plan : Plan} {s : State} {body : List Micro} (hr : s.running = none)
    (hf : s.fault = false) (hp : plan s = .ok body) :
    runOp w plan s =
      andThen (runMicros body (beginOp w body s)) fun t => .next { t with running := none } := by
  simp [runOp, launchOp_idle _ _ hr, acceptIdle, hf, hp, finishRunning]

theorem runMicros_okBody (body : List Micro) (s : State) :
    runMicros (okBody body) s = andThen (runMicros body s) fun t => .next { t with ok := true } := by
  rw [okBody, runMicros_append]
  rfl

/-! ## The procedures in closed form -/

/-- The delay timer is idle. -/
def TimerIdle (s : State) : Prop := ∀ r, s.running = some r → r.timer = none

/-- The micro-step position after n more events. -/
def advance (n : Nat) (s : State) : State :=
  { s with running := s.running.map fun r => { r with pos := r.pos + n } }

theorem timerIdle_beginOp (w : Word) (body : List Micro) (s : State) : TimerIdle (beginOp w body s) := by
  intro r hr
  simp at hr
  simp [← hr]

theorem timerIdle_congr {s t : State} (h : t.running = s.running) (ht : TimerIdle s) : TimerIdle t := by
  intro r hr
  exact ht r (h ▸ hr)

theorem timerIdle_advance {s : State} (n : Nat) (h : TimerIdle s) : TimerIdle (advance n s) := by
  intro r hr
  simp only [advance, Option.map_eq_some_iff] at hr
  obtain ⟨q, hq, rfl⟩ := hr
  exact h q hq

theorem applyDelay_of_timerIdle {s : State} (h : TimerIdle s) : applyDelay s = emit .delay s := by
  cases hr : s.running with
  | none => simp [applyDelay, hr, emit]
  | some r =>
    have := h r hr
    cases r
    simp_all [applyDelay, emit]

theorem advance_zero (s : State) : advance 0 s = s := by
  cases h : s.running <;> cases s <;> simp_all [advance]

end Sys2Proof.Machine
end

