-- ==== Sys2Proof/Laws/PerInstr.lean ====
section
/-! SUPPORT. Statements about every instruction as syntax, one lemma per constructor. -/

namespace Sys2Proof.Laws.CarrierLegal

/-- The command word that carries an instruction is a legal one (rules R65, R66, R84). -/
def Statement (i : Instr) : Prop := (wordFields (commandWord i)).wellFormed = true

/-- The row of an operation accepts fields whose reserved and unused ones are 0. -/
theorem of_row {i : Instr} {c : CommandFields} {r : OpRow} (hc : wordFields (commandWord i) = c)
    (hr : opRow? c.op = some r) (ha : r.accepts c = true) : Statement i := by
  simp [Statement, hc, CommandFields.wellFormed, hr, ha]

theorem busReset : Statement .busReset :=
  of_row (r := ⟨0x01, false, false, false⟩) (wordFields_packWord _ _ _ _) (by simp [opRow?, opRows]) (by simp [OpRow.accepts])

theorem busStart (c : Byte) : Statement (.busStart c) :=
  of_row (r := ⟨0x02, true, false, false⟩) (wordFields_packWord _ _ _ _) (by simp [opRow?, opRows]) (by simp [OpRow.accepts])

theorem busWriteByte (b : Byte) : Statement (.busWriteByte b) :=
  of_row (r := ⟨0x03, true, false, false⟩) (wordFields_packWord _ _ _ _) (by simp [opRow?, opRows]) (by simp [OpRow.accepts])

theorem busReadByte : Statement .busReadByte :=
  of_row (r := ⟨0x04, false, false, false⟩) (wordFields_packWord _ _ _ _) (by simp [opRow?, opRows]) (by simp [OpRow.accepts])

theorem writeReg (c v : Byte) : Statement (.writeReg c v) :=
  of_row (r := ⟨0x05, true, true, false⟩) (wordFields_packWord _ _ _ _) (by simp [opRow?, opRows]) (by simp [OpRow.accepts])

theorem readReg (c : Byte) : Statement (.readReg c) :=
  of_row (r := ⟨0x06, true, false, false⟩) (wordFields_packWord _ _ _ _) (by simp [opRow?, opRows]) (by simp [OpRow.accepts])

theorem getSeconds : Statement .getSeconds :=
  of_row (r := ⟨0x10, false, false, false⟩) (wordFields_packWord _ _ _ _) (by simp [opRow?, opRows]) (by simp [OpRow.accepts])

theorem getMinutes : Statement .getMinutes :=
  of_row (r := ⟨0x11, false, false, false⟩) (wordFields_packWord _ _ _ _) (by simp [opRow?, opRows]) (by simp [OpRow.accepts])

theorem getHours (p : Bool) : Statement (.getHours p) :=
  of_row (r := ⟨0x12, false, false, true⟩) (wordFields_packWord _ _ _ _) (by simp [opRow?, opRows]) (by simp [OpRow.accepts])

theorem rangeMin (f : Byte) : Statement (.rangeMin f) :=
  of_row (r := ⟨0x20, true, false, false⟩) (wordFields_packWord _ _ _ _) (by simp [opRow?, opRows]) (by simp [OpRow.accepts])

theorem rangeMax (f : Byte) : Statement (.rangeMax f) :=
  of_row (r := ⟨0x21, true, false, false⟩) (wordFields_packWord _ _ _ _) (by simp [opRow?, opRows]) (by simp [OpRow.accepts])

theorem dateMax (y m : Byte) : Statement (.dateMax y m) :=
  of_row (r := ⟨0x22, true, true, false⟩) (wordFields_packWord _ _ _ _) (by simp [opRow?, opRows]) (by simp [OpRow.accepts])

theorem encode (f v : Byte) : Statement (.encode f v) :=
  of_row (r := ⟨0x23, true, true, false⟩) (wordFields_packWord _ _ _ _) (by simp [opRow?, opRows]) (by simp [OpRow.accepts])

theorem decode (f p : Byte) : Statement (.decode f p) :=
  of_row (r := ⟨0x24, true, true, false⟩) (wordFields_packWord _ _ _ _) (by simp [opRow?, opRows]) (by simp [OpRow.accepts])

theorem setWp (p : Bool) : Statement (.setWp p) :=
  of_row (r := ⟨0x30, false, false, true⟩) (wordFields_packWord _ _ _ _) (by simp [opRow?, opRows]) (by simp [OpRow.accepts])

theorem getDatetime (p : Bool) : Statement (.getDatetime p) :=
  of_row (r := ⟨0x40, false, false, true⟩) (wordFields_packWord _ _ _ _) (by simp [opRow?, opRows]) (by simp [OpRow.accepts])

theorem setDatetime (p : Bool) : Statement (.setDatetime p) :=
  of_row (r := ⟨0x41, false, false, true⟩) (wordFields_packWord _ _ _ _) (by simp [opRow?, opRows]) (by simp [OpRow.accepts])

theorem configure (p : Bool) : Statement (.configure p) :=
  of_row (r := ⟨0x70, false, false, true⟩) (wordFields_packWord _ _ _ _) (by simp [opRow?, opRows]) (by simp [OpRow.accepts])

theorem wireWrSeconds (v : Byte) : Statement (.wireWrSeconds v) :=
  of_row (r := ⟨0x05, true, true, false⟩) (wordFields_packWord _ _ _ _) (by simp [opRow?, opRows]) (by simp [OpRow.accepts])

theorem wireRdSeconds : Statement .wireRdSeconds :=
  of_row (r := ⟨0x06, true, false, false⟩) (wordFields_packWord _ _ _ _) (by simp [opRow?, opRows]) (by simp [OpRow.accepts])

theorem wireWrMinutes (v : Byte) : Statement (.wireWrMinutes v) :=
  of_row (r := ⟨0x05, true, true, false⟩) (wordFields_packWord _ _ _ _) (by simp [opRow?, opRows]) (by simp [OpRow.accepts])

theorem wireRdMinutes : Statement .wireRdMinutes :=
  of_row (r := ⟨0x06, true, false, false⟩) (wordFields_packWord _ _ _ _) (by simp [opRow?, opRows]) (by simp [OpRow.accepts])

theorem wireWrHours (v : Byte) : Statement (.wireWrHours v) :=
  of_row (r := ⟨0x05, true, true, false⟩) (wordFields_packWord _ _ _ _) (by simp [opRow?, opRows]) (by simp [OpRow.accepts])

theorem wireRdHours : Statement .wireRdHours :=
  of_row (r := ⟨0x06, true, false, false⟩) (wordFields_packWord _ _ _ _) (by simp [opRow?, opRows]) (by simp [OpRow.accepts])

theorem wireWrDate (v : Byte) : Statement (.wireWrDate v) :=
  of_row (r := ⟨0x05, true, true, false⟩) (wordFields_packWord _ _ _ _) (by simp [opRow?, opRows]) (by simp [OpRow.accepts])

theorem wireRdDate : Statement .wireRdDate :=
  of_row (r := ⟨0x06, true, false, false⟩) (wordFields_packWord _ _ _ _) (by simp [opRow?, opRows]) (by simp [OpRow.accepts])

theorem wireWrMonth (v : Byte) : Statement (.wireWrMonth v) :=
  of_row (r := ⟨0x05, true, true, false⟩) (wordFields_packWord _ _ _ _) (by simp [opRow?, opRows]) (by simp [OpRow.accepts])

theorem wireRdMonth : Statement .wireRdMonth :=
  of_row (r := ⟨0x06, true, false, false⟩) (wordFields_packWord _ _ _ _) (by simp [opRow?, opRows]) (by simp [OpRow.accepts])

theorem wireWrWeekday (v : Byte) : Statement (.wireWrWeekday v) :=
  of_row (r := ⟨0x05, true, true, false⟩) (wordFields_packWord _ _ _ _) (by simp [opRow?, opRows]) (by simp [OpRow.accepts])

theorem wireRdWeekday : Statement .wireRdWeekday :=
  of_row (r := ⟨0x06, true, false, false⟩) (wordFields_packWord _ _ _ _) (by simp [opRow?, opRows]) (by simp [OpRow.accepts])

theorem wireWrYear (v : Byte) : Statement (.wireWrYear v) :=
  of_row (r := ⟨0x05, true, true, false⟩) (wordFields_packWord _ _ _ _) (by simp [opRow?, opRows]) (by simp [OpRow.accepts])

theorem wireRdYear : Statement .wireRdYear :=
  of_row (r := ⟨0x06, true, false, false⟩) (wordFields_packWord _ _ _ _) (by simp [opRow?, opRows]) (by simp [OpRow.accepts])

theorem wireWrWp (v : Byte) : Statement (.wireWrWp v) :=
  of_row (r := ⟨0x05, true, true, false⟩) (wordFields_packWord _ _ _ _) (by simp [opRow?, opRows]) (by simp [OpRow.accepts])

theorem wireRdWp : Statement .wireRdWp :=
  of_row (r := ⟨0x06, true, false, false⟩) (wordFields_packWord _ _ _ _) (by simp [opRow?, opRows]) (by simp [OpRow.accepts])

end Sys2Proof.Laws.CarrierLegal
end

