-- ==== Sys2Proof/Laws/Transactions.lean ====
section
/-! SUPPORT. The procedures and transactions of the bus in closed form: what one of them leaves, said once. -/

namespace Sys2Proof.Machine

/-- An idle timer, as a shape of the running operation. -/
theorem timerIdle_cases {s : State} (ht : TimerIdle s) :
    s.running = none ∨ ∃ w p l, s.running = some ⟨w, p, l, none⟩ := by
  cases h : s.running with
  | none => exact .inl rfl
  | some r =>
    obtain ⟨w, p, l, t⟩ := r
    have := ht _ h
    exact .inr ⟨w, p, l, by simp_all⟩

theorem advance_advance (a b : Nat) (s : State) : advance a (advance b s) = advance (b + a) s := by
  cases h : s.running <;> simp [advance, h, Nat.add_assoc]

/-- Clearing BUSY forgets the position. -/
@[simp] theorem advance_cleared (n : Nat) (s : State) :
    { advance n s with running := none } = { s with running := none } := rfl

/-- The lines a procedure drives without taking them: CE and SCLK are outputs. -/
abbrev DrivesCeSclk (s : State) : Prop := s.ce.dir = some .output ∧ s.sclk.dir = some .output

/-! ## Bit cells -/

/-- One bit cell out. -/
def afterCellOut (i : BitVec 3) (s : State) : State :=
  { s with
    bitIdx := i
    io := { s.io with lvl := s.shift.getLsbD i.toNat }
    sclk := { s.sclk with lvl := false }
    trace := s.trace ++ cellOutEvents s.pins (s.shift.getLsbD i.toNat) }

theorem runMicros_cellOut (i : BitVec 3) {s : State} (hc : s.sclk.dir = some .output) (hi : s.io.dir = some .output)
    (ht : TimerIdle s) : runMicros (cellOut i) s = .next (advance 6 (afterCellOut i s)) := by
  obtain h | ⟨w, p, l, h⟩ := timerIdle_cases ht <;>
    simp [cellOut, runMicros, perform, microPre, microEffect, applyDrive, applyDelay, emit, getPin, setPin, hc, hi, h,
      advance, afterCellOut, cellOutEvents, driveEvent, pinOf]

theorem runMicros_cellsOut (is : List (BitVec 3)) {s : State} (hc : s.sclk.dir = some .output)
    (hi : s.io.dir = some .output) (ht : TimerIdle s) :
    runMicros (is.flatMap cellOut) s =
      .next (advance (6 * is.length) (is.foldl (fun t i => afterCellOut i t) s)) := by
  induction is generalizing s with
  | nil => simp [advance_zero]
  | cons i is ih =>
    have comm : ∀ (l : List (BitVec 3)) (t : State), l.foldl (fun t i => afterCellOut i t) (advance 6 t) =
        advance 6 (l.foldl (fun t i => afterCellOut i t) t) := by
      intro l
      induction l with
      | nil => intro t; rfl
      | cons j l ihl => intro t; exact ihl (afterCellOut j t)
    rw [List.flatMap_cons, runMicros_append, runMicros_cellOut i hc hi ht, andThen_next,
      ih (s := advance 6 (afterCellOut i s)) hc hi (timerIdle_advance 6 (timerIdle_congr rfl ht)), comm,
      advance_advance]
    congr 2
    simp
    omega

/-- One bit cell in, the sample being the next draw. -/
def afterCellIn (i : BitVec 3) (s : State) : State :=
  { s with
    bitIdx := i
    sclk := { s.sclk with lvl := false }
    sampled := draw s 0
    samples := s.samples.drop 1
    drawn := s.drawn + 1
    acc := s.acc ||| bitAt (draw s 0) i
    trace := s.trace ++ cellInEvents s.pins (draw s 0) }

theorem runMicros_cellIn (i : BitVec 3) {s : State} (hc : s.sclk.dir = some .output) (hi : s.io.dir = some .floating)
    (ht : TimerIdle s) : runMicros (cellIn i) s = .next (advance 5 (afterCellIn i s)) := by
  obtain h | ⟨w, p, l, h⟩ := timerIdle_cases ht <;>
    simp [cellIn, runMicros, perform, microPre, microEffect, applyDrive, applyDelay, applySample, emit, getPin, setPin,
      hc, hi, h, advance, afterCellIn, cellInEvents, driveEvent, pinOf, draw]

theorem runMicros_cellsIn (is : List (BitVec 3)) {s : State} (hc : s.sclk.dir = some .output)
    (hi : s.io.dir = some .floating) (ht : TimerIdle s) :
    runMicros (is.flatMap cellIn) s =
      .next (advance (5 * is.length) (is.foldl (fun t i => afterCellIn i t) s)) := by
  induction is generalizing s with
  | nil => simp [advance_zero]
  | cons i is ih =>
    have comm : ∀ (l : List (BitVec 3)) (t : State), l.foldl (fun t i => afterCellIn i t) (advance 5 t) =
        advance 5 (l.foldl (fun t i => afterCellIn i t) t) := by
      intro l
      induction l with
      | nil => intro t; rfl
      | cons j l ihl => intro t; exact ihl (afterCellIn j t)
    rw [List.flatMap_cons, runMicros_append, runMicros_cellIn i hc hi ht, andThen_next,
      ih (s := advance 5 (afterCellIn i s)) hc hi (timerIdle_advance 5 (timerIdle_congr rfl ht)), comm,
      advance_advance]
    congr 2
    simp
    omega

/-- Draws after n samples are the later draws of before. -/
theorem draw_after (s : State) (n k : Nat) :
    draw { s with samples := s.samples.drop n, drawn := s.drawn + n } k = draw s (n + k) := by
  simp [draw, List.getElem?_drop, Nat.add_assoc]

/-- Eight bits or-ed into place one by one spell the byte (rule R93). -/
theorem assembled (b0 b1 b2 b3 b4 b5 b6 b7 : Bool) :
    (((((((((0 : Byte) ||| bitAt b0 0) ||| bitAt b1 1) ||| bitAt b2 2) ||| bitAt b3 3) ||| bitAt b4 4) ||| bitAt b5 5)
      ||| bitAt b6 6) ||| bitAt b7 7) = BitVec.ofBoolListLE [b0, b1, b2, b3, b4, b5, b6, b7] := by
  revert b0 b1 b2 b3 b4 b5 b6 b7
  decide

theorem ofBoolListLE_bits (b0 b1 b2 b3 b4 b5 b6 b7 : Bool) :
    cells.map (fun i => (BitVec.ofBoolListLE [b0, b1, b2, b3, b4, b5, b6, b7] : Byte).getLsbD i.toNat) =
      [b0, b1, b2, b3, b4, b5, b6, b7] := by
  revert b0 b1 b2 b3 b4 b5 b6 b7
  decide

/-- The bits of a drawn byte, in the order of the wire, are the draws (rules R47, R93). -/
theorem drawnByte_bits (s : State) : cells.map (fun i => (drawnByte s 0).getLsbD i.toNat) =
    [draw s 0, draw s 1, draw s 2, draw s 3, draw s 4, draw s 5, draw s 6, draw s 7] :=
  ofBoolListLE_bits _ _ _ _ _ _ _ _

/-! ## Procedures -/

theorem runMicros_procReset {s : State} (hl : DrivesCeSclk s) :
    runMicros procReset s = .next (advance 2 (afterReset s)) := by
  cases h : s.running <;>
    simp [procReset, runMicros, perform, microPre, microEffect, applyDrive, emit, getPin, setPin, hl.1, hl.2, h,
      advance, afterReset, resetEvents, driveEvent, pinOf]

/-- The eight cells of a shift-out, one after another. -/
theorem foldl_afterCellOut (s : State) :
    cells.foldl (fun t i => afterCellOut i t) s =
      { s with
        bitIdx := 7
        io := { s.io with lvl := s.shift.getLsbD 7 }
        sclk := { s.sclk with lvl := false }
        trace := s.trace ++ cells.flatMap fun i => cellOutEvents s.pins (s.shift.getLsbD i.toNat) } := by
  simp [cells, afterCellOut]

theorem runMicros_procShiftOut (src : ByteSrc) (phase : BusState) {s : State} (hcfg : s.configured = true)
    (hc : s.sclk.dir = some .output) (ht : TimerIdle s) :
    runMicros (procShiftOut src phase) s = .next (advance 49 (afterShiftOut (srcByte s src) s)) := by
  let u : State := { emit (.setOut .io (pinOf s .io) s.io.lvl) { s with io := ⟨some .output, s.io.lvl⟩ } with
    shift := srcByte s src, busState := phase }
  have head : runMicros [.setDir .io .output, .loadShift src, .setBus phase] s = .next u := by
    cases src <;>
      simp [runMicros, perform, microPre, microEffect, applySetDir, getPin, setPin, hcfg, u, emit, srcByte]
  have hu : TimerIdle u := by
    refine timerIdle_congr (s := advance 1 s) ?_ (timerIdle_advance 1 ht)
    simp [u, emit, advance]
  rw [procShiftOut, runMicros_append, runMicros_append, head, andThen_next,
    runMicros_cellsOut cells (s := u) hc rfl hu, foldl_afterCellOut]
  cases h : s.running <;>
    simp [runMicros, perform, microPre, microEffect, u, emit, h, advance, afterShiftOut, shiftOutEvents, settledBus,
      cells, pinOf, Nat.add_assoc]

theorem draw_afterCellIn (i : BitVec 3) (s : State) (k : Nat) : draw (afterCellIn i s) k = draw s (k + 1) := by
  simp [draw, afterCellIn, Nat.add_comm, Nat.add_left_comm]

/-- What a bit cell in leaves unchanged. -/
theorem afterCellIn_frame (i : BitVec 3) (s : State) :
    (afterCellIn i s).cfg = s.cfg ∧ (afterCellIn i s).configured = s.configured ∧
    (afterCellIn i s).fault = s.fault ∧ (afterCellIn i s).ok = s.ok ∧
    (afterCellIn i s).busState = s.busState ∧ (afterCellIn i s).cause = s.cause ∧
    (afterCellIn i s).result = s.result ∧ (afterCellIn i s).faultInfo = s.faultInfo ∧
    (afterCellIn i s).faultArg = s.faultArg ∧ (afterCellIn i s).pincfg = s.pincfg ∧
    (afterCellIn i s).pins = s.pins ∧ (afterCellIn i s).dt = s.dt ∧
    (afterCellIn i s).shift = s.shift ∧ (afterCellIn i s).running = s.running ∧
    (afterCellIn i s).ce = s.ce ∧ (afterCellIn i s).io = s.io ∧
    (afterCellIn i s).agenda = s.agenda ∧ (afterCellIn i s).reads = s.reads :=
  ⟨rfl, rfl, rfl, rfl, rfl, rfl, rfl, rfl, rfl, rfl, rfl, rfl, rfl, rfl, rfl, rfl, rfl, rfl⟩

/-- The eight cells of a shift-in, one after another. -/
theorem foldl_afterCellIn {s : State} (hacc : s.acc = 0) :
    cells.foldl (fun t i => afterCellIn i t) s =
      { s with
        bitIdx := 7
        sclk := { s.sclk with lvl := false }
        sampled := draw s 7
        samples := s.samples.drop 8
        drawn := s.drawn + 8
        acc := drawnByte s 0
        trace := s.trace ++ cells.flatMap fun i => cellInEvents s.pins ((drawnByte s 0).getLsbD i.toNat) } := by
  have hbits : cells.flatMap (fun i => cellInEvents s.pins ((drawnByte s 0).getLsbD i.toNat)) =
      [draw s 0, draw s 1, draw s 2, draw s 3, draw s 4, draw s 5, draw s 6, draw s 7].flatMap (cellInEvents s.pins) := by
    rw [← drawnByte_bits, List.flatMap_map]
  have hacc8 := assembled (draw s 0) (draw s 1) (draw s 2) (draw s 3) (draw s 4) (draw s 5) (draw s 6) (draw s 7)
  rw [hbits]
  simp only [cells, List.foldl_cons, List.foldl_nil]
  have hs : ∀ (i : BitVec 3) (t : State), (afterCellIn i t).sampled = draw t 0 := fun _ _ => rfl
  have ha : ∀ (i : BitVec 3) (t : State), (afterCellIn i t).acc = t.acc ||| bitAt (draw t 0) i := fun _ _ => rfl
  have htr : ∀ (i : BitVec 3) (t : State),
      (afterCellIn i t).trace = t.trace ++ cellInEvents t.pins (draw t 0) := fun _ _ => rfl
  have hp : ∀ (i : BitVec 3) (t : State), (afterCellIn i t).pins = t.pins := fun _ _ => rfl
  have hsm : ∀ (i : BitVec 3) (t : State), (afterCellIn i t).samples = t.samples.drop 1 := fun _ _ => rfl
  have hsc : ∀ (i : BitVec 3) (t : State), (afterCellIn i t).sclk = { t.sclk with lvl := false } := fun _ _ => rfl
  have hdr : ∀ (i : BitVec 3) (t : State), (afterCellIn i t).drawn = t.drawn + 1 := fun _ _ => rfl
  apply State.ext
  case acc => simpa [ha, draw_afterCellIn, hacc, drawnByte] using hacc8
  case trace => simp [htr, hp, draw_afterCellIn]
  case sampled => simp [hs, draw_afterCellIn]
  case samples => simp [hsm]
  case drawn => simp [hdr]
  case bitIdx => rfl
  case sclk => simp [hsc]
  all_goals simp [afterCellIn_frame]

theorem runMicros_procShiftIn {s : State} (hcfg : s.configured = true) (hc : s.sclk.dir = some .output)
    (ht : TimerIdle s) : runMicros procShiftIn s = .next (advance 41 (afterShiftIn s)) := by
  let u : State := { emit (.setIn .io (pinOf s .io)) { s with io := { s.io with dir := some .floating } } with
    acc := 0, busState := .xfer }
  have head : runMicros [.setDir .io .floating, .clearAcc, .setBus .xfer] s = .next u := by
    simp [runMicros, perform, microPre, microEffect, applySetDir, getPin, setPin, hcfg, u, emit]
  have hu : TimerIdle u := by
    refine timerIdle_congr (s := advance 1 s) ?_ (timerIdle_advance 1 ht)
    simp [u, emit, advance]
  have hd : ∀ k, draw u k = draw s k := fun k => rfl
  have hb : drawnByte u 0 = drawnByte s 0 := rfl
  rw [procShiftIn, runMicros_append, runMicros_append, head, andThen_next,
    runMicros_cellsIn cells (s := u) hc rfl hu, foldl_afterCellIn rfl, hd, hb]
  cases h : s.running <;>
    simp [runMicros, perform, microPre, microEffect, u, emit, h, advance, afterShiftIn, shiftInEvents, settledBus,
      cells, pinOf, Nat.add_assoc]

theorem runMicros_procStart (src : ByteSrc) {s : State} (hcfg : s.configured = true) (hl : DrivesCeSclk s)
    (ht : TimerIdle s) : runMicros (procStart src) s = .next (advance 53 (afterStart (srcByte s src) s)) := by
  let u : State := { advance 4 s with
    ce := { s.ce with lvl := true }
    busState := .reset
    trace := s.trace ++ [driveEvent s.pins .ce false, .delay, driveEvent s.pins .ce true, .delay] }
  have head : runMicros [.setBus .reset, .drive .ce false, .delay, .drive .ce true, .delay] s = .next u := by
    obtain h | ⟨w, p, l, h⟩ := timerIdle_cases ht <;>
      simp [runMicros, perform, microPre, microEffect, applyDrive, applyDelay, emit, getPin, setPin, hl.1, h, advance,
        u, driveEvent, pinOf]
  have hu : TimerIdle u := timerIdle_congr (s := advance 4 s) rfl (timerIdle_advance 4 ht)
  have hsrc : srcByte u src = srcByte s src := by cases src <;> rfl
  rw [procStart, runMicros_append, head, andThen_next, runMicros_procShiftOut src .cmd (s := u) hcfg hl.2 hu, hsrc]
  cases h : s.running <;>
    simp [u, h, advance, afterShiftOut, afterStart, startEvents, settledBus, Nat.add_assoc]

/-! ## Transactions -/

theorem runMicros_devWrite (cmd v : ByteSrc) {s : State} (hcfg : s.configured = true) (hl : DrivesCeSclk s)
    (ht : TimerIdle s) :
    runMicros (devWrite cmd v) s = .next (advance 104 (afterWrite (srcByte s cmd) (srcByte s v) s)) := by
  have h1 : TimerIdle (advance 53 (afterStart (srcByte s cmd) s)) :=
    timerIdle_congr (s := advance 53 s) rfl (timerIdle_advance 53 ht)
  have hsrc : srcByte (advance 53 (afterStart (srcByte s cmd) s)) v = srcByte s v := by cases v <;> rfl
  rw [devWrite, runMicros_append, runMicros_append, runMicros_procStart cmd hcfg hl ht, andThen_next,
    runMicros_procShiftOut v .xfer (s := advance 53 (afterStart (srcByte s cmd) s)) hcfg hl.2 h1, andThen_next, hsrc,
    runMicros_procReset (s := advance 49 (afterShiftOut (srcByte s v) (advance 53 (afterStart (srcByte s cmd) s))))
      ⟨hl.1, hl.2⟩]
  cases h : s.running <;>
    simp [h, advance, afterShiftOut, afterStart, afterReset, afterWrite, writeEvents, Nat.add_assoc]

theorem runMicros_devRead (cmd : ByteSrc) {s : State} (hcfg : s.configured = true) (hl : DrivesCeSclk s)
    (ht : TimerIdle s) :
    runMicros (devRead cmd) s = .next (advance 96 (afterRead (srcByte s cmd) s)) := by
  have h1 : TimerIdle (advance 53 (afterStart (srcByte s cmd) s)) :=
    timerIdle_congr (s := advance 53 s) rfl (timerIdle_advance 53 ht)
  rw [devRead, runMicros_append, runMicros_append, runMicros_procStart cmd hcfg hl ht, andThen_next,
    runMicros_procShiftIn (s := advance 53 (afterStart (srcByte s cmd) s)) hcfg hl.2 h1, andThen_next,
    runMicros_procReset (s := advance 41 (afterShiftIn (advance 53 (afterStart (srcByte s cmd) s)))) ⟨hl.1, hl.2⟩]
  cases h : s.running <;>
    simp [h, advance, afterShiftIn, afterStart, afterReset, afterRead, readEvents, drawnByte, draw, Nat.add_assoc]

end Sys2Proof.Machine
end

