-- ==== Sys2Proof/Laws/Phases.lean ====
section
/-! SUPPORT. BUS_STATE and BITIDX along a run (rules R30, R31): they follow from the two themselves and the level of CE, so
a run's phases are those of three small values. -/

namespace Sys2Proof.Machine

/-- All that BUS_STATE and BITIDX depend on. -/
structure PhaseView where
  bus : BusState
  bit : BitVec 3
  ceHigh : Bool
  deriving DecidableEq, Repr

/-- The part of a state that its phases depend on. -/
def phaseView (s : State) : PhaseView := ⟨s.busState, s.bitIdx, s.ce.lvl⟩

/-- What a micro-step does to it. -/
def PhaseView.next (m : Micro) (p : PhaseView) : PhaseView :=
  match m with
  | .drive .ce b => { p with ceHigh := b }
  | .setBus b => { p with bus := b }
  | .settleBus => { p with bus := bif p.ceHigh then .started else .idle }
  | .setBit i => { p with bit := i }
  | _ => p

theorem phaseView_microEffect (m : Micro) (s : State) : phaseView (microEffect m s) = (phaseView s).next m := by
  cases m with
  | drive r b => cases r <;> rfl
  | setDir r d => cases r <;> cases d <;> rfl
  | resultAcc f => cases f <;> rfl
  | _ => rfl

theorem phaseOf_eq (s : State) : phaseOf s = ((phaseView s).bus, (phaseView s).bit) := rfl

/-- The phases at the events of a run, from the phase view alone. -/
def PhaseView.events : List Micro → PhaseView → List Phase
  | [], _ => []
  | m :: ms, p => (if m.isEvent then [((p.next m).bus, (p.next m).bit)] else []) ++ PhaseView.events ms (p.next m)

theorem eventPhases_eq (ms : List Micro) (s : State) : eventPhases ms s = (phaseView s).events ms := by
  induction ms generalizing s with
  | nil => rfl
  | cons m ms ih => simp [eventPhases, PhaseView.events, ih, phaseOf_eq, phaseView_microEffect]

/-- The bus states of a run, from the phase view alone. -/
def PhaseView.states : List Micro → PhaseView → List BusState
  | [], _ => []
  | m :: ms, p => (p.next m).bus :: PhaseView.states ms (p.next m)

theorem busStates_eq (ms : List Micro) (s : State) : busStates ms s = (phaseView s).states ms := by
  induction ms generalizing s with
  | nil => rfl
  | cons m ms ih =>
    simp only [busStates, PhaseView.states, ih, phaseView_microEffect]
    rw [← phaseView_microEffect]
    rfl

/-- The phase view a run leaves. -/
theorem phaseView_runMicros {ms : List Micro} {s t : State} (h : runMicros ms s = .next t) :
    phaseView t = ms.foldl (fun p m => p.next m) (phaseView s) := by
  induction ms generalizing s with
  | nil => cases h; rfl
  | cons m ms ih =>
    obtain ⟨u, hu, h⟩ := andThen_eq_next h
    obtain ⟨-, rfl⟩ := perform_eq_next hu
    rw [ih h, phaseView_microEffect, List.foldl_cons]

end Sys2Proof.Machine
end

