-- ==== Sys2Proof/Laws/Simulation.lean ====
section
/-! SUPPORT. What a run of micro-steps does not look at: the agenda, the read log, and all of the running operation but its
OP. One lemma says that an instruction is its plan run under its command word. -/

namespace Sys2Proof.Machine

/-- Every instruction is its plan, run under its command word (rule R89). -/
theorem exec_eq_runOp (i : Instr) (s : State) : exec i s = runOp (commandWord i) (planOf i) s := by
  cases i <;> rfl

/-- What a micro-step looks at. -/
def view (s : State) : State :=
  { s with agenda := [], reads := [], running := s.running.map fun r => ⟨r.op, 0, [], none⟩ }

@[simp] theorem view_agenda (s : State) (a : List Action) : view { s with agenda := a } = view s := rfl
@[simp] theorem view_reads (s : State) (l : List Word) : view { s with reads := l } = view s := rfl
@[simp] theorem view_advance (n : Nat) (s : State) : view (advance n s) = view s := by
  simp [view, advance, Function.comp_def]

theorem view_running {s : State} {r : Running} (h : s.running = some r) (p : Nat) (l : List Micro) (t : Option Nat) :
    view { s with running := some ⟨r.op, p, l, t⟩ } = view s := by
  simp [view, h]

theorem withinConfigure_view (s : State) : withinConfigure (view s) = withinConfigure s := by
  cases h : s.running <;> simp [withinConfigure, view, h]

theorem microPre_view (m : Micro) (s : State) : microPre m (view s) = microPre m s := by
  cases m with
  | setDir r d => simp [microPre, withinConfigure_view]; rfl
  | drive r b => cases r <;> rfl
  | _ => rfl

theorem microEffect_view (m : Micro) (s : State) : view (microEffect m (view s)) = view (microEffect m s) := by
  cases m with
  | drive r b => cases r <;> simp [view, microEffect, applyDrive, emit, setPin, getPin, pinOf, Function.comp_def]
  | driveBit i => simp [view, microEffect, applyDrive, emit, setPin, getPin, pinOf, Function.comp_def]
  | setDir r d =>
    cases r <;> cases d <;>
      simp [view, microEffect, applySetDir, emit, setPin, getPin, pinOf, Function.comp_def]
  | sample => simp [view, microEffect, applySample, emit, pinOf, draw, Function.comp_def]
  | delay => simp [view, microEffect, applyDelay, emit, Function.comp_def]
  | resultAcc f => cases f <;> simp [view, microEffect, Function.comp_def]
  | settleBus =>
    simp [view, microEffect, settledBus, Function.comp_def]
  | loadShift b => cases b <;> simp [view, microEffect, srcByte, Function.comp_def]
  | _ => simp [view, microEffect, Function.comp_def]

/-- States that look alike run alike. -/
theorem runMicros_view {ms : List Micro} {s t s' : State} (hv : view s = view t) (h : runMicros ms s = .next s') :
    ∃ t', runMicros ms t = .next t' ∧ view s' = view t' := by
  induction ms generalizing s t with
  | nil => cases h; exact ⟨t, rfl, hv⟩
  | cons m ms ih =>
    obtain ⟨u, hu, h⟩ := andThen_eq_next h
    obtain ⟨hp, rfl⟩ := perform_eq_next hu
    have hpt : microPre m t = true := by rw [← microPre_view, ← hv, microPre_view, hp]
    have he : view (microEffect m s) = view (microEffect m t) := by
      rw [← microEffect_view, hv, microEffect_view]
    obtain ⟨t', ht', hvt⟩ := ih he h
    exact ⟨t', by rw [runMicros_cons, perform_of_pre hpt]; exact ht', hvt⟩

/-- The state in which an operation has ended is its view and what no micro-step looks at. -/
theorem cleared_eq_of_view {s t : State} (hv : view s = view t) (ha : s.agenda = t.agenda) (hr : s.reads = t.reads) :
    { s with running := none } = { t with running := none } := by
  have f := fun {α : Type} (g : State → α) => congrArg g hv
  apply State.ext
  case cfg => exact f State.cfg
  case configured => exact f State.configured
  case fault => exact f State.fault
  case ok => exact f State.ok
  case busState => exact f State.busState
  case bitIdx => exact f State.bitIdx
  case cause => exact f State.cause
  case result => exact f State.result
  case faultInfo => exact f State.faultInfo
  case faultArg => exact f State.faultArg
  case pincfg => exact f State.pincfg
  case pins => exact f State.pins
  case dt => exact f State.dt
  case shift => exact f State.shift
  case acc => exact f State.acc
  case sampled => exact f State.sampled
  case ce => exact f State.ce
  case sclk => exact f State.sclk
  case io => exact f State.io
  case samples => exact f State.samples
  case drawn => exact f State.drawn
  case trace => exact f State.trace
  case agenda => exact ha
  case reads => exact hr
  case running => rfl

/-- A property of the state that looks at the same as a micro-step does. -/
def ViewOnly (P : State → Prop) : Prop := ∀ s, P (view s) ↔ P s

theorem ViewOnly.congr {P : State → Prop} (hP : ViewOnly P) {s t : State} (hv : view s = view t) : P s ↔ P t := by
  rw [← hP s, hv, hP t]

theorem idleInv_viewOnly : ViewOnly IdleInv := fun _ => Iff.rfl

theorem idleInv_running (s : State) (r : Option Running) : IdleInv { s with running := r } ↔ IdleInv s := Iff.rfl

/-- Finishing leaves the block idle. -/
theorem finishRunning_idle_after {s t : State} (h : finishRunning s = .next t) : t.running = none := by
  cases hr : s.running with
  | none => rw [finishRunning_idle hr] at h; cases h; exact hr
  | some r =>
    rw [finishRunning_running hr] at h
    obtain ⟨u, _, h⟩ := andThen_eq_next h
    cases h
    rfl

theorem runMicros_frame {ms : List Micro} {s t : State} (h : runMicros ms s = .next t) :
    t.cfg = s.cfg ∧ t.fault = s.fault ∧ t.pincfg = s.pincfg ∧ t.agenda = s.agenda ∧ t.reads = s.reads :=
  runMicros_keeps (P := fun u => u.cfg = s.cfg ∧ u.fault = s.fault ∧ u.pincfg = s.pincfg ∧ u.agenda = s.agenda ∧
    u.reads = s.reads) (fun m u _ hu => by simpa using hu) h ⟨rfl, rfl, rfl, rfl, rfl⟩

/-! ## The life cycle in closed form -/

/-- The check of a line operation passes exactly on a configured block (rule R26). -/
theorem whenConfigured_ok {body b : List Micro} {s : State} (h : whenConfigured b s = .ok body) :
    s.configured = true ∧ body = b := by
  unfold whenConfigured at h
  split at h
  · rename_i hc
    injection h with h
    exact ⟨hc, h.symm⟩
  · cases h

/-- An accepted operation leaves what its body leaves, BUSY cleared. -/
theorem runOp_of_body (w : Word) {plan : Plan} {s t : State} {body : List Micro} (hA : Accepting s)
    (hp : plan s = .ok body)
    (hb : ∃ u, runMicros body (beginOp w body s) = .next u ∧ { u with running := none } = t) :
    runOp w plan s = .next t := by
  obtain ⟨u, hu, rfl⟩ := hb
  rw [runOp_body w hA.2 hA.1 hp, hu]
  rfl

/-- An operation whose body only writes a result. -/
theorem runOp_resultBody (w : Word) {plan : Plan} {n : Nat} {s : State} (hA : Accepting s)
    (hp : plan s = .ok (resultBody n)) :
    runOp w plan s = .next { s with result := BitVec.ofNat 8 n, ok := true } := by
  have hr := hA.2
  refine runOp_of_body w hA hp ⟨_, rfl, ?_⟩
  simp [microEffect, beginOp, hr]

/-- The body of CONFIGURE, within CONFIGURE (rule R146). -/
theorem runMicros_configure {s : State} (hw : withinConfigure s = true) :
    runMicros [.latchPins, .setDir .sclk .output, .drive .sclk false, .setDir .io .output, .drive .io false,
      .setDir .ce .output, .drive .ce false, .setConfigured, .setBus .idle, .setOk true] s =
      .next (advance 6 (afterConfigure s)) := by
  cases hr : s.running with
  | none => simp [withinConfigure, hr] at hw
  | some r =>
    have ho : (wordOp r.op == opConfigure) = true := by simpa [withinConfigure, hr] using hw
    simp [runMicros, perform, microPre, microEffect, applySetDir, applyDrive, emit, getPin, setPin, withinConfigure, hr,
      ho, pinOf, advance, afterConfigure, configureEvents, driveEvent]

/-! ## Micro-steps of the sequencer -/

theorem microTicks_add (m n : Nat) (s : State) : microTicks (m + n) s = andThen (microTicks m s) (microTicks n) := by
  induction m generalizing s with
  | zero => simp [microTicks]
  | succ m ih =>
    rw [Nat.add_right_comm, microTicks, microTicks, andThen_assoc]
    congr 1
    funext t
    exact ih t

/-- The delay timer counts down (rule R156). -/
theorem microTicks_countdown (n : Nat) {s : State} {r : Running} (hr : s.running = some r) {ms : List Micro}
    (ht : r.todo = .delay :: ms) (hn : r.timer = some n) :
    microTicks n s = .next { s with running := some { r with timer := some 0 } } := by
  induction n generalizing s r with
  | zero =>
    simp only [microTicks]
    rw [← hn, ← hr]
  | succ n ih =>
    have h1 : microTick s = .next { s with running := some { r with timer := some n } } := by
      simp [microTick, hr, ht, hn]
    rw [microTicks, h1, andThen_next, ih (r := { r with timer := some n }) rfl ht rfl]

/-- A micro-step keeps OP and what is still to do; a `Delay` leaves the timer idle. -/
theorem microEffect_running {s : State} {w : Word} {p : Nat} {m : Micro} {ms : List Micro} {t : Option Nat}
    (hr : s.running = some ⟨w, p, ms, t⟩) :
    ∃ q, (microEffect m s).running = some ⟨w, q, ms, if m = .delay then none else t⟩ := by
  cases m with
  | delay => exact ⟨p + 1, by simp [microEffect, applyDelay, hr]⟩
  | resultAcc f => cases f <;> exact ⟨p, by simp [microEffect, hr]⟩
  | setDir r d => cases d <;> exact ⟨p + 1, by simp [microEffect, applySetDir, hr]⟩
  | drive r b => exact ⟨p + 1, by simp [microEffect, applyDrive, hr]⟩
  | driveBit r => exact ⟨p + 1, by simp [microEffect, applyDrive, hr]⟩
  | sample => exact ⟨p + 1, by simp [microEffect, applySample, hr]⟩
  | _ => exact ⟨p, by simp [microEffect, hr]⟩

/-- A micro-step keeps OP and what is still to do; an event moves the position by one (rule R33). -/
theorem microEffect_position {s : State} {r : Running} (hr : s.running = some r) (m : Micro) :
    ∃ q, (microEffect m s).running = some q ∧ q.op = r.op ∧ q.todo = r.todo ∧
      q.pos + s.trace.length = r.pos + (microEffect m s).trace.length := by
  cases m with
  | delay => exact ⟨{ r with pos := r.pos + 1, timer := none }, by simp [microEffect, applyDelay, hr]; omega⟩
  | resultAcc f => cases f <;> exact ⟨r, by simp [microEffect, hr]⟩
  | setDir p d => cases d <;> exact ⟨{ r with pos := r.pos + 1 }, by simp [microEffect, applySetDir, hr]; omega⟩
  | drive p b => exact ⟨{ r with pos := r.pos + 1 }, by simp [microEffect, applyDrive, hr]; omega⟩
  | driveBit p => exact ⟨{ r with pos := r.pos + 1 }, by simp [microEffect, applyDrive, hr]; omega⟩
  | sample => exact ⟨{ r with pos := r.pos + 1 }, by simp [microEffect, applySample, hr]; omega⟩
  | _ => exact ⟨r, by simp [microEffect, hr]⟩

/-- A micro-step of a busy block has exactly three outcomes: the operation ends, the delay timer moves, or the next
micro-step of the operation is done. -/
theorem microTick_cases {s u : State} {r : Running} (hr : s.running = some r) (h : microTick s = .next u) :
    (r.todo = [] ∧ u = { s with running := none }) ∨
    (∃ n, u = { s with running := some { r with timer := some n } }) ∨
    (∃ m q, r.todo = m :: q.todo ∧ u.running = some q ∧ q.op = r.op ∧
      q.pos + s.trace.length = r.pos + u.trace.length ∧
      perform m { s with running := some { r with todo := q.todo } } = .next u) := by
  have done : ∀ m ms, r.todo = m :: ms → perform m { s with running := some { r with todo := ms } } = .next u →
      ∃ m q, r.todo = m :: q.todo ∧ u.running = some q ∧ q.op = r.op ∧
        q.pos + s.trace.length = r.pos + u.trace.length ∧
        perform m { s with running := some { r with todo := q.todo } } = .next u := by
    intro m ms hm hu
    obtain ⟨-, rfl⟩ := perform_eq_next hu
    obtain ⟨q, hq, ho, rfl, hp⟩ := microEffect_position (s := { s with running := some { r with todo := ms } }) rfl m
    exact ⟨m, q, hm, hq, ho, hp, hu⟩
  simp only [microTick, hr] at h
  split at h
  · rename_i ht
    injection h with h
    exact .inl ⟨ht, h.symm⟩
  · injection h with h
    exact .inr (.inl ⟨_, h.symm⟩)
  · injection h with h
    exact .inr (.inl ⟨_, h.symm⟩)
  · rename_i ht _
    exact .inr (.inr (done _ _ ht h))
  · rename_i ht _ _ _
    exact .inr (.inr (done _ _ ht h))

/-- Micro-steps of an idle block do nothing. -/
theorem microTicks_idle (n : Nat) {s : State} (h : s.running = none) : microTicks n s = .next s := by
  induction n with
  | zero => rfl
  | succ n ih => simp [microTicks, microTick, h, ih]

end Sys2Proof.Machine
end

