-- ==== Sys2Proof/Tests/Slice0.lean ====
section
/-! SUPPORT. The model's own tests: words and values written out from the spec, and for every statement with hypotheses a
state that meets them. -/

namespace Sys2Proof.Tests

-- One theorem after another: elaborating all of them at once asks for more threads than a check may have.
set_option Elab.async false

open Sys2Proof.Machine

/-! ## Helpers -/

/-- The block just after `configure` with PINCFG = 0x030201 (95_test_vectors.md section 2.2). -/
def ready : State :=
  { State.reset with
    configured := true, ok := true, pincfg := 0x030201, pins := 0x030201, ce := ⟨some .output, false⟩,
    sclk := ⟨some .output, false⟩, io := ⟨some .output, false⟩ }

/-- The block after a BUS_START: a frame is open (rule R97). -/
def framed : State :=
  { ready with
    busState := .started, bitIdx := 7, shift := 0x81, ce := ⟨some .output, true⟩, io := ⟨some .output, true⟩ }

/-- The block with a fault taken (rule R149): `date.max 0, 13`. -/
def faulted : State :=
  { State.reset with fault := true, cause := .invalidMonth, faultInfo := 0x22000D00, faultArg := 0x060D }

/-- A BUS_RESET in progress, accepted and not yet begun. -/
def busyReset : State := { ready with running := some ⟨0x01000000, 0, okBody procReset, none⟩ }

/-- A `Delay` in progress: the timer counts its last cycle but one. -/
def busyDelay : State :=
  { ready with running := some ⟨0x02810000, 1, (okBody (procStart (.lit 0x81))).drop 2, some 1⟩ }

/-- Device bytes as the samples that spell them, the least significant bit first. -/
def levels (bs : List Byte) : List Bool := bs.flatMap bitsLsbFirst

/-- The state a step answers. -/
def nextOf (o : Result) : Option State :=
  match o with
  | .next s => some s
  | .fault _ => none
  | .refused _ => none

/-- The state after the host has written one command word. -/
def cmd (s : State) (w : Nat) : Option State := nextOf (step (s.withFetchWord 32 w))

/-- The state after one wire command byte, with its data byte in bits 15:8. -/
def wire (s : State) (w : Nat) : Option State := nextOf (step (s.withFetchWord 8 w))

/-- STATUS, RESULT and FAULT_ARG. -/
def look (t : State) : Nat × Nat × Nat := ((statusWord t).toNat, t.result.toNat, t.faultArg.toNat)

/-- The levels IO was driven to and the number of events. -/
def onWire (t : State) : List Bool × Nat := (ioLevels t.trace, t.trace.length)

theorem next_of_any {o : Result} {p : State → Bool} (h : (nextOf o).any p = true) : ∃ t, o = .next t ∧ p t = true := by
  cases o with
  | next t => exact ⟨t, rfl, by simpa [nextOf] using h⟩
  | fault f => simp [nextOf] at h
  | refused r => simp [nextOf] at h

theorem next_of_isSome {o : Result} (h : (nextOf o).isSome = true) : ∃ t, o = .next t := by
  cases o with
  | next t => exact ⟨t, rfl⟩
  | fault f => simp [nextOf] at h
  | refused r => simp [nextOf] at h

/-- The invariant, as something to evaluate. -/
def invHolds (s : State) : Bool :=
  match s.running with
  | none => decide (IdleInv s)
  | some r =>
    !s.fault &&
      match runMicros r.todo s with
      | .next t => decide (IdleInv t)
      | .fault _ | .refused _ => false

theorem inv_of_holds {s : State} (h : invHolds s = true) : BlockInv s := by
  unfold invHolds at h
  unfold BlockInv
  cases hr : s.running with
  | none =>
    rw [hr] at h
    exact of_decide_eq_true h
  | some r =>
    simp only [hr, Bool.and_eq_true, Bool.not_eq_true'] at h ⊢
    obtain ⟨h1, h2⟩ := h
    refine ⟨h1, ?_⟩
    cases hm : runMicros r.todo s with
    | next t =>
      rw [hm] at h2
      exact of_decide_eq_true h2
    | fault f => simp [hm] at h2
    | refused q => simp [hm] at h2

/-! ## WellFormed refuses each kind of ill-formed command word (rules R66, R67; 95_test_vectors.md section 2.1) -/

theorem test_wf_unassigned_op : (CommandFields.mk 0x07 0 0 0 false).wellFormed = false := by decide
theorem test_wf_reserved : (CommandFields.mk 0x20 0 0 1 false).wellFormed = false := by decide
theorem test_wf_unused_a : (CommandFields.mk 0x01 1 0 0 false).wellFormed = false := by decide
theorem test_wf_unused_b : (CommandFields.mk 0x20 0 1 0 false).wellFormed = false := by decide
theorem test_wf_unused_p : (CommandFields.mk 0x21 0 0 0 true).wellFormed = false := by decide
theorem test_wf_wire_pattern : wireByteOk 0xC0 = false ∧ wireByteOk 0x91 = false := by decide

/-! ## Decoding, from words written out bit by bit (rules R63, R65, R68, R44) -/

theorem test_decode_transport :
    decodeTableWord 32 0b00000001_00000000_00000000_0000000_0 = some .busReset ∧
    decodeTableWord 32 0b00000010_10000001_00000000_0000000_0 = some (.busStart 0x81) ∧
    decodeTableWord 32 0b00000011_10100101_00000000_0000000_0 = some (.busWriteByte 0xA5) ∧
    decodeTableWord 32 0b00000100_00000000_00000000_0000000_0 = some .busReadByte ∧
    decodeTableWord 32 0b00000101_10001100_00100100_0000000_0 = some (.writeReg 0x8C 0x24) ∧
    decodeTableWord 32 0b00000110_10001101_00000000_0000000_0 = some (.readReg 0x8D) := by decide

theorem test_decode_getters :
    decodeTableWord 32 0b00010000_00000000_00000000_0000000_0 = some .getSeconds ∧
    decodeTableWord 32 0b00010001_00000000_00000000_0000000_0 = some .getMinutes ∧
    decodeTableWord 32 0b00010010_00000000_00000000_0000000_1 = some (.getHours true) := by decide

theorem test_decode_codec :
    decodeTableWord 32 0b00100000_00000011_00000000_0000000_0 = some (.rangeMin 3) ∧
    decodeTableWord 32 0b00100001_00000111_00000000_0000000_0 = some (.rangeMax 7) ∧
    decodeTableWord 32 0b00100010_00000001_00000010_0000000_0 = some (.dateMax 1 2) ∧
    decodeTableWord 32 0b00100011_00000111_01100011_0000000_0 = some (.encode 7 99) ∧
    decodeTableWord 32 0b00100100_00000000_11011001_0000000_0 = some (.decode 0 0xD9) := by decide

theorem test_decode_aggregate :
    decodeTableWord 32 0b00110000_00000000_00000000_0000000_1 = some (.setWp true) ∧
    decodeTableWord 32 0b01000000_00000000_00000000_0000000_1 = some (.getDatetime true) ∧
    decodeTableWord 32 0b01000001_00000000_00000000_0000000_0 = some (.setDatetime false) ∧
    decodeTableWord 32 0b01110000_00000000_00000000_0000000_1 = some (.configure true) := by decide

theorem test_decode_wire_reads :
    decodeTableWord 8 0b1000_000_1 = some .wireRdSeconds ∧ decodeTableWord 8 0b1000_001_1 = some .wireRdMinutes ∧
    decodeTableWord 8 0b1000_010_1 = some .wireRdHours ∧ decodeTableWord 8 0b1000_011_1 = some .wireRdDate ∧
    decodeTableWord 8 0b1000_100_1 = some .wireRdMonth ∧ decodeTableWord 8 0b1000_101_1 = some .wireRdWeekday ∧
    decodeTableWord 8 0b1000_110_1 = some .wireRdYear ∧ decodeTableWord 8 0b1000_111_1 = some .wireRdWp := by decide

theorem test_decode_wire_writes :
    decode [0b1000_000_0, 0x30] = .ok (.wireWrSeconds 0x30) ∧ decode [0b1000_001_0, 0x59] = .ok (.wireWrMinutes 0x59) ∧
    decode [0b1000_010_0, 0xB1] = .ok (.wireWrHours 0xB1) ∧ decode [0b1000_011_0, 0x29] = .ok (.wireWrDate 0x29) ∧
    decode [0b1000_100_0, 0x02] = .ok (.wireWrMonth 0x02) ∧ decode [0b1000_101_0, 0x04] = .ok (.wireWrWeekday 0x04) ∧
    decode [0b1000_110_0, 0x24] = .ok (.wireWrYear 0x24) ∧ decode [0b1000_111_0, 0x80] = .ok (.wireWrWp 0x80) := by
  decide +kernel

theorem test_decode_wire_rows :
    decodeTableWord 8 0x80 = some (.wireWrSeconds 0) ∧ decodeTableWord 8 0x82 = some (.wireWrMinutes 0) ∧
    decodeTableWord 8 0x84 = some (.wireWrHours 0) ∧ decodeTableWord 8 0x86 = some (.wireWrDate 0) ∧
    decodeTableWord 8 0x88 = some (.wireWrMonth 0) ∧ decodeTableWord 8 0x8A = some (.wireWrWeekday 0) ∧
    decodeTableWord 8 0x8C = some (.wireWrYear 0) ∧ decodeTableWord 8 0x8E = some (.wireWrWp 0) := by decide

theorem test_decode_refuses :
    decodeTableWord 32 0x00000000 = none ∧ decodeTableWord 32 0x23003B01 = none ∧ decodeTableWord 8 0xC1 = none ∧
    decode [] = .error (.noSuchLength 0) ∧ decode [0x81, 0, 0] = .error (.noSuchLength 3) := by decide +kernel

/-- The rows of the opcode table. -/
def tableRows : List (Nat × Nat) :=
  ([0x01, 0x02, 0x03, 0x04, 0x05, 0x06, 0x10, 0x11, 0x12].map fun op => (32, op * 0x1000000)) ++
  ([0x20, 0x21, 0x22, 0x23, 0x24, 0x30, 0x40, 0x41, 0x70].map fun op => (32, op * 0x1000000)) ++
  ((List.range 16).map fun k => (8, 0x80 + k))

/-- Every row runs as the first instruction after reset: some to their end, some to a fault state. -/
theorem test_every_row_runs_from_reset :
    tableRows.all (fun r => (nextOf (step (State.reset.withFetchWord r.1 r.2))).isSome) = true := by decide +kernel

/-! ## Bus Transport (95_test_vectors.md section 2.2) -/

theorem test_bus_reset : (cmd framed 0x01000000).map (fun t => (look t, t.trace, t.ce, t.sclk)) =
    some ((0x70A, 0, 0), [.drive .ce 3 false, .drive .sclk 1 false], ⟨some .output, false⟩, ⟨some .output, false⟩) := by
  decide +kernel

/-- The full trace of `bus.start 0x81` on pins CLK 1, DAT 2, CE 3. -/
theorem test_bus_start : (cmd ready 0x02810000).map (fun t => (look t, t.trace)) = some ((0x73A, 0, 0),
    [.drive .ce 3 false, .delay, .drive .ce 3 true, .delay, .setOut .io 2 false] ++
    [true, false, false, false, false, false, false, true].flatMap fun b =>
      [.drive .io 2 b, .delay, .drive .sclk 1 true, .delay, .drive .sclk 1 false, .delay]) := by decide +kernel

theorem test_bus_write_byte : (cmd ready 0x03A50000).map (fun t => (look t, onWire t)) =
    some ((0x70A, 0, 0), [true, false, true, false, false, true, false, true], 49) := by decide +kernel

/-- With the frame open, BUS_STATE returns to STARTED (rule R92). -/
theorem test_bus_write_byte_framed : (cmd framed 0x03000000).map (fun t => (look t, t.io)) =
    some ((0x73A, 0, 0), ⟨some .output, false⟩) := by decide +kernel

theorem test_bus_read_byte :
    (cmd { ready with samples := [true, true, false, false, true, false, true, false] } 0x04000000).map
      (fun t => (look t, t.trace.length, t.io.dir)) = some ((0x70A, 0x53, 0), 41, some .floating) := by decide +kernel

theorem test_write_reg : (cmd ready 0x058C2400).map (fun t => (look t, onWire t, t.ce.lvl, t.io.lvl)) =
    some ((0x70A, 0, 0), ([false, false, true, true, false, false, false, true] ++
      [false, false, true, false, false, true, false, false], 104), false, false) := by decide +kernel

theorem test_read_reg : (cmd { ready with samples := levels [0x99] } 0x068D0000).map (fun t => (look t, onWire t)) =
    some ((0x70A, 0x99, 0), [true, false, true, true, false, false, false, true], 96) := by decide +kernel

/-- A line operation on a block that is not configured (section 2.2, the unconfigured vectors). -/
theorem test_unconfigured : [0x01000000, 0x02800000, 0x03A50000, 0x04000000, 0x058C2400, 0x068D0000].all (fun w =>
    (cmd State.reset w).map (fun t => (look t, t.faultInfo.toNat, t.trace)) == some ((0x20004, 0, 0xFF00), w, [])) = true := by
  decide +kernel

/-! ## Register codec (95_test_vectors.md sections 1 and 2.3) -/

theorem test_range_min : (cmd State.reset 0x20030000).map look = some (8, 1, 0) := by decide +kernel
theorem test_range_min_faults : (cmd State.reset 0x200A0000).map (fun t => (look t, t.faultInfo)) =
    some ((0x30004, 0, 0xFF0A), 0x200A0000) := by decide +kernel
theorem test_range_max : (cmd State.reset 0x21070000).map look = some (8, 99, 0) := by decide +kernel
theorem test_range_max_faults : (cmd State.reset 0x21050000).map look = some (0x30004, 0, 0x0505) := by decide +kernel
theorem test_date_max : (cmd State.reset 0x22000200).map look = some (8, 29, 0) := by decide +kernel
theorem test_date_max_faults : (cmd State.reset 0x22640D00).map look = some (0x40004, 0, 0x060D) := by decide +kernel
theorem test_encode : (cmd State.reset 0x23076300).map look = some (8, 0x99, 0) := by decide +kernel
theorem test_encode_faults : (cmd State.reset 0x23021800).map look = some (0x50004, 0, 0x0218) := by decide +kernel
theorem test_decode : (cmd State.reset 0x2402B100).map look = some (8, 31, 0) := by decide +kernel
theorem test_decode_not_decimal : (cmd State.reset 0x24007F00).map look = some (8, 85, 0) := by decide +kernel

/-! ## Public operations (95_test_vectors.md sections 2.4 to 2.7) -/

theorem test_get_seconds : (cmd { ready with samples := levels [0xD9] } 0x10000000).map look =
    some (0x70A, 59, 0) := by decide +kernel
theorem test_get_minutes : (cmd { ready with samples := levels [0x30] } 0x11000000).map (fun t => (look t, onWire t)) =
    some ((0x70A, 30, 0), bitsLsbFirst 0x83, 96) := by decide +kernel
theorem test_get_hours_24h : (cmd { ready with samples := levels [0xB1] } 0x12000000).map look =
    some (0x70A, 31, 0) := by decide +kernel
theorem test_get_hours_12h : (cmd { ready with samples := levels [0xB1] } 0x12000001).map (fun t => (look t, onWire t)) =
    some ((0x70A, 11, 0), bitsLsbFirst 0x85, 96) := by decide +kernel
theorem test_wp_off : (cmd ready 0x30000000).map (fun t => (look t, onWire t)) =
    some ((0x70A, 0, 0), levels [0x8E, 0x00], 104) := by decide +kernel
theorem test_wp_on : (cmd ready 0x30000001).map onWire = some (levels [0x8E, 0x80], 104) := by decide +kernel

theorem test_get_datetime :
    (cmd { ready with samples := levels [0x99, 0x12, 0x31, 0x07, 0x23, 0x00, 0xD9] } 0x40000001).map
      (fun t => (look t, t.dt)) = some ((0x70A, 0, 0), ⟨59, 0, 23, 7, 31, 12, 99, 0, 0⟩) := by decide +kernel
theorem test_get_datetime_unchecked :
    (cmd { ready with samples := levels [0xFF, 0xFF, 0xFF, 0xFF, 0xFF, 0xFF, 0xFF] } 0x40000001).map (·.dt) =
      some ⟨85, 85, 25, 7, 45, 25, 165, 1, 1⟩ := by decide +kernel

/-- Program P1, line 5: STATUS, and the seven data bytes in their order. -/
theorem test_set_datetime :
    (cmd { ready with dt := ⟨30, 59, 11, 4, 29, 2, 24, 1, 1⟩ } 0x41000001).map (fun t => (look t, t.io)) =
      some ((0x70A, 0, 0), ⟨some .output, false⟩) ∧
    aggregateOrder.map (dtPacked ⟨30, 59, 11, 4, 29, 2, 24, 1, 1⟩) = [0x24, 0x02, 0x29, 0x04, 0xB1, 0x59, 0x30] := by
  decide +kernel
/-- Program P6: date 29 in February of year 23. -/
theorem test_set_datetime_faults :
    (cmd { ready with dt := ⟨0, 0, 12, 3, 29, 2, 23, 1, 0⟩ } 0x41000001).map (fun t => (look t, t.faultInfo, t.trace)) =
      some ((0x50006, 0, 0x051D), 0x41000001, []) := by decide +kernel

theorem test_configure : (cmd { State.reset with pincfg := 0x030201 } 0x70000001).map (fun t => (look t, t.pins, t.trace)) =
    some ((0xA, 0, 0), 0x030201,
      [.setOut .sclk 1 false, .drive .sclk 1 false, .setOut .io 2 false, .drive .io 2 false, .setOut .ce 3 false,
       .drive .ce 3 false]) := by decide +kernel
theorem test_configure_null : (cmd ready 0x70000000).map (fun t => (look t, t.trace)) = some ((2, 0, 0), []) := by
  decide +kernel

theorem test_hours_block :
    [hoursPack 11 1 1, hoursPack 12 1 0, hoursPack 1 1 1, hoursPack 23 0 1] = [0xB1, 0x92, 0xA1, 0x23] ∧
    [hoursUnpack 0xB1, hoursUnpack 0x40, hoursUnpack 0xFF] = [(11, 1, 1), (0, 0, 0), (25, 1, 1)] := by decide +kernel

/-! ## Wire command bytes (rules R44, R94, R95) -/

theorem test_wire_write : (wire ready 0x248C).map (fun t => (look t, onWire t)) =
    some ((0x70A, 0, 0), levels [0x8C, 0x24], 104) := by decide +kernel
theorem test_wire_read : (wire { ready with samples := levels [0x99] } 0x8D).map (fun t => (look t, onWire t, t.acc)) =
    some ((0x70A, 0, 0), (bitsLsbFirst 0x8D, 96), 0x99) := by decide +kernel

/-! ## Illegal words, priority, the fault state, block reset (95_test_vectors.md sections 2.1 and 2.8) -/

theorem test_illegal_words : [0x00000000, 0x07000000, 0xFF000000, 0x01010000, 0x20000002, 0x20000100, 0x21000001,
      0x23003B01, 0x30000100, 0x40000002].all (fun w =>
    (cmd State.reset w).map (fun t => (look t, t.faultInfo.toNat)) ==
      some ((0x10004, 0, 0xFF00 + w / 0x1000000), w)) = true := by decide +kernel
theorem test_legality_before_configured : (cmd State.reset 0x10000001).map look = some (0x10004, 0, 0xFF10) := by
  decide +kernel
theorem test_null_before_configured : (cmd State.reset 0x41000000).map look = some (8, 0, 0) := by decide +kernel
theorem test_faulted_discards : cmd faulted 0x10000000 = some faulted ∧ cmd faulted 0x70000001 = some faulted := by
  decide +kernel
theorem test_block_reset : (nextOf (step { framed with fault := true, agenda := [.reset] })).map
    (fun t => (look t, t.ce, lineNow t.trace 3)) = some ((0, 0, 0), ⟨none, false⟩, none) := by decide +kernel

/-! ## Host access and micro-steps (rules R40, R42, R29, R156) -/

theorem test_host_read : (nextOf (step { ready with agenda := [.read 0x04 4] })).map (·.reads) = some [0xA] := by
  decide +kernel
theorem test_host_write_pincfg : (nextOf (step { State.reset with agenda := [.write 0x14 4 0xFF030201] })).map (·.pincfg) =
    some 0x030201 := by decide +kernel
theorem test_host_access_refused :
    nextOf (step { ready with agenda := [.read 0x1C 4] }) = none ∧
    nextOf (step { ready with agenda := [.write 0x44 4 0] }) = none ∧
    nextOf (step { ready with agenda := [.read 0x02 4] }) = none ∧
    nextOf (step { ready with agenda := [.read 0x04 2] }) = none := by decide +kernel
/-- BUSY = 1 from the accepted write on; the poll of `wait` sees it (rules R29, R84). -/
theorem test_launch_is_busy : (nextOf (step { ready with agenda := [.launch 0x01000000] })).map (fun t => (look t).1) =
    some 0xB ∧ (nextOf (step { busyReset with agenda := [.wait] })).map (fun t => (t.reads, t.agenda)) =
    some ([0xB], [.wait]) := by decide +kernel
/-- The states a write transaction passes, as rule R94 lists them. -/
theorem test_write_passes_its_states : busPath (devWrite (.lit 0x8C) (.lit 0x24)) ready =
    [.idle, .reset, .cmd, .started, .xfer, .started, .reset, .idle] := by decide +kernel
/-- The timer counts one cycle (rule R156). -/
theorem test_timer_counts : (nextOf (step busyDelay)).map (fun t => t.running.map (·.timer)) = some (some (some 0)) := by
  decide +kernel

/-! ## Assembler (rules R83, R84; 95_test_vectors.md section 3) -/

theorem test_parse_commands :
    parseLine? "reg.wr 0x8C, 0x24 ; the year" = some (.command (.regWr 0x8C 0x24)) ∧
    parseLine? "codec.enc year, 99" = some (.command (.codecEnc 7 99)) ∧
    parseLine? "get.hours 12h" = some (.command (.getHours true)) ∧
    parseLine? "dt.set null" = some (.command (.dtSet true)) ∧
    parseLine? "bus.start 256" = none := by decide +kernel
theorem test_parse_pseudo :
    parseLine? "pincfg 1, 2, 3" = some (.pseudo (.pincfg 1 2 3)) ∧
    expand .default (.pincfg 1 2 3) = [.write 0x14 4 0x00030201] ∧
    parseLine? "rd year" = some (.pseudo (.rd .year)) ∧ expand .default (.rd .year) = [.write 0 4 0x068D0000] ∧
    (parseLine? "dt.load 30, 59, 11, 4, 29, 2, 24, 1, 1").map (fun l => (actionsOf .default l).head?) =
      some (some (.write 0x20 4 30)) := by decide +kernel

/-! ## Witnesses: for every statement with hypotheses, values that meet them together, clause by clause -/

theorem witness_DecodeOfEncodeIsTheInstruction :
    (Instr.writeReg 0xFF 0xFF).wellFormed = true ∧ (Instr.wireWrWp 0xFF).wellFormed = true ∧
    (Instr.rangeMax 0xFF).wellFormed = true ∧ Instr.wireRdSeconds.wellFormed = true := by decide +kernel

theorem witness_DecodedWordEncodesBack : decodeWord 0x05FFFF00 = .ok (.writeReg 0xFF 0xFF) := by decide +kernel

/-- The ends of every range of rule R67. -/
theorem witness_UnassignedOpcodeRaisesIllegalOp :
    Accepting ready ∧ [0x00, 0x07, 0x0F, 0x13, 0x1F, 0x25, 0x2F, 0x31, 0x3F, 0x42, 0x6F, 0x71, 0xFF].all (fun k =>
      let op := (wordOp (BitVec.ofNat 32 (k * 0x1000000))).toNat
      op == 0x00 || (0x07 ≤ op && op ≤ 0x0F) || (0x13 ≤ op && op ≤ 0x1F) || (0x25 ≤ op && op ≤ 0x2F) ||
        (0x31 ≤ op && op ≤ 0x3F) || (0x42 ≤ op && op ≤ 0x6F) || (0x71 ≤ op && op ≤ 0xFF)) = true := by decide +kernel

theorem witness_NonzeroUnusedFieldRaisesIllegalOp :
    Accepting State.reset ∧
    (opRow? (wordOp 0x20000080) = some ⟨0x20, true, false, false⟩ ∧ wordRsv 0x20000080 ≠ 0) ∧
    (opRow? (wordOp 0x01010000) = some ⟨0x01, false, false, false⟩ ∧ wordA 0x01010000 ≠ 0) ∧
    (opRow? (wordOp 0x20000100) = some ⟨0x20, true, false, false⟩ ∧ wordB 0x20000100 ≠ 0) ∧
    (opRow? (wordOp 0x21000001) = some ⟨0x21, true, false, false⟩ ∧ wordP 0x21000001 = true) := by decide +kernel

theorem witness_StepRunsTheDecodedInstruction :
    decodeWord 0x70000001 = .ok (.configure true) ∧ decode [0x8C, 0x24] = .ok (.wireWrYear 0x24) ∧
    decode [0x8F] = .ok .wireRdWp ∧ decodeTableWord 32 0x01000000 = some .busReset ∧
    decodeTableWord 8 0x80 = some (.wireWrSeconds 0) := by decide +kernel

/-- On the way (a BUS_RESET after its first event, a `Delay` counting) and at the end; and a block that was idle. -/
theorem witness_BusyBlockFinishesBeforeAWrite :
    (∃ u, microTicks 2 busyReset = .next u ∧ u.running.isSome = true) ∧
    (∃ u, microTicks 1 busyDelay = .next u ∧ u.running.isSome = true) ∧
    (∃ u, microTicks 6 busyReset = .next u ∧ u.running.isNone = true) ∧
    ∃ u, microTicks 3 ready = .next u ∧ u.running.isNone = true :=
  ⟨next_of_any (p := fun u => u.running.isSome) (by decide +kernel),
   next_of_any (p := fun u => u.running.isSome) (by decide +kernel),
   next_of_any (p := fun u => u.running.isNone) (by decide +kernel),
   next_of_any (p := fun u => u.running.isNone) (by decide +kernel)⟩

/-- An operation that begins, and one that faults at its acceptance. -/
theorem witness_EventByEventExecutionAgrees :
    (Accepting ready ∧ (∃ u, launchCommand 0x058C2400 ready = .next u ∧ u.running.isSome = true) ∧
      ∃ t, runCommand 0x058C2400 ready = .next t) ∧
    (Accepting State.reset ∧ (∃ u, launchCommand 0x200A0000 State.reset = .next u ∧ u.running.isNone = true) ∧
      ∃ t, runCommand 0x200A0000 State.reset = .next t) :=
  ⟨⟨by decide, next_of_any (p := fun u => u.running.isSome) (by decide +kernel), next_of_isSome (by decide +kernel)⟩,
   ⟨by decide, next_of_any (p := fun u => u.running.isNone) (by decide +kernel), next_of_isSome (by decide +kernel)⟩⟩

theorem witness_OnlyBadHostAccessesAreRefused :
    step { ready with agenda := [.read 0x04 2] } = .refused (.hostAccessWidth 2) ∧
    step { ready with agenda := [.write 0x06 4 0] } = .refused (.hostAccessUnaligned 0x06) ∧
    step { ready with agenda := [.read 0x1C 4] } = .refused (.hostAccessUnoccupied 0x1C) ∧
    step { ready with agenda := [.write 0x44 4 0] } = .refused (.hostAccessUnoccupied 0x44) := ⟨rfl, rfl, rfl, rfl⟩

/-- The last register, the hole, the first offset past the registers. -/
theorem witness_HostAccessIsRefusedExactlyOffTheMap :
    (let bad := fun (off width : Nat) => width ≠ 4 ∨ off % 4 ≠ 0 ∨ off = 0x1C ∨ 0x44 ≤ off
     bad 0x1C 4 ∧ bad 0x44 4 ∧ bad 0x04 8 ∧ bad 0x03 4 ∧ ¬ bad 0x00 4 ∧ ¬ bad 0x40 4 ∧ ¬ bad 0x18 4) ∧
    BlockInv ready ∧ BlockInv busyReset :=
  ⟨by decide, inv_of_holds (by decide +kernel), inv_of_holds (by decide +kernel)⟩

theorem witness_BlockResetRestoresResetState : ({ busyDelay with agenda := [.reset, .tick] } : State).agenda =
    .reset :: [.tick] := rfl

/-- Idle, busy, faulted and unconfigured states of the invariant, and steps from them. -/
theorem witness_EveryStepKeepsInv :
    (BlockInv framed ∧ ∃ t, step framed = .next t) ∧ (BlockInv busyReset ∧ ∃ t, step busyReset = .next t) ∧
    (BlockInv busyDelay ∧ ∃ t, step busyDelay = .next t) ∧ (BlockInv faulted ∧ ∃ t, step faulted = .next t) :=
  ⟨⟨inv_of_holds (by decide +kernel), next_of_isSome (by decide +kernel)⟩,
   ⟨inv_of_holds (by decide +kernel), next_of_isSome (by decide +kernel)⟩,
   ⟨inv_of_holds (by decide +kernel), next_of_isSome (by decide +kernel)⟩,
   ⟨inv_of_holds (by decide +kernel), next_of_isSome (by decide +kernel)⟩⟩

theorem witness_NoEventPreconditionFails : BlockInv busyDelay := inv_of_holds (by decide +kernel)

theorem witness_InvariantMakesConfiguredBlockReady :
    BlockInv framed ∧ framed.configured = true ∧ framed.fault = false ∧ framed.running = none :=
  ⟨inv_of_holds (by decide +kernel), rfl, rfl, rfl⟩

theorem witness_EveryOperationEnds : BlockInv busyDelay ∧ busyDelay.running.isSome = true :=
  ⟨inv_of_holds (by decide +kernel), rfl⟩

theorem witness_ConfiguredAndFaultFallOnlyByReset :
    (∃ t, step ready = .next t) ∧ (∀ rest, ready.agenda ≠ .reset :: rest) ∧ ready.configured = true ∧
    (∃ t, step faulted = .next t) ∧ (∀ rest, faulted.agenda ≠ .reset :: rest) ∧ faulted.fault = true :=
  ⟨next_of_isSome (by decide +kernel), by simp [ready, State.reset], rfl, next_of_isSome (by decide +kernel),
   by simp [faulted, State.reset], rfl⟩

theorem witness_InstructionsKeepOtherRegisters :
    framed.running = none ∧ (∃ t, exec .busReset framed = .next t) ∧ framed.ce.dir ≠ some .floating ∧
    framed.sclk.dir ≠ some .floating := ⟨rfl, next_of_isSome (by decide +kernel), by decide, by decide⟩

theorem witness_CodecAndNullFormsTouchNoLine :
    ready.running = none ∧ [Instr.rangeMin 0, .rangeMax 5, .dateMax 0 13, .encode 9 1, .decode 0 0xFF,
      .getDatetime false, .setDatetime false, .configure false].all (fun i => (nextOf (exec i ready)).isSome) = true := by
  decide +kernel

theorem witness_FaultsArePrecise :
    Accepting ready ∧ ∃ t, exec (.rangeMin 10) ready = .next t ∧ t.fault = true :=
  ⟨by decide, next_of_any (p := fun t => t.fault) (by decide +kernel)⟩

theorem witness_FaultedBlockDiscardsCommands : faulted.fault = true ∧ faulted.running = none := by decide

theorem witness_EventsResolveThroughPins : ready.running = none ∧ (∃ t, exec (.readReg 0x81) ready = .next t) ∧
    ∃ t, exec (.configure true) ready = .next t :=
  ⟨rfl, next_of_isSome (by decide +kernel), next_of_isSome (by decide +kernel)⟩

theorem witness_BusResetDrivesCeAndSclkLow : Ready framed ∧ (Accepting State.reset ∧ State.reset.configured = false) := by decide
theorem witness_BusStartOpensAFrame : Ready ready ∧ (Accepting State.reset ∧ State.reset.configured = false) := by decide
theorem witness_BusWriteByteShiftsOut : Ready framed ∧ Ready ready ∧ (Accepting State.reset ∧ State.reset.configured = false) := by decide
theorem witness_BusReadByteAssemblesSamples : Ready { framed with samples := [true, false] } ∧
    (Accepting State.reset ∧ State.reset.configured = false) := by decide
theorem witness_RegisterTransactionsRun : Ready framed ∧ (Accepting State.reset ∧ State.reset.configured = false) := by decide
theorem witness_WireWriteCommandsRun : Ready ready := by decide
theorem witness_WireReadCommandsRun : Ready ready := by decide
theorem witness_GettersDecodeTheByteRead : Ready { ready with samples := levels [0xB1] } ∧
    (Accepting State.reset ∧ State.reset.configured = false) := by decide
theorem witness_SetWpWritesTheProtectByte : Ready framed ∧ (Accepting State.reset ∧ State.reset.configured = false) := by decide
theorem witness_GetDatetimeReadsSevenRegisters : Ready { ready with drawn := 3 } := by decide

theorem witness_UnconfiguredLineOperationsFault : Accepting State.reset ∧ State.reset.configured = false := by decide
theorem witness_UnconfiguredWireCommandsFault : Accepting State.reset ∧ State.reset.configured = false ∧
    Instr.wireRdWp.wireByte?.isSome = true := by decide

theorem witness_BytesGoLeastSignificantBitFirst : Ready { ready with samples := levels [0x99] } := by decide

theorem witness_EventCountsOfTheProcedures :
    [procReset, procShiftOut (.lit 0xFF) .xfer, procShiftIn, procStart (.cmdRd .year), devWrite (.cmdWr .wp) (.lit 0x80),
      devRead (.lit 0x81)].all (fun ms => (nextOf (runMicros ms ready)).isSome) = true ∧ ready.busState = .idle := by
  decide +kernel

/-- The harness of program P5 answers 0xA5. -/
theorem witness_LoopbackReproducesTheByte :
    Ready { ready with samples := levels [0xA5] } ∧
    ∃ t, exec (.busWriteByte 0xA5) { ready with samples := levels [0xA5] } = .next t ∧
      ∃ es, t.trace = ready.trace ++ es ∧ ioLevels es =
        [draw t 0, draw t 1, draw t 2, draw t 3, draw t 4, draw t 5, draw t 6, draw t 7] := by
  refine ⟨by decide, ?_⟩
  obtain ⟨t, ht, hp⟩ := next_of_any (o := exec (.busWriteByte 0xA5) { ready with samples := levels [0xA5] })
    (p := fun t => decide (ioLevels t.trace =
      [draw t 0, draw t 1, draw t 2, draw t 3, draw t 4, draw t 5, draw t 6, draw t 7])) (by decide +kernel)
  exact ⟨t, ht, t.trace, rfl, of_decide_eq_true hp⟩

theorem witness_OperationsAddTheirEvents :
    Accepting ready ∧ ∃ t, exec .getMinutes ready = .next t ∧ (!t.fault) = true :=
  ⟨by decide, next_of_any (p := fun t => !t.fault) (by decide +kernel)⟩

theorem witness_RangeTableIsAsStated : rangeMaxOf .ampm = some 1 := rfl

/-- The first and last recognised identifiers, and the first and last that are not. -/
theorem witness_RangeMinAnswersTheMinimum : Accepting State.reset ∧ fieldId .seconds = 0 ∧ fieldId .ampm = 9 ∧
    9 < (10 : Byte).toNat ∧ 9 < (255 : Byte).toNat := by decide
theorem witness_RangeMaxAnswersTheMaximum : Accepting State.reset ∧ (fieldId .ampm = 9 ∧ rangeMaxOf .ampm = some 1) ∧
    fieldId .date = 5 ∧ rangeMaxOf .date = none ∧ 9 < (10 : Byte).toNat := by decide
theorem witness_DateMaxAnswersTheDaysOfTheMonth : Accepting State.reset ∧
    (1 ≤ (1 : Byte).toNat ∧ (12 : Byte).toNat ≤ 12 ∧ (99 : Byte).toNat ≤ 99) ∧
    ((0 : Byte).toNat < 1 ∧ 12 < (13 : Byte).toNat) ∧ 99 < (100 : Byte).toNat := by decide
theorem witness_LeapYearsAreTheMultiplesOfFour : (99 : Nat) ≤ 99 ∧ leap 96 = true := by decide
theorem witness_EncodePacksTheValue : Accepting State.reset ∧
    (fieldId .date = 5 ∧ rangeMinOf .date ≤ (31 : Byte).toNat ∧ (31 : Byte).toNat ≤ 31) ∧
    (fieldId .hours12 = 3 ∧ (0 : Byte).toNat < rangeMinOf .hours12) ∧
    (fieldId .date = 5 ∧ 31 < (32 : Byte).toNat) ∧ 9 < (10 : Byte).toNat := by decide
theorem witness_DecodeUnpacksEveryByte : Accepting State.reset ∧ fieldId .format = 8 ∧ 9 < (10 : Byte).toNat := by decide
theorem witness_DecodeOfEncodedValueIsTheValue : Accepting State.reset ∧ inRange .date 31 = true ∧
    inRange .year 99 = true ∧ inRange .hours12 1 = true := by decide
theorem witness_HoursBlockRoundTrips : (1 ≤ (12 : Byte).toNat ∧ (12 : Byte).toNat ≤ 12) ∧ (23 : Byte).toNat ≤ 23 := by
  decide
theorem witness_NullFormsOnlyWriteOk : Accepting State.reset ∧ Accepting ready := by decide

/-- The last second of 2099 in 24h format, and 29 February of year 0 in 12h format. -/
theorem witness_SetDatetimeWritesSevenRegisters :
    (Ready { ready with dt := ⟨59, 59, 23, 7, 31, 12, 99, 0, 255⟩ } ∧ ValidDateTime ⟨59, 59, 23, 7, 31, 12, 99, 0, 255⟩) ∧
    (Ready { ready with dt := ⟨0, 0, 12, 1, 29, 2, 0, 1, 1⟩ } ∧ ValidDateTime ⟨0, 0, 12, 1, 29, 2, 0, 1, 1⟩) := by
  refine ⟨⟨by decide, ?_⟩, by decide, ?_⟩
  · exact ⟨by decide, by decide, ⟨by decide, 31, by decide, by decide⟩, by decide, by decide, by decide, by decide,
      by decide, by decide, by decide⟩
  · exact ⟨by decide, by decide, ⟨by decide, 29, by decide, by decide⟩, by decide, by decide, by decide, by decide,
      by decide, by decide, by decide⟩

/-- One aggregate for each branch, each just past the bound it breaks, and the fault it takes. -/
theorem witness_SetDatetimeReportsTheFirstBadField :
    (Accepting ready ∧ ready.configured = true) ∧
    ([(⟨60, 60, 24, 8, 32, 13, 100, 2, 2⟩, 0x0764), (⟨60, 60, 24, 8, 32, 13, 99, 2, 2⟩, 0x060D),
      (⟨60, 60, 24, 8, 32, 1, 99, 2, 2⟩, 0x0520), (⟨60, 60, 24, 8, 1, 1, 0, 2, 2⟩, 0x0408),
      (⟨60, 60, 24, 1, 1, 1, 0, 2, 2⟩, 0x0802), (⟨60, 60, 24, 1, 1, 1, 0, 0, 2⟩, 0x0218),
      (⟨60, 60, 13, 1, 1, 1, 0, 1, 2⟩, 0x030D), (⟨60, 60, 12, 1, 1, 1, 0, 1, 2⟩, 0x0902),
      (⟨60, 60, 12, 1, 1, 1, 0, 1, 1⟩, 0x013C), (⟨60, 59, 23, 1, 1, 1, 0, 0, 2⟩, 0x003C)] :
        List (DateTime × BitVec 16)).all (fun x =>
      (nextOf (exec (.setDatetime true) { ready with dt := x.1 })).any fun t => t.faultArg == x.2) = true := by
  decide +kernel

theorem witness_ConfigureTakesTheLines : Accepting State.reset ∧ Accepting framed := by decide

/-- A second CONFIGURE moves the block from pins 1 to 3 to pins 4 to 6 (section 2.7). -/
theorem witness_OldLinesKeepTheirLevels :
    (∃ t, exec (.configure true) { framed with pincfg := 0x060504 } = .next t ∧
      (!t.fault && (nextOf (execAll [.busReset, .writeReg 0x80 1] t)).isSome) = true) ∧
    (∀ r, rolePin 0x060504 r ≠ 3) ∧ (∀ i ∈ [Instr.busReset, .writeReg 0x80 1], i ≠ .configure true) :=
  ⟨next_of_any (p := fun t => !t.fault && (nextOf (execAll [.busReset, .writeReg 0x80 1] t)).isSome) (by decide +kernel),
   by intro r; cases r <;> decide, by decide⟩

theorem witness_HostReadsReturnRegisters : [0x00, 0x04, 0x08, 0x0C, 0x10, 0x14, 0x18, 0x20, 0x24, 0x28, 0x2C, 0x30,
    0x34, 0x38, 0x3C, 0x40].all (fun off => (nextOf (step { busyReset with agenda := [.read off 4] })).isSome) = true := by
  decide +kernel

theorem witness_HostWritesReachWritableRegisters : ready.running = none ∧
    [0x04, 0x08, 0x0C, 0x10, 0x14, 0x18, 0x20, 0x24, 0x28, 0x2C, 0x30, 0x34, 0x38, 0x3C, 0x40].all (fun off =>
      (nextOf (step { ready with agenda := [.write off 4 0xFFFFFFFF] })).isSome) = true := by decide +kernel

theorem witness_StepLeavesOtherInstances :
    (∃ q, stepBlock 1 ⟨[ready, { framed with agenda := [.reset] }]⟩ = .next q) ∧ 0 ≠ 1 := ⟨⟨_, rfl⟩, by decide⟩

end Sys2Proof.Tests
end

section
/-! The state after reset (10_state.md rule R41). -/

namespace Sys2Proof.Machine

@[simp] theorem flagBit_false (n : Nat) : flagBit false n = 0 := BitVec.zero_shiftLeft n

/-- Every field of STATUS has code 0 after reset, so the word packed from them is 0 (rule R19). -/
@[simp] theorem statusWord_reset : statusWord State.reset = 0 := by
  simp [statusWord, State.reset, causeCode, busStateCode, busy]

/-- STATUS is packed from its fields; CMD always reads 0, and every other host register reads one field of the state. -/
@[simp] theorem readHostReg_reset (r : HostReg) : readHostReg r State.reset = 0 := by
  cases r with
  | status => exact statusWord_reset
  | _ => rfl

@[simp] theorem getPin_reset (r : Role) : getPin State.reset r = ⟨none, false⟩ := by cases r <;> rfl

/-- Settles O12: the host registers by `readHostReg_reset`, the lines by `getPin_reset`, the rest as reset sets it. -/
theorem resetLeavesTheStatedValues : Obligations.ResetLeavesTheStatedValues :=
  ⟨readHostReg_reset, rfl, rfl, rfl, rfl, getPin_reset⟩

end Sys2Proof.Machine
end

section
/-! Register transactions on a ready block, and the order of the bits on the wire (20_memory.md rule R47). -/

namespace Sys2Proof.Machine

/-! ## WRITE_REG and READ_REG in closed form -/

theorem whenConfigured_of_configured (body : List Micro) {s : State} (h : s.configured = true) :
    whenConfigured body s = .ok body := by
  simp [whenConfigured, h]

/-- A line operation on a ready block leaves what its body leaves, with OK set and BUSY cleared (rule R89). -/
theorem runOp_of_ready (w : Word) {body : List Micro} {s t u : State} (hR : Ready s)
    (hb : runMicros body (beginOp w (okBody body) s) = .next u) (hu : { u with ok := true, running := none } = t) :
    runOp w (whenConfigured (okBody body)) s = .next t := by
  obtain ⟨hf, hr, hcfg, -, -⟩ := hR
  exact runOp_of_body w ⟨hf, hr⟩ (whenConfigured_of_configured _ hcfg)
    ⟨{ u with ok := true }, by rw [runMicros_okBody, hb, andThen_next], hu⟩

/-- WRITE_REG on a ready block leaves what its write transaction leaves (rules R94, R100). -/
theorem exec_writeReg_of_ready (c v : Byte) {s : State} (hR : Ready s) :
    exec (.writeReg c v) s = .next { afterWrite c v s with ok := true } := by
  have ⟨_, hr, hcfg, hl⟩ := hR
  refine runOp_of_ready (body := devWrite (.lit c) (.lit v)) _ hR
    (runMicros_devWrite _ _ hcfg hl (timerIdle_beginOp _ _ _)) ?_
  simp [advance, afterWrite, srcByte, hr]

/-- READ_REG on a ready block leaves what its read transaction leaves, the drawn byte in RESULT (rules R95, R101). -/
theorem exec_readReg_of_ready (c : Byte) {s : State} (hR : Ready s) :
    exec (.readReg c) s = .next { afterRead c s with ok := true, result := drawnByte s 0 } := by
  have ⟨_, hr, hcfg, hl⟩ := hR
  let body := devRead (.lit c) ++ [.resultAcc none]
  let s₀ := beginOp (commandWord (.readReg c)) (okBody body) s
  have run : runMicros body s₀ = .next { advance 96 (afterRead c s₀) with result := drawnByte s 0 } := by
    rw [runMicros_append, runMicros_devRead _ (s := s₀) hcfg hl (timerIdle_beginOp _ _ _)]
    rfl
  refine runOp_of_ready _ hR run ?_
  simp [s₀, beginOp, advance, afterRead, drawnByte, draw, hr]

/-! ## The levels of a procedure's events -/

@[simp] theorem ioLevels_append (es fs : List Event) : ioLevels (es ++ fs) = ioLevels es ++ ioLevels fs :=
  List.filterMap_append

@[simp] theorem sampledLevels_append (es fs : List Event) :
    sampledLevels (es ++ fs) = sampledLevels es ++ sampledLevels fs :=
  List.filterMap_append

@[simp] theorem ioLevels_resetEvents (pins : BitVec 24) : ioLevels (resetEvents pins) = [] := rfl

@[simp] theorem sampledLevels_resetEvents (pins : BitVec 24) : sampledLevels (resetEvents pins) = [] := rfl

/-- A shift-out drives IO through the bits of its byte, the least significant first (rules R47, R92). -/
@[simp] theorem ioLevels_shiftOutEvents (pins : BitVec 24) (lvl : Bool) (b : Byte) :
    ioLevels (shiftOutEvents pins lvl b) = bitsLsbFirst b := rfl

@[simp] theorem sampledLevels_shiftOutEvents (pins : BitVec 24) (lvl : Bool) (b : Byte) :
    sampledLevels (shiftOutEvents pins lvl b) = [] := rfl

@[simp] theorem ioLevels_shiftInEvents (pins : BitVec 24) (d : Byte) : ioLevels (shiftInEvents pins d) = [] := rfl

/-- A shift-in samples the bits of its byte, the least significant first (rules R47, R93). -/
@[simp] theorem sampledLevels_shiftInEvents (pins : BitVec 24) (d : Byte) :
    sampledLevels (shiftInEvents pins d) = bitsLsbFirst d := rfl

@[simp] theorem ioLevels_startEvents (pins : BitVec 24) (lvl : Bool) (c : Byte) :
    ioLevels (startEvents pins lvl c) = bitsLsbFirst c := rfl

@[simp] theorem sampledLevels_startEvents (pins : BitVec 24) (lvl : Bool) (c : Byte) :
    sampledLevels (startEvents pins lvl c) = [] := rfl

/-- Settles O34: WRITE_REG adds `writeEvents` and READ_REG `readEvents`, whose levels are those of their shifts. -/
theorem bytesGoLeastSignificantBitFirst : Obligations.BytesGoLeastSignificantBitFirst := by
  intro c v s hR
  constructor
  · refine ⟨_, writeEvents s.pins s.io.lvl c v, exec_writeReg_of_ready c v hR, rfl, ?_⟩
    simp [writeEvents]
  · refine ⟨_, readEvents s.pins s.io.lvl c (drawnByte s 0), exec_readReg_of_ready c hR, rfl, ?_, ?_⟩ <;>
      simp [readEvents]

end Sys2Proof.Machine
end

section
/-! Every operation runs to its end from a state of the invariant (rules R85, R89), and its body leaves an idle block of
it (rule R35): each body by the closed forms of its procedures. -/

namespace Sys2Proof.Machine

/-! ## Bodies of line operations -/

/-- What a line operation needs of the block and leaves of it (rules R26, R35). -/
def LinesReady (s : State) : Prop := s.configured = true ∧ LinesSettled s ∧ TimerIdle s

/-- Micro-steps that run from every state ready for a line operation to another such state. -/
def RunsOnReadyLines (ms : List Micro) : Prop :=
  ∀ s, LinesReady s → ∃ t, runMicros ms s = .next t ∧ LinesReady t

theorem RunsOnReadyLines.append {ms ns : List Micro} (hm : RunsOnReadyLines ms) (hn : RunsOnReadyLines ns) :
    RunsOnReadyLines (ms ++ ns) := by
  intro s hs
  obtain ⟨t, ht, hs⟩ := hm s hs
  rw [runMicros_append, ht]
  exact hn t hs

theorem RunsOnReadyLines.flatMap {α : Type} {f : α → List Micro} (hf : ∀ a, RunsOnReadyLines (f a)) (as : List α) :
    RunsOnReadyLines (as.flatMap f) := by
  induction as with
  | nil => exact fun s hs => ⟨s, rfl, hs⟩
  | cons a as ih => exact (hf a).append ih

theorem runsOnReadyLines_resultAcc (f : Option Field) : RunsOnReadyLines [.resultAcc f] := by
  intro s hs
  cases f <;> exact ⟨_, rfl, hs⟩

theorem runsOnReadyLines_dtAcc (r : DevReg) : RunsOnReadyLines [.dtAcc r] := fun _ hs => ⟨_, rfl, hs⟩

theorem RunsOnReadyLines.okBody {ms : List Micro} (hm : RunsOnReadyLines ms) : RunsOnReadyLines (okBody ms) :=
  hm.append fun _ hs => ⟨_, rfl, hs⟩

theorem runsOnReadyLines_procReset : RunsOnReadyLines procReset := by
  rintro s ⟨hcfg, ⟨hce, hsclk, hio, -, -⟩, ht⟩
  exact ⟨_, runMicros_procReset ⟨hce, hsclk⟩, hcfg, ⟨hce, hsclk, hio, rfl, rfl⟩, timerIdle_advance 2 ht⟩

theorem runsOnReadyLines_procShiftOut (src : ByteSrc) (phase : BusState) :
    RunsOnReadyLines (procShiftOut src phase) := by
  rintro s ⟨hcfg, ⟨hce, hsclk, -, -, -⟩, ht⟩
  exact ⟨_, runMicros_procShiftOut src phase hcfg hsclk ht, hcfg, ⟨hce, hsclk, nofun, rfl, rfl⟩,
    timerIdle_advance 49 ht⟩

theorem runsOnReadyLines_procShiftIn : RunsOnReadyLines procShiftIn := by
  rintro s ⟨hcfg, ⟨hce, hsclk, -, -, -⟩, ht⟩
  exact ⟨_, runMicros_procShiftIn hcfg hsclk ht, hcfg, ⟨hce, hsclk, nofun, rfl, rfl⟩, timerIdle_advance 41 ht⟩

theorem runsOnReadyLines_procStart (cmd : ByteSrc) : RunsOnReadyLines (procStart cmd) := by
  rintro s ⟨hcfg, ⟨hce, hsclk, -, -, -⟩, ht⟩
  exact ⟨_, runMicros_procStart cmd hcfg ⟨hce, hsclk⟩ ht, hcfg, ⟨hce, hsclk, nofun, rfl, rfl⟩,
    timerIdle_advance 53 ht⟩

theorem runsOnReadyLines_devWrite (cmd v : ByteSrc) : RunsOnReadyLines (devWrite cmd v) :=
  ((runsOnReadyLines_procStart cmd).append (runsOnReadyLines_procShiftOut v .xfer)).append runsOnReadyLines_procReset

theorem runsOnReadyLines_devRead (cmd : ByteSrc) : RunsOnReadyLines (devRead cmd) :=
  ((runsOnReadyLines_procStart cmd).append runsOnReadyLines_procShiftIn).append runsOnReadyLines_procReset

theorem runsOnReadyLines_getterBody (r : DevReg) (f : Field) : RunsOnReadyLines (getterBody r f) :=
  ((runsOnReadyLines_devRead _).append (runsOnReadyLines_resultAcc _)).okBody

/-! ## Bodies of all operations -/

/-- A run of micro-steps keeps the fault record. -/
theorem faultRecordOk_runMicros {ms : List Micro} {s t : State} (h : runMicros ms s = .next t)
    (hs : FaultRecordOk s) : FaultRecordOk t :=
  runMicros_keeps (P := FaultRecordOk) (fun m u _ hu => by simpa [FaultRecordOk] using hu) h hs

/-- A body that runs, in the operation of command word `w`, from the idle state `s` to another state of `IdleInv`. -/
def BodyRuns (w : Word) (s : State) (body : List Micro) : Prop :=
  ∃ t, runMicros body (beginOp w body s) = .next t ∧ IdleInv t

/-- A plan whose body, where its checks pass, runs from every idle state of the invariant. -/
def PlanRuns (w : Word) (plan : Plan) : Prop :=
  ∀ s body, IdleInv s → plan s = .ok body → BodyRuns w s body

/-- On a configured block the body of a line operation runs. -/
theorem RunsOnReadyLines.bodyRuns {body : List Micro} (hb : RunsOnReadyLines body) (w : Word) {s : State}
    (hs : IdleInv s) (hcfg : s.configured = true) : BodyRuns w s body := by
  obtain ⟨hrec, hset, -⟩ := hs
  obtain ⟨t, ht, hc, hl, -⟩ := hb (beginOp w body s) ⟨hcfg, hset hcfg, timerIdle_beginOp w body s⟩
  exact ⟨t, ht, faultRecordOk_runMicros ht hrec, fun _ => hl, fun h => by simp [hc] at h⟩

theorem RunsOnReadyLines.planRuns {body : List Micro} (hb : RunsOnReadyLines body) (w : Word) :
    PlanRuns w (whenConfigured body) := by
  intro s b hs hp
  obtain ⟨hcfg, rfl⟩ := whenConfigured_ok hp
  exact hb.bodyRuns w hs hcfg

theorem bodyRuns_setOk (w : Word) (b : Bool) {s : State} (hs : IdleInv s) : BodyRuns w s [.setOk b] :=
  ⟨_, rfl, hs⟩

theorem planRuns_error (w : Word) (f : FaultRec) : PlanRuns w fun _ => .error f := by
  intro s body _ hp
  cases hp

theorem planRuns_resultBody (w : Word) (n : Nat) : PlanRuns w fun _ => .ok (resultBody n) := by
  intro s body hs hp
  cases hp
  exact ⟨_, rfl, hs⟩

theorem planRuns_rangeMin (w : Word) (a : Byte) : PlanRuns w (planRangeMin a) := by
  unfold planRangeMin
  split
  · exact planRuns_error w _
  · exact planRuns_resultBody w _

theorem planRuns_rangeMax (w : Word) (a : Byte) : PlanRuns w (planRangeMax a) := by
  unfold planRangeMax
  split
  · exact planRuns_error w _
  · split
    · exact planRuns_error w _
    · exact planRuns_resultBody w _

theorem planRuns_dateMax (w : Word) (y m : Byte) : PlanRuns w (planDateMax y m) := by
  unfold planDateMax
  split
  · exact planRuns_error w _
  · split
    · exact planRuns_resultBody w _
    · exact planRuns_error w _

theorem planRuns_encode (w : Word) (a v : Byte) : PlanRuns w (planEncode a v) := by
  unfold planEncode
  split
  · exact planRuns_error w _
  · split
    · exact planRuns_resultBody w _
    · exact planRuns_error w _

theorem planRuns_decode (w : Word) (a p : Byte) : PlanRuns w (planDecode a p) := by
  unfold planDecode
  split
  · exact planRuns_error w _
  · exact planRuns_resultBody w _

theorem planRuns_getDatetime (w : Word) (present : Bool) : PlanRuns w (planGetDatetime present) := by
  cases present with
  | false =>
    intro s body hs hp
    cases hp
    exact bodyRuns_setOk w true hs
  | true =>
    exact (RunsOnReadyLines.flatMap
      (fun r => (runsOnReadyLines_devRead (.cmdRd r)).append (runsOnReadyLines_dtAcc r)) _).okBody.planRuns w

theorem planRuns_setDatetime (w : Word) (present : Bool) : PlanRuns w (planSetDatetime present) := by
  intro s body hs hp
  cases present with
  | false =>
    cases hp
    exact bodyRuns_setOk w true hs
  | true =>
    simp only [planSetDatetime, if_true] at hp
    split at hp
    · rename_i hcfg
      split at hp <;> cases hp
      exact (RunsOnReadyLines.flatMap
        (fun r => runsOnReadyLines_devWrite (.cmdWr r) (.dt r)) _).okBody.bodyRuns w hs hcfg
    · cases hp

/-- Under its own command word CONFIGURE may take the lines (rule R85), and leaves them settled (rules R35, R146). -/
theorem planRuns_configure {w : Word} (hw : wordOp w = opConfigure) (present : Bool) :
    PlanRuns w (planConfigure present) := by
  intro s body hs hp
  cases present with
  | false =>
    cases hp
    exact bodyRuns_setOk w false hs
  | true =>
    cases hp
    exact ⟨_, runMicros_configure (by simp [withinConfigure, hw]), hs.1, fun _ => ⟨rfl, rfl, nofun, rfl, rfl⟩, nofun⟩

/-- Every instruction that passes its checks on an idle block of the invariant runs to such a block (rules R35, R85). -/
theorem planRuns_planOf (i : Instr) : PlanRuns (commandWord i) (planOf i) := by
  cases i with
  | busReset => exact runsOnReadyLines_procReset.okBody.planRuns _
  | busStart c => exact (runsOnReadyLines_procStart _).okBody.planRuns _
  | busWriteByte b => exact (runsOnReadyLines_procShiftOut _ _).okBody.planRuns _
  | busReadByte => exact (runsOnReadyLines_procShiftIn.append (runsOnReadyLines_resultAcc _)).okBody.planRuns _
  | writeReg c v => exact (runsOnReadyLines_devWrite _ _).okBody.planRuns _
  | readReg c => exact ((runsOnReadyLines_devRead _).append (runsOnReadyLines_resultAcc _)).okBody.planRuns _
  | getSeconds | getMinutes | getHours p => exact (runsOnReadyLines_getterBody _ _).planRuns _
  | rangeMin f => exact planRuns_rangeMin _ f
  | rangeMax f => exact planRuns_rangeMax _ f
  | dateMax y m => exact planRuns_dateMax _ y m
  | encode f v => exact planRuns_encode _ f v
  | decode f p => exact planRuns_decode _ f p
  | setWp p => exact (runsOnReadyLines_devWrite _ _).okBody.planRuns _
  | getDatetime p => exact planRuns_getDatetime _ p
  | setDatetime p => exact planRuns_setDatetime _ p
  | configure p => exact planRuns_configure (wordOp_packWord _ _ _ _) p
  | wireWrSeconds v | wireWrMinutes v | wireWrHours v | wireWrDate v | wireWrMonth v | wireWrWeekday v
  | wireWrYear v | wireWrWp v => exact (runsOnReadyLines_devWrite _ _).planRuns _
  | wireRdSeconds | wireRdMinutes | wireRdHours | wireRdDate | wireRdMonth | wireRdWeekday | wireRdYear
  | wireRdWp => exact (runsOnReadyLines_devRead _).planRuns _

/-! ## Operations and the invariant -/

theorem blockInv_of_idle {s : State} (h : s.running = none) : BlockInv s ↔ IdleInv s := by
  simp [BlockInv, h]

theorem blockInv_of_running {s : State} {r : Running} (h : s.running = some r) :
    BlockInv s ↔ s.fault = false ∧ ∃ t, runMicros r.todo s = .next t ∧ IdleInv t := by
  cases hr : runMicros r.todo s <;> simp [BlockInv, h, hr]

/-- The invariant does not look at the agenda. -/
theorem BlockInv.with_agenda {s : State} (h : BlockInv s) (a : List Action) : BlockInv { s with agenda := a } := by
  obtain hr | ⟨r, hr⟩ := Option.eq_none_or_eq_some s.running
  · exact (blockInv_of_idle (s := { s with agenda := a }) hr).mpr ((blockInv_of_idle hr).mp h)
  · obtain ⟨hf, t, ht, hi⟩ := (blockInv_of_running hr).mp h
    obtain ⟨u, hu, hv⟩ := runMicros_view (t := { s with agenda := a }) (view_agenda s a).symm ht
    exact (blockInv_of_running (s := { s with agenda := a }) hr).mpr ⟨hf, u, hu, (idleInv_viewOnly.congr hv).mp hi⟩

/-- An operation in progress in a state of the invariant runs to its end, and leaves an idle state of it. -/
theorem BlockInv.finishRunning_next {s : State} (h : BlockInv s) :
    ∃ t, finishRunning s = .next t ∧ t.running = none ∧ IdleInv t := by
  cases hr : s.running with
  | none => exact ⟨s, finishRunning_idle hr, hr, (blockInv_of_idle hr).mp h⟩
  | some r =>
    obtain ⟨-, t, ht, hi⟩ := (blockInv_of_running hr).mp h
    exact ⟨{ t with running := none }, by rw [finishRunning_running hr, ht, andThen_next], rfl, hi⟩

/-- From a state of the invariant an operation whose body runs is discarded, takes its fault or runs to its end. -/
theorem BlockInv.runOp_next {s : State} (h : BlockInv s) {w : Word} {plan : Plan} (hp : PlanRuns w plan) :
    ∃ t, runOp w plan s = .next t := by
  obtain ⟨s₁, hfin, hr, hi⟩ := h.finishRunning_next
  rw [runOp_of_finishRunning w plan hfin hr]
  cases hf : s₁.fault with
  | true => exact ⟨_, runOp_discarded w plan hr hf⟩
  | false =>
    cases hb : plan s₁ with
    | error f => exact ⟨_, runOp_fault w hr hf hb⟩
    | ok body =>
      obtain ⟨t, ht, -⟩ := hp s₁ body hi hb
      exact ⟨_, by rw [runOp_body w hr hf hb, ht, andThen_next]⟩

theorem BlockInv.exec_next {s : State} (h : BlockInv s) (i : Instr) : ∃ t, exec i s = .next t := by
  rw [exec_eq_runOp]
  exact h.runOp_next (planRuns_planOf i)

theorem BlockInv.runCommand_next {s : State} (h : BlockInv s) (w : Word) : ∃ t, runCommand w s = .next t := by
  unfold runCommand
  split
  · exact h.exec_next _
  · exact h.runOp_next (planRuns_error w _)

end Sys2Proof.Machine
end

section
/-! Host accesses (20_memory.md rule R42): which have a register to reach, and what they answer. -/

namespace Sys2Proof.Machine

/-- An access rule R42 shuts out: of another width, unaligned, or at an offset no register occupies. -/
abbrev OffTheMap (off width : Nat) : Prop := width ≠ 4 ∨ off % 4 ≠ 0 ∨ off = 0x1C ∨ 0x44 ≤ off

theorem hostRegAt_of_ge {off : Nat} (h : 0x44 ≤ off) : hostRegAt off = none := by
  unfold hostRegAt
  split <;> simp_all

/-- The aligned offsets without a register are the hole and those past the last register (rule R17). -/
theorem hostRegAt_eq_none_iff {off : Nat} (h : off % 4 = 0) : hostRegAt off = none ↔ off = 0x1C ∨ 0x44 ≤ off := by
  obtain hlt | hge := Nat.lt_or_ge off 0x44
  · have table : ∀ n < 0x44, n % 4 = 0 → (hostRegAt n = none ↔ n = 0x1C) := by decide
    simp [table off hlt h, Nat.not_le.mpr hlt]
  · simp [hostRegAt_of_ge hge, hge]

theorem hostTarget_of_offTheMap {off width : Nat} (h : OffTheMap off width) :
    ∃ e, hostTarget off width = .error e := by
  by_cases hw : width = 4
  · by_cases ha : off % 4 = 0
    · have hn : hostRegAt off = none := (hostRegAt_eq_none_iff ha).mpr (by simpa [OffTheMap, hw, ha] using h)
      exact ⟨.hostAccessUnoccupied off, by simp [hostTarget, hw, ha, hn]⟩
    · exact ⟨.hostAccessUnaligned off, by simp [hostTarget, hw, ha]⟩
  · exact ⟨.hostAccessWidth width, by simp [hostTarget, hw]⟩

theorem hostTarget_of_not_offTheMap {off width : Nat} (h : ¬ OffTheMap off width) :
    ∃ r, hostTarget off width = .ok r := by
  obtain ⟨hw, ha, hoff⟩ : width = 4 ∧ off % 4 = 0 ∧ ¬ (off = 0x1C ∨ 0x44 ≤ off) := by simpa using h
  obtain ⟨r, hr⟩ := Option.ne_none_iff_exists'.mp ((hostRegAt_eq_none_iff ha).not.mpr hoff)
  exact ⟨r, by simp [hostTarget, hw, ha, hr]⟩

theorem hostRead_of_error {off width : Nat} {e : Refusal} (h : hostTarget off width = .error e) (s : State) :
    hostRead off width s = .refused e := by
  simp [hostRead, h]

theorem hostWrite_of_error {off width : Nat} {e : Refusal} (h : hostTarget off width = .error e) (v : Word)
    (s : State) : hostWrite off width v s = .refused e := by
  simp [hostWrite, h]

theorem hostRead_of_ok {off width : Nat} {r : HostReg} (h : hostTarget off width = .ok r) (s : State) :
    hostRead off width s = .next (logRead (readHostReg r s) s) := by
  simp [hostRead, h]

theorem hostWrite_of_ok {off width : Nat} {r : HostReg} (h : hostTarget off width = .ok r) (v : Word) (s : State) :
    hostWrite off width v s =
      if r = .cmd then runCommand v s else andThen (finishRunning s) fun t => .next (writeHostReg r v t) := by
  cases r <;> simp [hostWrite, h]

/-- A write that names a register takes effect from a state of the invariant: a CMD write by what its operation does,
any other once the operation in progress has ended (rule R40). -/
theorem BlockInv.hostWrite_next {s : State} (h : BlockInv s) {off width : Nat} {r : HostReg}
    (hr : hostTarget off width = .ok r) (v : Word) : ∃ t, hostWrite off width v s = .next t := by
  rw [hostWrite_of_ok hr]
  split
  · exact h.runCommand_next v
  · obtain ⟨t, ht, -⟩ := h.finishRunning_next
    exact ⟨writeHostReg r v t, by rw [ht, andThen_next]⟩

theorem step_of_agenda {s : State} {a : Action} {rest : List Action} (h : s.agenda = a :: rest) :
    step s = runAction a { s with agenda := rest } := by
  simp [step, runNext, h]

/-- Settles O11: an access off the map has no target and is refused; any other has one, and from a state of the invariant
the operation a write waits for, and the one it issues, run to their end. -/
theorem hostAccessIsRefusedExactlyOffTheMap : Obligations.HostAccessIsRefusedExactlyOffTheMap := by
  intro s off width v rest bad
  refine ⟨fun hbad ha => ?_, fun hbad ha => ?_, fun hok ha => ?_, fun hok hInv ha => ?_⟩ <;> rw [step_of_agenda ha]
  · obtain ⟨e, he⟩ := hostTarget_of_offTheMap hbad
    exact ⟨e, hostRead_of_error he _⟩
  · obtain ⟨e, he⟩ := hostTarget_of_offTheMap hbad
    exact ⟨e, hostWrite_of_error he v _⟩
  · obtain ⟨r, hr⟩ := hostTarget_of_not_offTheMap hok
    exact ⟨_, hostRead_of_ok hr _⟩
  · obtain ⟨r, hr⟩ := hostTarget_of_not_offTheMap hok
    exact (hInv.with_agenda rest).hostWrite_next hr v

end Sys2Proof.Machine
end

section
/-! Illegal command words: what the decoder refuses, and the fault a CMD write of one takes (30_encoding.md rules R66,
R67). -/

namespace Sys2Proof

/-! ## Words the decoder refuses -/

/-- A row of the decoder calls unused fields 0 exactly where the table of rule R65 accepts them. -/
theorem wellFormed_of_opCandidate {op a b : Byte} {p z : Bool} {i : Instr}
    (h : opCandidate op a b p = some (z, i)) : (CommandFields.mk op a b 0 p).wellFormed = z := by
  have hop : op = BitVec.ofNat 8 op.toNat := by simp
  unfold opCandidate at h
  split at h
  case h_19 => cases h
  all_goals
    rename_i hn
    obtain ⟨rfl, -⟩ := Prod.mk.inj (Option.some.inj h)
    rw [hop, hn]
    simp [CommandFields.wellFormed, opRow?, opRows, OpRow.accepts, Bool.and_assoc]

/-- A word that decodes is legal (rules R66, R67). -/
theorem wellFormed_of_decodeWord {w : Word} {i : Instr} (h : decodeWord w = .ok i) :
    (wordFields w).wellFormed = true := by
  unfold decodeWord at h
  split at h
  · cases h
  · rename_i z j hc
    by_cases hrsv : wordRsv w = 0
    · cases z with
      | false => simp [hrsv] at h
      | true => simpa [wordFields, hrsv] using wellFormed_of_opCandidate hc
    · rw [if_pos (bne_iff_ne.mpr hrsv)] at h
      cases h

theorem decodeWord_eq_error_of_illegal {w : Word} (h : (wordFields w).wellFormed = false) :
    ∃ e, decodeWord w = .error e := by
  cases hd : decodeWord w with
  | error e => exact ⟨e, rfl⟩
  | ok i => simp [wellFormed_of_decodeWord hd] at h

/-! ## Two ways to be illegal -/

theorem wellFormed_of_opRow?_none {c : CommandFields} (h : opRow? c.op = none) : c.wellFormed = false := by
  simp [CommandFields.wellFormed, h]

theorem wellFormed_of_opRow?_some {c : CommandFields} {r : OpRow} (h : opRow? c.op = some r) :
    c.wellFormed = r.accepts c := by
  simp [CommandFields.wellFormed, h]

/-- The operation codes outside the table of rule R65, range by range as rule R67 lists them. -/
abbrev UnassignedOp (op : Nat) : Prop :=
  op = 0x00 ∨ (0x07 ≤ op ∧ op ≤ 0x0F) ∨ (0x13 ≤ op ∧ op ≤ 0x1F) ∨ (0x25 ≤ op ∧ op ≤ 0x2F) ∨
    (0x31 ≤ op ∧ op ≤ 0x3F) ∨ (0x42 ≤ op ∧ op ≤ 0x6F) ∨ (0x71 ≤ op ∧ op ≤ 0xFF)

/-- No row of the table lies in a range of rule R67. -/
theorem opRow?_of_unassignedOp {op : Byte} (h : UnassignedOp op.toNat) : opRow? op = none := by
  have table : ∀ r ∈ opRows, ¬ UnassignedOp r.op.toNat := by decide
  refine List.find?_eq_none.mpr fun r hr heq => table r hr ?_
  rwa [eq_of_beq heq]

/-- Rule R66, field by field. -/
theorem OpRow.accepts_eq_false_iff (r : OpRow) (c : CommandFields) :
    r.accepts c = false ↔ c.rsv ≠ 0 ∨ (r.usesA = false ∧ c.a ≠ 0) ∨ (r.usesB = false ∧ c.b ≠ 0) ∨
      (r.usesP = false ∧ c.p = true) := by
  simp [OpRow.accepts, Decidable.imp_iff_not_or, or_assoc]

end Sys2Proof

namespace Sys2Proof.Machine

/-! ## The fault -/

/-- FAULT_ARG bits 15:8 are FIELD (rule R22). -/
@[simp] theorem faultArgOf_field (f : FaultRec) : (faultArgOf f).extractLsb' 8 8 = f.field := by
  apply BitVec.eq_of_getLsbD_eq
  intro i hi
  have : 8 + i < 16 := by omega
  simp [faultArgOf, hi, this]

/-- FAULT_ARG bits 7:0 are VALUE (rule R22). -/
@[simp] theorem faultArgOf_value (f : FaultRec) : (faultArgOf f).extractLsb' 0 8 = f.value := by
  apply BitVec.eq_of_getLsbD_eq
  intro i hi
  have : i < 16 := by omega
  simp [faultArgOf, hi, this]

/-- An illegal word is not performed: an accepting block takes F_ILLEGAL_OP (rules R66, R67, R149). -/
theorem runCommand_of_illegal {w : Word} {s : State} (hA : Accepting s) (h : (wordFields w).wellFormed = false) :
    runCommand w s = .next (raiseFault w ⟨.illegalOp, noField, wordOp w⟩ s) := by
  obtain ⟨hf, hr⟩ := hA
  obtain ⟨e, he⟩ := decodeWord_eq_error_of_illegal h
  simp only [runCommand, he]
  exact runOp_fault w hr hf rfl

theorem step_of_cmdWrite {s : State} {w : Word} {rest : List Action} (h : s.agenda = .write 0x00 4 w :: rest) :
    step s = runCommand w { s with agenda := rest } := by
  rw [step_of_agenda h]
  exact hostWrite_of_ok (off := 0x00) (width := 4) (r := .cmd) rfl w _

/-- Settles O5: a code in a range of rule R67 has no row, so its word is illegal whatever its other fields. -/
theorem unassignedOpcodeRaisesIllegalOp : Obligations.UnassignedOpcodeRaisesIllegalOp := by
  intro s w rest hA ha hop
  rw [step_of_cmdWrite ha]
  exact runCommand_of_illegal (s := { s with agenda := rest }) hA
    (wellFormed_of_opRow?_none (opRow?_of_unassignedOp hop))

/-- Settles O6: the row of the word's code does not accept its fields, so the word is illegal. -/
theorem nonzeroUnusedFieldRaisesIllegalOp : Obligations.NonzeroUnusedFieldRaisesIllegalOp := by
  intro s w r rest hA ha hrow hbad
  have illegal : (wordFields w).wellFormed = false :=
    (wellFormed_of_opRow?_some hrow).trans ((r.accepts_eq_false_iff (wordFields w)).mpr hbad)
  refine ⟨_, (step_of_cmdWrite ha).trans (runCommand_of_illegal (s := { s with agenda := rest }) hA illegal), ?_,
    faultArgOf_field _, faultArgOf_value _⟩
  simp [raiseFault, hA.2]

end Sys2Proof.Machine
end

section
/-! The raw bus operations and register transactions (40_bus_transport.md rules R96 to R102): on a ready block each
leaves the closed form of its procedure, and a block that is not configured takes F_NOT_CONFIGURED. -/

namespace Sys2Proof.Machine

/-- A line operation on a block that is not configured takes the fault of rule R148 and does nothing else. -/
theorem takesNotConfigured_of_plan {i : Instr} {body : List Micro} (hp : planOf i = whenConfigured body) {s : State}
    (hA : Accepting s) (hcfg : s.configured = false) : TakesNotConfigured i s := by
  obtain ⟨hf, hr⟩ := hA
  have fails : planOf i s = .error ⟨.notConfigured, noField, 0⟩ := by simp [hp, whenConfigured, hcfg]
  rw [TakesNotConfigured, exec_eq_runOp, runOp_fault _ hr hf fails]
  simp [raiseFault, faultArgOf, noField, hr]

/-- Settles O25: its body is `proc_reset`. -/
theorem busResetDrivesCeAndSclkLow : Obligations.BusResetDrivesCeAndSclkLow := by
  intro s
  refine ⟨fun hR => ?_, takesNotConfigured_of_plan rfl⟩
  have ⟨_, hr, _, hl⟩ := hR
  refine runOp_of_ready (body := procReset) _ hR (runMicros_procReset hl) ?_
  simp [advance, afterReset, resetEvents, driveEvent, hr]

/-- Settles O26: its body is `proc_start`, which sends any command byte as given. -/
theorem busStartOpensAFrame : Obligations.BusStartOpensAFrame := by
  intro c s
  refine ⟨fun hR => ?_, takesNotConfigured_of_plan rfl⟩
  have ⟨_, hr, hcfg, hl⟩ := hR
  refine runOp_of_ready (body := procStart (.lit c)) _ hR (runMicros_procStart _ hcfg hl (timerIdle_beginOp _ _ _)) ?_
  simp [advance, afterStart, srcByte, hr]

/-- BUS_WRITE_BYTE on a ready block leaves what `proc_shift_out` leaves, CE being high or low (rules R92, R98). -/
theorem exec_busWriteByte_of_ready (b : Byte) {s : State} (hR : Ready s) :
    exec (.busWriteByte b) s = .next { afterShiftOut b s with ok := true } := by
  have ⟨_, hr, hcfg, _, hsclk⟩ := hR
  refine runOp_of_ready (body := procShiftOut (.lit b) .xfer) _ hR
    (runMicros_procShiftOut _ _ hcfg hsclk (timerIdle_beginOp _ _ _)) ?_
  simp [advance, afterShiftOut, settledBus, srcByte, hr]

/-- Settles O27. -/
theorem busWriteByteShiftsOut : Obligations.BusWriteByteShiftsOut :=
  fun b _ => ⟨exec_busWriteByte_of_ready b, takesNotConfigured_of_plan rfl⟩

/-- BUS_READ_BYTE on a ready block leaves what `proc_shift_in` leaves, the drawn byte in RESULT (rules R93, R99). -/
theorem exec_busReadByte_of_ready {s : State} (hR : Ready s) :
    exec .busReadByte s = .next { afterShiftIn s with ok := true, result := drawnByte s 0 } := by
  have ⟨_, hr, hcfg, _, hsclk⟩ := hR
  let body := procShiftIn ++ [.resultAcc none]
  let s₀ := beginOp (commandWord .busReadByte) (okBody body) s
  have run : runMicros body s₀ = .next { advance 41 (afterShiftIn s₀) with result := drawnByte s 0 } := by
    rw [runMicros_append, runMicros_procShiftIn (s := s₀) hcfg hsclk (timerIdle_beginOp _ _ _)]
    rfl
  refine runOp_of_ready _ hR run ?_
  simp [s₀, beginOp, advance, afterShiftIn, settledBus, drawnByte, draw, hr]

/-- Sample k becomes bit k (rules R47, R93). -/
theorem getLsbD_drawnByte (s : State) {k : Nat} (hk : k < 8) : (drawnByte s 0).getLsbD k = draw s k := by
  have bit := congrArg (·.getD k false) (drawnByte_bits s)
  interval_cases k <;> exact bit

/-- Settles O28: RESULT is the drawn byte, whose bit k is sample k. -/
theorem busReadByteAssemblesSamples : Obligations.BusReadByteAssemblesSamples := fun _ =>
  ⟨fun hR => ⟨_, exec_busReadByte_of_ready hR, rfl, fun _ => getLsbD_drawnByte _⟩, takesNotConfigured_of_plan rfl⟩

/-- Settles O29. -/
theorem registerTransactionsRun : Obligations.RegisterTransactionsRun := fun c v _ =>
  ⟨fun hR => ⟨exec_writeReg_of_ready c v hR, exec_readReg_of_ready c hR⟩,
    fun hA hcfg => ⟨takesNotConfigured_of_plan rfl hA hcfg, takesNotConfigured_of_plan rfl hA hcfg⟩⟩

/-- A byte is known by its bits. -/
theorem bitsLsbFirst_injective : Function.Injective bitsLsbFirst := by
  intro a b h
  refine BitVec.eq_of_getLsbD_eq fun k hk => ?_
  have bit := congrArg (·.getD k false) h
  interval_cases k <;> exact bit

/-- Settles O35: a shift-out drives IO through the bits of `b`, so the next eight draws are those bits, and the byte
they spell has the bits of `b`. -/
theorem loopbackReproducesTheByte : Obligations.LoopbackReproducesTheByte := by
  rintro b s t hR hwrite ⟨es, hes, hloop⟩
  rw [exec_busWriteByte_of_ready b hR] at hwrite
  injection hwrite with ht
  have htrace : t.trace = s.trace ++ shiftOutEvents s.pins s.io.lvl b := by rw [← ht]; rfl
  have hdraws : bitsLsbFirst b =
      [draw t 0, draw t 1, draw t 2, draw t 3, draw t 4, draw t 5, draw t 6, draw t 7] := by
    rw [← hloop, ← List.append_cancel_left (htrace.symm.trans hes), ioLevels_shiftOutEvents]
  have hready : Ready t := by rw [← ht]; exact hR
  exact ⟨_, exec_busReadByte_of_ready hready, bitsLsbFirst_injective ((drawnByte_bits t).trans hdraws.symm)⟩

end Sys2Proof.Machine
end

section
/-! Events, BUS_STATE and BITIDX of the procedures and transactions (40_bus_transport.md rule R103, 10_state.md rules
R30, R31). -/

namespace Sys2Proof.Machine

/-! ## The events of a run -/

/-- The event a micro-step is, with the pin its role resolves to; none for an internal assignment (rules R85, R86). -/
def microEvents (m : Micro) (s : State) : List Event :=
  match m with
  | .drive r b => [.drive r (pinOf s r) b]
  | .driveBit i => [.drive .io (pinOf s .io) (s.shift.getLsbD i.toNat)]
  | .setDir r .output => [.setOut r (pinOf s r) (getPin s r).lvl]
  | .setDir r .floating => [.setIn r (pinOf s r)]
  | .sample => [.sample (pinOf s .io) (draw s 0)]
  | .delay => [.delay]
  | .setBus _ | .settleBus | .setBit _ | .loadShift _ | .clearAcc | .orAcc _ => []
  | .setResult _ | .resultAcc _ | .dtAcc _ | .latchPins | .setConfigured | .setOk _ => []

theorem trace_microEffect (m : Micro) (s : State) : (microEffect m s).trace = s.trace ++ microEvents m s := by
  cases m with
  | drive r b => cases r <;> rfl
  | setDir r d => cases r <;> cases d <;> rfl
  | driveBit | sample | delay => rfl
  | resultAcc f => cases f <;> exact (List.append_nil _).symm
  | _ => exact (List.append_nil _).symm

/-- The events of a run, in order. -/
def runEvents : List Micro → State → List Event
  | [], _ => []
  | m :: ms, s => microEvents m s ++ runEvents ms (microEffect m s)

/-- A run that ends adds its events to the trace. -/
theorem trace_runMicros {ms : List Micro} {s t : State} (h : runMicros ms s = .next t) :
    t.trace = s.trace ++ runEvents ms s := by
  induction ms generalizing s with
  | nil => cases h; exact (List.append_nil _).symm
  | cons m ms ih =>
    obtain ⟨u, hu, h⟩ := andThen_eq_next h
    obtain ⟨-, rfl⟩ := perform_eq_next hu
    rw [ih h, trace_microEffect, List.append_assoc, runEvents]

/-- The events, `Delay` and `Sample` events among micro-steps. -/
def eventCounts (ms : List Micro) : Nat × Nat × Nat := (ms.countP (·.isEvent), ms.count .delay, ms.count .sample)

/-- The lengths that `AddsEvents` speaks of. -/
def traceCounts (es : List Event) : Nat × Nat × Nat := (es.length, delayCount es, sampleCount es)

theorem eventCounts_append (ms ns : List Micro) : eventCounts (ms ++ ns) = eventCounts ms + eventCounts ns := by
  simp [eventCounts]

theorem traceCounts_append (es fs : List Event) : traceCounts (es ++ fs) = traceCounts es + traceCounts fs := by
  simp [traceCounts, delayCount, sampleCount]

/-- A micro-step is one event or none, of its own kind. -/
theorem traceCounts_microEvents (m : Micro) (s : State) : traceCounts (microEvents m s) = eventCounts [m] := by
  cases m with
  | setDir r d => cases d <;> rfl
  | _ => rfl

theorem traceCounts_runEvents (ms : List Micro) (s : State) : traceCounts (runEvents ms s) = eventCounts ms := by
  induction ms generalizing s with
  | nil => rfl
  | cons m ms ih =>
    rw [runEvents, traceCounts_append, traceCounts_microEvents, ih, ← eventCounts_append, List.singleton_append]

/-- A run that ends adds the events that stand among its micro-steps. -/
theorem addsEvents_of_eventCounts {ms : List Micro} {s t : State} (h : runMicros ms s = .next t) {e d n : Nat}
    (hc : eventCounts ms = (e, d, n)) : AddsEvents s t e d n := by
  rw [← traceCounts_runEvents ms s] at hc
  exact ⟨runEvents ms s, trace_runMicros h, by simpa [traceCounts] using hc⟩

/-! ### The counts of rule R103 -/

section counts
variable (src cmd v : ByteSrc) (phase : BusState)

@[simp] theorem eventCounts_procReset : eventCounts procReset = (2, 0, 0) := rfl

@[simp] theorem eventCounts_procShiftOut : eventCounts (procShiftOut src phase) = (49, 24, 0) := rfl

@[simp] theorem eventCounts_procShiftIn : eventCounts procShiftIn = (41, 16, 8) := rfl

@[simp] theorem eventCounts_procStart : eventCounts (procStart src) = (53, 26, 0) := by
  rw [procStart, eventCounts_append, eventCounts_procShiftOut]
  rfl

@[simp] theorem eventCounts_devWrite : eventCounts (devWrite cmd v) = (104, 50, 0) := by
  simp [devWrite, eventCounts_append]

@[simp] theorem eventCounts_devRead : eventCounts (devRead cmd) = (96, 42, 8) := by
  simp [devRead, eventCounts_append]

end counts

/-! ## The phases of a run -/

namespace PhaseView

/-- The phase view after a run. -/
def after (ms : List Micro) (p : PhaseView) : PhaseView := ms.foldl (fun p m => p.next m) p

@[simp] theorem after_append (ms ns : List Micro) (p : PhaseView) : after (ms ++ ns) p = after ns (after ms p) :=
  List.foldl_append

@[simp] theorem events_append (ms ns : List Micro) (p : PhaseView) :
    events (ms ++ ns) p = events ms p ++ events ns (after ms p) := by
  induction ms generalizing p with
  | nil => rfl
  | cons m ms ih => simp [events, ih, after]

/-- The values BUS_STATE passes through in a run. -/
def path (ms : List Micro) (p : PhaseView) : List BusState := dropRepeats (p.bus :: states ms p)

/-- A micro-step lengthens the path exactly where it changes BUS_STATE. -/
theorem path_cons (m : Micro) (ms : List Micro) (p : PhaseView) :
    path (m :: ms) p = if p.bus = (p.next m).bus then path ms (p.next m) else p.bus :: path ms (p.next m) := rfl

section cells
variable (i : BitVec 3) (p : PhaseView) (ms : List Micro)

theorem after_cellOut : after (cellOut i) p = ⟨p.bus, i, p.ceHigh⟩ := rfl
theorem after_cellIn : after (cellIn i) p = ⟨p.bus, i, p.ceHigh⟩ := rfl
theorem events_cellOut : events (cellOut i) p = List.replicate 6 (p.bus, i) := rfl
theorem events_cellIn : events (cellIn i) p = List.replicate 5 (p.bus, i) := rfl

theorem path_cellOut : path (cellOut i ++ ms) p = path ms ⟨p.bus, i, p.ceHigh⟩ := by
  simp [cellOut, path_cons, next]

theorem path_cellIn : path (cellIn i ++ ms) p = path ms ⟨p.bus, i, p.ceHigh⟩ := by
  simp [cellIn, path_cons, next]

/-- Eight bit cells keep BUS_STATE and leave BITIDX at the last one (rule R31). -/
@[simp] theorem after_cellsOut : after (cells.flatMap cellOut) p = ⟨p.bus, 7, p.ceHigh⟩ := rfl
@[simp] theorem after_cellsIn : after (cells.flatMap cellIn) p = ⟨p.bus, 7, p.ceHigh⟩ := rfl

@[simp] theorem events_cellsOut : events (cells.flatMap cellOut) p = cellPhases p.bus 6 := by
  simp only [cells, cellPhases, List.flatMap_cons, List.flatMap_nil, events_append, events_cellOut, after_cellOut]
  rfl

@[simp] theorem events_cellsIn : events (cells.flatMap cellIn) p = cellPhases p.bus 5 := by
  simp only [cells, cellPhases, List.flatMap_cons, List.flatMap_nil, events_append, events_cellIn, after_cellIn]
  rfl

@[simp] theorem path_cellsOut : path (cells.flatMap cellOut ++ ms) p = path ms ⟨p.bus, 7, p.ceHigh⟩ := by
  simp [cells, path_cellOut]

@[simp] theorem path_cellsIn : path (cells.flatMap cellIn ++ ms) p = path ms ⟨p.bus, 7, p.ceHigh⟩ := by
  simp [cells, path_cellIn]

end cells

section procedures
variable (p : PhaseView) (src : ByteSrc) (phase : BusState) (ms : List Micro)

@[simp] theorem after_procReset : after procReset p = ⟨.idle, p.bit, false⟩ := rfl

@[simp] theorem after_procShiftOut :
    after (procShiftOut src phase) p = ⟨if p.ceHigh then .started else .idle, 7, p.ceHigh⟩ := by
  rw [← cond_eq_ite]
  rfl

@[simp] theorem after_procShiftIn :
    after procShiftIn p = ⟨if p.ceHigh then .started else .idle, 7, p.ceHigh⟩ := by
  rw [← cond_eq_ite]
  rfl

@[simp] theorem after_procStart : after (procStart src) p = ⟨.started, 7, true⟩ := rfl

@[simp] theorem events_procReset : events procReset p = [(.reset, p.bit), (.reset, p.bit)] := rfl

@[simp] theorem events_procShiftOut :
    events (procShiftOut src phase) p = (p.bus, p.bit) :: cellPhases phase 6 := by
  simp [procShiftOut, events, next, Micro.isEvent]

@[simp] theorem events_procShiftIn : events procShiftIn p = (p.bus, p.bit) :: cellPhases .xfer 5 := by
  simp [procShiftIn, events, next, Micro.isEvent]

@[simp] theorem events_procStart :
    events (procStart src) p = List.replicate 5 (.reset, p.bit) ++ cellPhases .cmd 6 := by
  simp [procStart, events, next, Micro.isEvent]

theorem path_procStart (i : BitVec 3) (ce : Bool) :
    path (procStart src ++ ms) ⟨.idle, i, ce⟩ = .idle :: .reset :: .cmd :: path ms ⟨.started, 7, true⟩ := by
  simp [procStart, procShiftOut, path_cons, next]

theorem path_procShiftOut (i : BitVec 3) :
    path (procShiftOut src .xfer ++ ms) ⟨.started, i, true⟩ = .started :: .xfer :: path ms ⟨.started, 7, true⟩ := by
  simp [procShiftOut, path_cons, next]

theorem path_procShiftIn (i : BitVec 3) :
    path (procShiftIn ++ ms) ⟨.started, i, true⟩ = .started :: .xfer :: path ms ⟨.started, 7, true⟩ := by
  simp [procShiftIn, path_cons, next]

theorem path_procReset (i : BitVec 3) : path procReset ⟨.started, i, true⟩ = [.started, .reset, .idle] := rfl

end procedures

section transactions
variable (p : PhaseView) (cmd v : ByteSrc)

@[simp] theorem after_devWrite : after (devWrite cmd v) p = ⟨.idle, 7, false⟩ := by simp [devWrite]

@[simp] theorem after_devRead : after (devRead cmd) p = ⟨.idle, 7, false⟩ := by simp [devRead]

theorem events_devWrite : events (devWrite cmd v) p =
    List.replicate 5 (.reset, p.bit) ++ cellPhases .cmd 6 ++ [(.started, 7)] ++ cellPhases .xfer 6 ++
      [(.reset, 7), (.reset, 7)] := by
  simp [devWrite]

theorem events_devRead : events (devRead cmd) p =
    List.replicate 5 (.reset, p.bit) ++ cellPhases .cmd 6 ++ [(.started, 7)] ++ cellPhases .xfer 5 ++
      [(.reset, 7), (.reset, 7)] := by
  simp [devRead]

theorem path_devWrite (i : BitVec 3) (ce : Bool) : path (devWrite cmd v) ⟨.idle, i, ce⟩ =
    [.idle, .reset, .cmd, .started, .xfer, .started, .reset, .idle] := by
  rw [devWrite, List.append_assoc, path_procStart, path_procShiftOut, path_procReset]

theorem path_devRead (i : BitVec 3) (ce : Bool) : path (devRead cmd) ⟨.idle, i, ce⟩ =
    [.idle, .reset, .cmd, .started, .xfer, .started, .reset, .idle] := by
  rw [devRead, List.append_assoc, path_procStart, path_procShiftIn, path_procReset]

end transactions

end PhaseView

theorem busPath_eq (ms : List Micro) (s : State) : busPath ms s = (phaseView s).path ms := by
  rw [busPath, busStates_eq]
  rfl

/-- From IDLE the path of BUS_STATE depends on neither BITIDX nor CE, where the phase view's does not. -/
theorem busPath_of_idle {ms : List Micro} {l : List BusState} (hl : ∀ i ce, PhaseView.path ms ⟨.idle, i, ce⟩ = l)
    {s : State} (hs : s.busState = .idle) : busPath ms s = l := by
  rw [busPath_eq, phaseView, hs, hl]

/-- A run that ends, told by its micro-steps: what it adds to the trace, the phase it leaves, the phases at its
events. -/
theorem counts_and_phases_of_run {ms : List Micro} {s t : State} {e d n : Nat} {bus : BusState} {bit : BitVec 3}
    {ceHigh : Bool} {l : List Phase} (h : runMicros ms s = .next t) (hc : eventCounts ms = (e, d, n))
    (ha : (phaseView s).after ms = ⟨bus, bit, ceHigh⟩) (hl : (phaseView s).events ms = l) :
    AddsEvents s t e d n ∧ phaseOf t = (bus, bit) ∧ eventPhases ms s = l := by
  refine ⟨addsEvents_of_eventCounts h hc, ?_, by rw [eventPhases_eq, hl]⟩
  rw [phaseOf_eq, phaseView_runMicros h, ← PhaseView.after, ha]

open PhaseView in
/-- Settles O36: the counts are those of the events among the micro-steps; the phases follow from BUS_STATE, BITIDX and
the level of CE alone, procedure by procedure. -/
theorem eventCountsOfTheProcedures : Obligations.EventCountsOfTheProcedures := by
  intro s t c v phase settled b i
  refine ⟨fun h => ?reset, fun h => ?shiftOut, fun h => ?shiftIn, fun h => ?start, fun h => ?write, fun h => ?read⟩
  case reset =>
    exact counts_and_phases_of_run h eventCounts_procReset (after_procReset _) (events_procReset _)
  case shiftOut =>
    exact counts_and_phases_of_run h (eventCounts_procShiftOut v phase) (after_procShiftOut ..) (events_procShiftOut ..)
  case shiftIn =>
    exact counts_and_phases_of_run h eventCounts_procShiftIn (after_procShiftIn _) (events_procShiftIn _)
  case start =>
    exact counts_and_phases_of_run h (eventCounts_procStart c) (after_procStart ..) (events_procStart ..)
  case write =>
    obtain ⟨counts, final, phases⟩ :=
      counts_and_phases_of_run h (eventCounts_devWrite c v) (after_devWrite ..) (events_devWrite ..)
    exact ⟨counts, final, phases, busPath_of_idle (path_devWrite c v)⟩
  case read =>
    obtain ⟨counts, final, phases⟩ :=
      counts_and_phases_of_run h (eventCounts_devRead c) (after_devRead ..) (events_devRead ..)
    exact ⟨counts, final, phases, busPath_of_idle (path_devRead c)⟩

end Sys2Proof.Machine
end

section
/-! The pin of every event (40_bus_transport.md rule R88): PINS changes only in the first micro-step of CONFIGURE,
before its first event, and only IO is ever made a floating input. -/

namespace Sys2Proof.Machine

/-! ## Events under a pin assignment -/

/-- An event of an operation, on the pin that a pin assignment gives its role. -/
def ResolvesTo (pins : BitVec 24) (e : Event) : Prop :=
  e = .delay ∨ (∃ r b, e = .drive r (rolePin pins r) b) ∨ (∃ r b, e = .setOut r (rolePin pins r) b) ∨
    e = .setIn .io (rolePin pins .io) ∨ ∃ b, e = .sample (rolePin pins .io) b

/-- A micro-step that leaves PINS alone and floats no line but IO. -/
def Micro.keepsPins : Micro → Bool
  | .latchPins | .setDir .ce .floating | .setDir .sclk .floating => false
  | .drive _ _ | .driveBit _ | .setDir _ .output | .setDir .io .floating | .sample | .delay => true
  | .setBus _ | .settleBus | .setBit _ | .loadShift _ | .clearAcc | .orAcc _ => true
  | .setResult _ | .resultAcc _ | .dtAcc _ | .setConfigured | .setOk _ => true

theorem pins_microEffect {m : Micro} (hm : m.keepsPins = true) (s : State) : (microEffect m s).pins = s.pins := by
  cases m with
  | latchPins => cases hm
  | drive r b => cases r <;> rfl
  | setDir r d => cases r <;> cases d <;> rfl
  | resultAcc f => cases f <;> rfl
  | _ => rfl

theorem resolvesTo_microEvents {m : Micro} (hm : m.keepsPins = true) {s : State} {e : Event}
    (he : e ∈ microEvents m s) : ResolvesTo s.pins e := by
  cases m with
  | drive r b => exact .inr (.inl ⟨r, b, List.mem_singleton.mp he⟩)
  | driveBit i => exact .inr (.inl ⟨.io, _, List.mem_singleton.mp he⟩)
  | setDir r d =>
    cases d with
    | output => exact .inr (.inr (.inl ⟨r, _, List.mem_singleton.mp he⟩))
    | floating =>
      cases r with
      | io => exact .inr (.inr (.inr (.inl (List.mem_singleton.mp he))))
      | ce | sclk => cases hm
  | sample => exact .inr (.inr (.inr (.inr ⟨_, List.mem_singleton.mp he⟩)))
  | delay => exact .inl (List.mem_singleton.mp he)
  | _ => cases he

/-- Micro-steps none of which touches PINS or floats CE or SCLK. -/
def KeepPins (ms : List Micro) : Prop := ∀ m ∈ ms, m.keepsPins = true

theorem pins_runMicros {ms : List Micro} (hms : KeepPins ms) {s t : State} (h : runMicros ms s = .next t) :
    t.pins = s.pins := by
  induction ms generalizing s with
  | nil => cases h; rfl
  | cons m ms ih =>
    obtain ⟨hm, hms⟩ := List.forall_mem_cons.mp hms
    obtain ⟨u, hu, h⟩ := andThen_eq_next h
    obtain ⟨-, rfl⟩ := perform_eq_next hu
    rw [ih hms h, pins_microEffect hm]

theorem resolvesTo_runEvents {ms : List Micro} (hms : KeepPins ms) {s : State} {e : Event}
    (he : e ∈ runEvents ms s) : ResolvesTo s.pins e := by
  induction ms generalizing s with
  | nil => cases he
  | cons m ms ih =>
    obtain ⟨hm, hms⟩ := List.forall_mem_cons.mp hms
    obtain he | he := List.mem_append.mp he
    · exact resolvesTo_microEvents hm he
    · rw [← pins_microEffect hm]
      exact ih hms he

/-- Only events on the pins that PINS gives in `t` lie between the traces of `s` and `t`. -/
def AddsResolvedEvents (s t : State) : Prop :=
  ∃ es, t.trace = s.trace ++ es ∧ ∀ e ∈ es, ResolvesTo t.pins e

theorem addsResolvedEvents_of_trace_eq {s t : State} (h : t.trace = s.trace) : AddsResolvedEvents s t :=
  ⟨[], by rw [h, List.append_nil], nofun⟩

theorem KeepPins.addsResolvedEvents {ms : List Micro} (hms : KeepPins ms) {s t : State}
    (h : runMicros ms s = .next t) : AddsResolvedEvents s t := by
  refine ⟨runEvents ms s, trace_runMicros h, fun e he => ?_⟩
  rw [pins_runMicros hms h]
  exact resolvesTo_runEvents hms he

/-! ## The bodies of the operations -/

/-- A body that writes PINS, if at all, before its first event. -/
def LatchesFirst (body : List Micro) : Prop := KeepPins body ∨ ∃ ms, body = .latchPins :: ms ∧ KeepPins ms

theorem LatchesFirst.addsResolvedEvents {body : List Micro} (hb : LatchesFirst body) {s t : State}
    (h : runMicros body s = .next t) : AddsResolvedEvents s t := by
  obtain hk | ⟨ms, rfl, hk⟩ := hb
  · exact hk.addsResolvedEvents h
  · exact hk.addsResolvedEvents (s := { s with pins := s.pincfg }) h

theorem KeepPins.append {ms ns : List Micro} (hm : KeepPins ms) (hn : KeepPins ns) : KeepPins (ms ++ ns) :=
  List.forall_mem_append.mpr ⟨hm, hn⟩

theorem KeepPins.flatMap {α : Type} {f : α → List Micro} (hf : ∀ a, KeepPins (f a)) (as : List α) :
    KeepPins (as.flatMap f) := by
  intro m hm
  obtain ⟨a, -, ha⟩ := List.mem_flatMap.mp hm
  exact hf a m ha

theorem KeepPins.okBody {ms : List Micro} (hm : KeepPins ms) : KeepPins (okBody ms) :=
  hm.append (by simp [KeepPins, Micro.keepsPins])

section procedures
variable (src cmd v : ByteSrc) (phase : BusState)

theorem keepPins_procReset : KeepPins procReset := List.all_eq_true.mp rfl

theorem keepPins_procShiftOut : KeepPins (procShiftOut src phase) := List.all_eq_true.mp rfl

theorem keepPins_procShiftIn : KeepPins procShiftIn := List.all_eq_true.mp rfl

theorem keepPins_procStart : KeepPins (procStart src) :=
  .append (List.all_eq_true.mp rfl) (keepPins_procShiftOut src .cmd)

theorem keepPins_devWrite : KeepPins (devWrite cmd v) :=
  ((keepPins_procStart cmd).append (keepPins_procShiftOut v .xfer)).append keepPins_procReset

theorem keepPins_devRead : KeepPins (devRead cmd) :=
  ((keepPins_procStart cmd).append keepPins_procShiftIn).append keepPins_procReset

theorem keepPins_resultAcc (f : Option Field) : KeepPins [.resultAcc f] := List.all_eq_true.mp rfl

theorem keepPins_resultBody (n : Nat) : KeepPins (resultBody n) := List.all_eq_true.mp rfl

theorem keepPins_getterBody (r : DevReg) (f : Field) : KeepPins (getterBody r f) :=
  ((keepPins_devRead _).append (keepPins_resultAcc _)).okBody

end procedures

/-! A codec operation that passes its checks only writes a result (41_register_codec.md section 5). -/

section codec
variable {s : State} {body : List Micro}

theorem planRangeMin_ok {a : Byte} (h : planRangeMin a s = .ok body) : ∃ n, body = resultBody n := by
  unfold planRangeMin at h
  split at h <;> cases h
  exact ⟨_, rfl⟩

theorem planRangeMax_ok {a : Byte} (h : planRangeMax a s = .ok body) : ∃ n, body = resultBody n := by
  unfold planRangeMax at h
  split at h
  · cases h
  · split at h <;> cases h
    exact ⟨_, rfl⟩

theorem planDateMax_ok {y m : Byte} (h : planDateMax y m s = .ok body) : ∃ n, body = resultBody n := by
  unfold planDateMax at h
  split at h
  · cases h
  · split at h <;> cases h
    exact ⟨_, rfl⟩

theorem planEncode_ok {a v : Byte} (h : planEncode a v s = .ok body) : ∃ n, body = resultBody n := by
  unfold planEncode at h
  split at h
  · cases h
  · split at h <;> cases h
    exact ⟨_, rfl⟩

theorem planDecode_ok {a p : Byte} (h : planDecode a p s = .ok body) : ∃ n, body = resultBody n := by
  unfold planDecode at h
  split at h <;> cases h
  exact ⟨_, rfl⟩

theorem latchesFirst_of_result (h : ∃ n, body = resultBody n) : LatchesFirst body := by
  obtain ⟨n, rfl⟩ := h
  exact .inl (keepPins_resultBody n)

theorem KeepPins.latchesFirst {b : List Micro} (hb : KeepPins b) (h : whenConfigured b s = .ok body) :
    LatchesFirst body := by
  obtain ⟨-, rfl⟩ := whenConfigured_ok h
  exact .inl hb

/-- The null form of an aggregate has the empty body of rule R152. -/
theorem latchesFirst_planGetDatetime {present : Bool} (h : planGetDatetime present s = .ok body) :
    LatchesFirst body := by
  cases present with
  | false => cases h; exact .inl (List.all_eq_true.mp rfl)
  | true =>
    have read (r : DevReg) : KeepPins (devRead (.cmdRd r) ++ [.dtAcc r]) :=
      (keepPins_devRead _).append (List.all_eq_true.mp rfl)
    exact (KeepPins.flatMap read _).okBody.latchesFirst h

theorem latchesFirst_planSetDatetime {present : Bool} (h : planSetDatetime present s = .ok body) :
    LatchesFirst body := by
  cases present with
  | false => cases h; exact .inl (List.all_eq_true.mp rfl)
  | true =>
    simp only [planSetDatetime, if_true] at h
    split at h
    · split at h <;> cases h
      exact .inl (KeepPins.flatMap (fun r => keepPins_devWrite (.cmdWr r) (.dt r)) _).okBody
    · cases h

/-- CONFIGURE latches PINS in its first micro-step (rule R146); its null form has no event. -/
theorem latchesFirst_planConfigure {present : Bool} (h : planConfigure present s = .ok body) :
    LatchesFirst body := by
  cases present with
  | false => cases h; exact .inl (List.all_eq_true.mp rfl)
  | true => cases h; exact .inr ⟨_, rfl, List.all_eq_true.mp rfl⟩

end codec

theorem latchesFirst_planOf {i : Instr} {s : State} {body : List Micro} (h : planOf i s = .ok body) :
    LatchesFirst body := by
  cases i with
  | busReset => exact keepPins_procReset.okBody.latchesFirst h
  | busStart c => exact (keepPins_procStart _).okBody.latchesFirst h
  | busWriteByte b => exact (keepPins_procShiftOut _ _).okBody.latchesFirst h
  | busReadByte => exact (keepPins_procShiftIn.append (keepPins_resultAcc _)).okBody.latchesFirst h
  | writeReg c v => exact (keepPins_devWrite _ _).okBody.latchesFirst h
  | readReg c => exact ((keepPins_devRead _).append (keepPins_resultAcc _)).okBody.latchesFirst h
  | getSeconds | getMinutes | getHours p => exact (keepPins_getterBody _ _).latchesFirst h
  | rangeMin f => exact latchesFirst_of_result (planRangeMin_ok (s := s) h)
  | rangeMax f => exact latchesFirst_of_result (planRangeMax_ok (s := s) h)
  | dateMax y m => exact latchesFirst_of_result (planDateMax_ok (s := s) h)
  | encode f v => exact latchesFirst_of_result (planEncode_ok (s := s) h)
  | decode f p => exact latchesFirst_of_result (planDecode_ok (s := s) h)
  | setWp p => exact (keepPins_devWrite _ _).okBody.latchesFirst h
  | getDatetime p => exact latchesFirst_planGetDatetime h
  | setDatetime p => exact latchesFirst_planSetDatetime h
  | configure p => exact latchesFirst_planConfigure (s := s) h
  | wireWrSeconds v | wireWrMinutes v | wireWrHours v | wireWrDate v | wireWrMonth v | wireWrWeekday v
  | wireWrYear v | wireWrWp v => exact (keepPins_devWrite _ _).latchesFirst h
  | wireRdSeconds | wireRdMinutes | wireRdHours | wireRdDate | wireRdMonth | wireRdWeekday | wireRdYear
  | wireRdWp => exact (keepPins_devRead _).latchesFirst h

/-! ## An instruction on an idle block -/

/-- An instruction that answers on an idle block is discarded, takes its fault, or has run its body (rules R89, R149,
R150). -/
theorem exec_idle_cases {i : Instr} {s t : State} (hr : s.running = none) (h : exec i s = .next t) :
    t = s ∨ (∃ f, planOf i s = .error f ∧ t = raiseFault (commandWord i) f s) ∨
      ∃ body u, planOf i s = .ok body ∧ runMicros body (beginOp (commandWord i) body s) = .next u ∧
        t = { u with running := none } := by
  rw [exec_eq_runOp] at h
  cases hf : s.fault with
  | true =>
    rw [runOp_discarded _ _ hr hf] at h
    injection h with h
    exact .inl h.symm
  | false =>
    cases hp : planOf i s with
    | error f =>
      rw [runOp_fault _ hr hf hp] at h
      injection h with h
      exact .inr (.inl ⟨f, rfl, h.symm⟩)
    | ok body =>
      rw [runOp_body _ hr hf hp] at h
      obtain ⟨u, hu, h⟩ := andThen_eq_next h
      injection h with h
      exact .inr (.inr ⟨body, u, rfl, hu, h.symm⟩)

/-- A discarded or faulting operation has no event; a body that runs has its events on the pins PINS gives at its
end. -/
theorem exec_addsResolvedEvents {i : Instr} {s t : State} (hr : s.running = none) (h : exec i s = .next t) :
    AddsResolvedEvents s t := by
  obtain rfl | ⟨f, -, rfl⟩ | ⟨body, u, hp, hu, rfl⟩ := exec_idle_cases hr h
  · exact addsResolvedEvents_of_trace_eq rfl
  · exact addsResolvedEvents_of_trace_eq rfl
  · have added : AddsResolvedEvents (beginOp (commandWord i) body s) u :=
      (latchesFirst_planOf hp).addsResolvedEvents hu
    exact added

/-- Settles O24: the statement spells `rolePin` out. -/
theorem eventsResolveThroughPins : Obligations.EventsResolveThroughPins := by
  intro i s t hr h pin
  have hpin : pin = rolePin t.pins := by
    funext r
    cases r <;> rfl
  rw [hpin]
  exact exec_addsResolvedEvents hr h

end Sys2Proof.Machine
end

section
/-! The register codec (41_register_codec.md): the packed layouts and the calendar as arithmetic, then the five codec
operations, each of which answers a result or takes its fault. -/

namespace Sys2Proof.Machine

/-! ## Field identifiers (rule R64) -/

@[simp] theorem fieldOf?_fieldId (f : Field) : fieldOf? (fieldId f) = some f := by cases f <;> rfl

theorem fieldOf?_eq_none {a : Byte} (h : 9 < a.toNat) : fieldOf? a = none := by
  unfold fieldOf?
  split
  case h_11 => rfl
  all_goals omega

/-! ## Ranges (rules R126, R127) -/

/-- The greatest value `in_range` accepts (rule R127): the static check of the day of the month is 31. -/
def staticMax (f : Field) : Nat := (rangeMaxOf f).getD 31

theorem inRange_iff {f : Field} {v : Byte} : inRange f v = true ↔ rangeMinOf f ≤ v.toNat ∧ v.toNat ≤ staticMax f := by
  simp [inRange, staticMax]

theorem inRange_eq_false_iff {f : Field} {v : Byte} :
    inRange f v = false ↔ v.toNat < rangeMinOf f ∨ staticMax f < v.toNat := by
  rw [← Bool.not_eq_true, inRange_iff]
  omega

/-- Only the day of the month has no maximum. -/
theorem staticMax_eq_ite (f : Field) : staticMax f = if f = .date then 31 else (rangeMaxOf f).getD 0 := by
  cases f <;> rfl

/-- Settles O38. -/
theorem rangeTableIsAsStated : Obligations.RangeTableIsAsStated := by
  refine ⟨fun f => ?_, fun f n h => ?_⟩
  · cases f <;> rfl
  · cases f <;> cases h <;> decide

/-! ## The calendar (rules R128, R129) -/

theorem leap_iff (y : Nat) : leap y = true ↔ y % 4 = 0 ∧ (y % 100 ≠ 0 ∨ y % 400 = 0) := by simp [leap]

theorem leap_iff_of_twoDigit {y : Nat} (h : y ≤ 99) : leap y = true ↔ y % 4 = 0 := by
  rw [leap_iff]
  omega

/-- Settles O42: of 0 to 99 only 0 is a multiple of 100, and it is one of 400. -/
theorem leapYearsAreTheMultiplesOfFour : Obligations.LeapYearsAreTheMultiplesOfFour :=
  ⟨leap_iff, fun _ => leap_iff_of_twoDigit⟩

theorem daysInMonth_of_month (y : Nat) {m : Nat} (hlo : 1 ≤ m) (hhi : m ≤ 12) :
    daysInMonth y m = some (if m = 2 then if leap y then 29 else 28
      else if m = 4 ∨ m = 6 ∨ m = 9 ∨ m = 11 then 30 else 31) := by
  interval_cases m <;> rfl

theorem daysInMonth_eq_none (y : Nat) {m : Nat} (h : m < 1 ∨ 12 < m) : daysInMonth y m = none := by
  unfold daysInMonth
  split
  case h_13 => rfl
  all_goals omega

/-! ## BCD digits (rules R104, R105) -/

/-- The mask of a tens digit of `k` bits above four units bits. -/
def tensMask (k : Nat) : Nat := (2 ^ k - 1) <<< 4

/-- A value whose tens digit fits its mask is packed as its two decimal digits. -/
theorem bcdEnc_tensMask {v k : Nat} (h : v / 10 < 2 ^ k) : bcdEnc v (tensMask k) 4 = v / 10 * 16 + v % 10 := by
  have tens : (v / 10) <<< 4 &&& tensMask k = (v / 10) <<< 4 := by
    rw [tensMask, ← Nat.shiftLeft_and_distrib, Nat.and_two_pow_sub_one_of_lt_two_pow h]
  rw [bcdEnc, tens, ← Nat.shiftLeft_add_eq_or_of_lt (by omega), Nat.shiftLeft_eq]

/-- Two decimal digits, the tens fitting their mask, are unpacked as their value. -/
theorem bcdDec_digits {t u k : Nat} (ht : t < 2 ^ k) (hu : u < 10) :
    bcdDec (t * 16 + u) 0x0F (tensMask k) 4 = u + t * 10 := by
  have units : (t * 16 + u) &&& 0x0F = u := by
    rw [Nat.and_two_pow_sub_one_eq_mod _ 4]
    omega
  have shifted : (t * 16 + u) >>> 4 = t := by
    rw [Nat.shiftRight_eq_div_pow]
    omega
  rw [bcdDec, units, Nat.shiftRight_and_distrib, shifted, tensMask, Nat.shiftLeft_shiftRight,
    Nat.and_two_pow_sub_one_of_lt_two_pow ht]

/-- On bytes the unpacking formula is computed without leaving the byte. -/
theorem ofNat_bcdDec (p um tm : Byte) (ts : Nat) :
    BitVec.ofNat 8 (bcdDec p.toNat um.toNat tm.toNat ts) = (p &&& um) + ((p &&& tm) >>> ts) * 10 := by
  apply BitVec.eq_of_toNat_eq
  simp [bcdDec]

/-! ## Layouts of the fields (rules R106 to R125) -/

/-- The bits of the tens digit in a field's BCD layout; the weekday and the two flags are not BCD. -/
def tensWidth : Field → Option Nat
  | .seconds | .minutes => some 3
  | .hours24 | .date => some 2
  | .hours12 | .month => some 1
  | .year => some 4
  | .weekday | .format | .ampm => none

section layouts
variable {f : Field} {k v : Nat}

theorem encNat_eq_bcdEnc (h : tensWidth f = some k) (v : Nat) : encNat f v = bcdEnc v (tensMask k) 4 := by
  cases f <;> cases h <;> rfl

theorem decNat_eq_bcdDec (h : tensWidth f = some k) (p : Nat) : decNat f p = bcdDec p 0x0F (tensMask k) 4 := by
  cases f <;> cases h <;> rfl

/-- The tens digit of a value in range fits the field's mask. -/
theorem tens_lt (h : tensWidth f = some k) (hv : v ≤ staticMax f) : v / 10 < 2 ^ k := by
  have bound : staticMax f < 10 * 2 ^ k := by cases f <;> cases h <;> decide
  exact Nat.div_lt_of_lt_mul (hv.trans_lt bound)

/-- In range the packed byte holds the two decimal digits. -/
theorem encNat_digits (h : tensWidth f = some k) (hv : v ≤ staticMax f) : encNat f v = v / 10 * 16 + v % 10 := by
  rw [encNat_eq_bcdEnc h, bcdEnc_tensMask (tens_lt h hv)]

/-- Unpacking undoes packing (rule R135), which stays within a byte: a BCD field keeps both digits, and a field that is
not BCD has at most seven values above 0. -/
theorem encNat_lt_and_decNat_encNat (hv : v ≤ staticMax f) :
    encNat f v < 256 ∧ decNat f (encNat f v) = v := by
  cases hk : tensWidth f with
  | some k =>
    have bound : staticMax f ≤ 99 := by cases f <;> decide
    rw [encNat_digits hk hv, decNat_eq_bcdDec hk, bcdDec_digits (tens_lt hk hv) (Nat.mod_lt _ (by decide))]
    omega
  | none =>
    revert v
    cases f <;> cases hk <;> decide

end layouts

theorem decField_encField {f : Field} {v : Byte} (h : inRange f v = true) : decField f (encField f v) = v := by
  obtain ⟨-, hv⟩ := inRange_iff.mp h
  obtain ⟨fits, undone⟩ := encNat_lt_and_decNat_encNat hv
  simp [decField, encField, Nat.mod_eq_of_lt fits, undone]

/-! ## The codec operations on an accepting block -/

/-- An operation whose plan only writes a result (rule R89). -/
theorem exec_result {i : Instr} {n : Nat} {s : State} (hA : Accepting s) (hp : planOf i s = .ok (resultBody n)) :
    exec i s = .next { s with result := BitVec.ofNat 8 n, ok := true } := by
  rw [exec_eq_runOp, runOp_resultBody _ hA hp]

/-- An operation whose check fails (rule R149). -/
theorem exec_fault {i : Instr} {r : FaultRec} {s : State} (hA : Accepting s) (hp : planOf i s = .error r) :
    exec i s = .next (raiseFault (commandWord i) r s) := by
  obtain ⟨hf, hr⟩ := hA
  rw [exec_eq_runOp, runOp_fault _ hr hf hp]

theorem exec_encode_inRange {f : Field} {v r : Byte} {s : State} (hA : Accepting s) (hv : inRange f v = true)
    (hr : encField f v = r) : exec (.encode (fieldId f) v) s = .next { s with result := r, ok := true } := by
  rw [exec_result (n := (encField f v).toNat) hA (by simp [planOf, planEncode, hv])]
  simp [hr]

theorem exec_decode_field {f : Field} {p r : Byte} {s : State} (hA : Accepting s) (hr : decField f p = r) :
    exec (.decode (fieldId f) p) s = .next { s with result := r, ok := true } := by
  rw [exec_result (n := (decField f p).toNat) hA (by simp [planOf, planDecode])]
  simp [hr]

/-- Settles O39. -/
theorem rangeMinAnswersTheMinimum : Obligations.RangeMinAnswersTheMinimum := by
  intro a s hA
  constructor
  · rintro f rfl
    exact exec_result hA (by simp [planOf, planRangeMin])
  · intro ha
    exact exec_fault hA (by simp [planOf, planRangeMin, fieldOf?_eq_none ha, invalidField, noField])

/-- Settles O40. -/
theorem rangeMaxAnswersTheMaximum : Obligations.RangeMaxAnswersTheMaximum := by
  intro a s hA
  refine ⟨?_, ?_, fun ha => ?_⟩
  · rintro f n rfl hn
    exact exec_result hA (by simp [planOf, planRangeMax, hn])
  · rintro rfl
    exact exec_fault hA rfl
  · exact exec_fault hA (by simp [planOf, planRangeMax, fieldOf?_eq_none ha, invalidField, noField])

/-- Settles O41: the days are `daysInMonth_of_month`, February's by the leap rule on two digits. -/
theorem dateMaxAnswersTheDaysOfTheMonth : Obligations.DateMaxAnswersTheDaysOfTheMonth := by
  intro y m s hA d
  refine ⟨fun hlo hhi hy => ?_, fun hm => ?_, fun hlo hhi hy => ?_⟩
  · have days : daysInMonth y.toNat m.toNat = some d := by
      rw [daysInMonth_of_month _ hlo hhi]
      simp [d, leap_iff_of_twoDigit hy, BitVec.toNat_eq]
    exact exec_result hA (by simp [planOf, planDateMax, days, hy])
  · exact exec_fault hA (by simp [planOf, planDateMax, daysInMonth_eq_none _ hm, fieldId])
  · exact exec_fault hA (by simp [planOf, planDateMax, daysInMonth_of_month _ hlo hhi, hy, fieldId])

/-- Settles O43: a BCD field packs its two digits, and the other three shift the value into place. -/
theorem encodePacksTheValue : Obligations.EncodePacksTheValue := by
  intro a v s hA
  refine ⟨?_, ?_, fun ha => ?_⟩
  · rintro f rfl hlo hhi
    rw [← staticMax_eq_ite] at hhi
    refine exec_encode_inRange hA (inRange_iff.mpr ⟨hlo, hhi⟩) ?_
    cases f with
    | weekday => simp [encField, encNat]
    | format | ampm => exact BitVec.eq_of_toNat_eq (by simp [encField, encNat])
    | _ => exact congrArg _ (encNat_digits rfl hhi)
  · rintro f rfl hv
    rw [← staticMax_eq_ite, ← inRange_eq_false_iff] at hv
    exact exec_fault hA (by simp [planOf, planEncode, hv])
  · exact exec_fault hA (by simp [planOf, planEncode, fieldOf?_eq_none ha, invalidField, noField])

/-- Settles O44: a BCD field by `ofNat_bcdDec` with its tens mask, the other three by their mask and shift. -/
theorem decodeUnpacksEveryByte : Obligations.DecodeUnpacksEveryByte := by
  intro a p s hA
  constructor
  · rintro f rfl
    refine exec_decode_field hA ?_
    cases f with
    | seconds | minutes => exact ofNat_bcdDec p 0x0F 0x70 4
    | hours24 | date => exact ofNat_bcdDec p 0x0F 0x30 4
    | hours12 | month => exact ofNat_bcdDec p 0x0F 0x10 4
    | year => exact ofNat_bcdDec p 0x0F 0xF0 4
    | weekday => exact BitVec.eq_of_toNat_eq (by simp [decField, decNat])
    | format | ampm =>
      apply BitVec.eq_of_toNat_eq
      simp [decField, decNat]
      omega
  · intro ha
    exact exec_fault hA (by simp [planOf, planDecode, fieldOf?_eq_none ha, invalidField, noField])

/-- Settles O45: the state ENCODE leaves still accepts an operation. -/
theorem decodeOfEncodedValueIsTheValue : Obligations.DecodeOfEncodedValueIsTheValue := by
  intro f v s hA hv
  exact ⟨_, _, exec_encode_inRange hA hv rfl, exec_decode_field ⟨hA.1, hA.2⟩ rfl, decField_encField hv, hA.1⟩

end Sys2Proof.Machine
end

section
/-! The public operations (42_public_api.md): the getters and SET_WP are one transaction of the register they name, the
operand check of SET_DATETIME stops at its first failing step, and CONFIGURE takes the lines. -/

namespace Sys2Proof.Machine

/-! ## Getters (rules R138 to R140) -/

/-- `CMD_RD(reg)` with its constant bits together (rules R68, R69). -/
theorem cmdRd_eq (m : AddrMap) (r : DevReg) : cmdRd m r = 0x81 ||| ((m.num r).setWidth 8 <<< 1) := by
  rw [cmdRd, BitVec.or_assoc, BitVec.or_comm _ 1, ← BitVec.or_assoc]
  rfl

/-- A getter on a ready block leaves what its read transaction leaves, the drawn byte decoded into RESULT. -/
theorem exec_getter_of_ready {i : Instr} (r : DevReg) (f : Field) {v : Byte} {s : State}
    (hp : planOf i = whenConfigured (getterBody r f)) (hR : Ready s) (hv : decField f (drawnByte s 0) = v) :
    exec i s = .next { afterRead (0x81 ||| ((s.cfg.addrMap.num r).setWidth 8 <<< 1)) s with
      ok := true, result := v } := by
  have ⟨_, hr, hcfg, hl⟩ := hR
  let body := devRead (.cmdRd r) ++ [.resultAcc (some f)]
  let s₀ := beginOp (commandWord i) (okBody body) s
  have run : runMicros body s₀ =
      .next { advance 96 (afterRead (cmdRd s.cfg.addrMap r) s₀) with result := v } := by
    rw [runMicros_append, runMicros_devRead _ (s := s₀) hcfg hl (timerIdle_beginOp _ _ _), ← hv]
    rfl
  rw [exec_eq_runOp, hp]
  refine runOp_of_ready _ hR run ?_
  simp [s₀, beginOp, advance, afterRead, drawnByte, draw, hr, cmdRd_eq]

/-- Settles O47: each getter decodes with the BCD layout of its field, on every byte by `ofNat_bcdDec`. -/
theorem gettersDecodeTheByteRead : Obligations.GettersDecodeTheByteRead := by
  intro s
  constructor
  · intro hR m p
    refine ⟨?seconds, ?minutes, ?hours12, ?hours24⟩
    case seconds => exact exec_getter_of_ready .seconds .seconds rfl hR (ofNat_bcdDec p 0x0F 0x70 4)
    case minutes => exact exec_getter_of_ready .minutes .minutes rfl hR (ofNat_bcdDec p 0x0F 0x70 4)
    case hours12 => exact exec_getter_of_ready .hours .hours12 rfl hR (ofNat_bcdDec p 0x0F 0x10 4)
    case hours24 => exact exec_getter_of_ready .hours .hours24 rfl hR (ofNat_bcdDec p 0x0F 0x30 4)
  · intro hA hcfg
    refine ⟨?_, ?_, fun h => ?_⟩ <;> exact takesNotConfigured_of_plan rfl hA hcfg

/-! ## Write protection (rule R141) -/

/-- Settles O48: its body is one write transaction. -/
theorem setWpWritesTheProtectByte : Obligations.SetWpWritesTheProtectByte := by
  intro p s
  refine ⟨fun hR => ?_, takesNotConfigured_of_plan rfl⟩
  have ⟨_, hr, hcfg, hl⟩ := hR
  refine runOp_of_ready (body := devWrite (.cmdWr .wp) (.lit (wpByte p))) _ hR
    (runMicros_devWrite _ _ hcfg hl (timerIdle_beginOp _ _ _)) ?_
  simp [advance, afterWrite, srcByte, cmdWr, AddrMap.num, wpByte, hr]

/-! ## The operand check of SET_DATETIME (rule R143) -/

/-- The first failing one of some checks, if there is one, is the one reported. -/
def ReportsFirst (bad : Byte → Byte → Prop) (checks : List (Bool × Field × Byte)) : Prop :=
  ∀ ok f v, checks.find? (fun c => !c.1) = some (ok, f, v) → bad (fieldId f) v

/-- A check that fails exactly under `P` is one link of a chain of conditions: it is reported under `P`, and otherwise
the later checks decide. -/
theorem ReportsFirst.ite {bad : Byte → Byte → Prop} {ok : Bool} {f : Field} {v : Byte}
    {checks : List (Bool × Field × Byte)} {P Q : Prop} [Decidable P] (h : ReportsFirst bad ((ok, f, v) :: checks))
    (hok : ok = false ↔ P) (later : ¬ P → ReportsFirst bad checks → Q) : if P then bad (fieldId f) v else Q := by
  cases ok with
  | false =>
    rw [if_pos (hok.mp rfl)]
    exact h false f v rfl
  | true =>
    have passes : ¬ P := fun hP => nomatch hok.mpr hP
    rw [if_neg passes]
    exact later passes h

theorem decide_within_eq_false_iff {lo v hi : Nat} :
    (decide (lo ≤ v) && decide (v ≤ hi)) = false ↔ v < lo ∨ hi < v := by
  simp only [Bool.and_eq_false_iff, decide_eq_false_iff_not, not_le]

/-- The hour check is one check for each format, of which the other format's passes. -/
theorem ReportsFirst.hour {bad : Byte → Byte → Prop} {d : DateTime} {checks : List (Bool × Field × Byte)}
    (hfmt : d.fmt = 0 ∨ d.fmt = 1)
    (h : ReportsFirst bad ((inRange (hourField d) d.hour, hourField d, d.hour) :: checks)) :
    ReportsFirst bad ((d.fmt != 0 || inRange .hours24 d.hour, .hours24, d.hour) ::
      (d.fmt != 1 || inRange .hours12 d.hour, .hours12, d.hour) :: checks) := by
  obtain hf | hf := hfmt <;> simpa [ReportsFirst, hf, hourField] using h

/-- On an accepting, configured block the first failing check of SET_DATETIME is its fault, and it does nothing else. -/
theorem reportsFirst_setDatetime {s : State} (hA : Accepting s) (hcfg : s.configured = true) :
    ReportsFirst (fun f v => exec (.setDatetime true) s =
      .next (raiseFault (commandWord (.setDatetime true)) ⟨.range, f, v⟩ s)) (dtChecks s.dt) := by
  intro ok f v h
  exact exec_fault hA (by simp [planOf, planSetDatetime, hcfg, dtFault, h])

/-- Settles O52: the conditions of the statement are the checks of `dtChecks`, link by link, the hour check being two. -/
theorem setDatetimeReportsTheFirstBadField : Obligations.SetDatetimeReportsTheFirstBadField := by
  intro s hA hcfg d bad
  have start : ReportsFirst bad (dtChecks d) := by
    simpa [ReportsFirst, bad, raiseFault, faultArgOf, hA.2] using reportsFirst_setDatetime hA hcfg
  refine start.ite (by simp) fun hyear h => ?_
  refine h.ite decide_within_eq_false_iff fun hmon h => ?_
  refine h.ite decide_within_eq_false_iff fun hdate h => ?_
  refine h.ite decide_within_eq_false_iff fun hwday h => ?_
  refine h.ite (by simp) fun hfmt h => ?_
  have fmt : d.fmt = 0 ∨ d.fmt = 1 := by tauto
  refine (h.hour fmt).ite (by simp [inRange_eq_false_iff, rangeMinOf, staticMax, rangeMaxOf]) fun h24 h => ?_
  refine h.ite (by simp [inRange_eq_false_iff, rangeMinOf, staticMax, rangeMaxOf]) fun h12 h => ?_
  refine h.ite (by obtain hf | hf := fmt <;> simp [hf]) fun hpm h => ?_
  refine h.ite (by simp) fun hmin h => ?_
  refine h.ite (by simp) fun hsec h => ?_
  have days := daysInMonth_of_month d.year.toNat (m := d.mon.toNat) (by omega) (by omega)
  simp only [days, Option.getD_some, not_or, not_lt] at hdate
  refine ⟨by omega, by omega, ⟨hdate.1, _, days, hdate.2⟩, by omega, fmt, ?_, ?_, ?_, by omega, by omega⟩
  · intro h0
    simpa [h0] using h24
  · intro h1
    simpa [h1, Nat.one_le_iff_ne_zero] using h12
  · intro h1
    tauto

/-! ## CONFIGURE (rule R146) -/

/-- CONFIGURE without a configuration answers its failure value and does nothing else. -/
theorem exec_configure_null {s : State} (hA : Accepting s) :
    exec (.configure false) s = .next { s with ok := false } := by
  have hr := hA.2
  refine runOp_of_body _ hA rfl ⟨_, rfl, ?_⟩
  simp [microEffect, beginOp, hr]

/-- CONFIGURE on an accepting block, configured or not: under its own command word it may take the lines (rule R85). -/
theorem exec_configure_present {s : State} (hA : Accepting s) :
    exec (.configure true) s = .next (afterConfigure s) := by
  have hr := hA.2
  refine runOp_of_body _ hA rfl ⟨_, runMicros_configure ?_, ?_⟩
  · simp [withinConfigure, commandWord, opConfigure]
  · simp [advance, afterConfigure, configureEvents, beginOp, hr]

/-- Settles O53. -/
theorem configureTakesTheLines : Obligations.ConfigureTakesTheLines :=
  fun _ hA => ⟨exec_configure_null hA, exec_configure_present hA⟩

end Sys2Proof.Machine
end

section
/-! The null forms of the aggregates and of CONFIGURE (60_exceptions.md): their bodies are one assignment of OK. -/

namespace Sys2Proof.Machine

/-- A null form of an aggregate is no line operation: its body is the empty one closed by OK <- 1, on a configured block
or not (rule R152). -/
theorem exec_okBody_nil {i : Instr} {s : State} (hA : Accepting s) (hp : planOf i s = .ok (okBody [])) :
    exec i s = .next { s with ok := true } := by
  have hr := hA.2
  rw [exec_eq_runOp]
  refine runOp_of_body _ hA hp ⟨_, rfl, ?_⟩
  simp [microEffect, beginOp, hr]

/-- Settles O49. -/
theorem nullFormsOnlyWriteOk : Obligations.NullFormsOnlyWriteOk :=
  fun _ hA => ⟨exec_okBody_nil hA rfl, exec_okBody_nil hA rfl, exec_configure_null hA⟩

end Sys2Proof.Machine
end

section
/-! The decoder and the encoder (30_encoding.md): a row of the opcode table read both ways, and the assembler's command
words (rule R83). -/

namespace Sys2Proof

/-! ## Command words -/

/-- The decoder reads a word as `i` exactly where RSV is 0 and the word's row stands for `i` with its unused fields 0
(rules R65, R66). -/
theorem decodeWord_eq_ok_iff {w : Word} {i : Instr} :
    decodeWord w = .ok i ↔ wordRsv w = 0 ∧ opCandidate (wordOp w) (wordA w) (wordB w) (wordP w) = some (true, i) := by
  unfold decodeWord
  split
  next hc => simp [hc]
  next z j hc => cases z <;> by_cases hr : wordRsv w = 0#7 <;> simp [hc, hr]

/-- A packed word of a row decodes to the row's instruction. -/
theorem decodeWord_packWord {op a b : Byte} {p : Bool} {i : Instr} (h : opCandidate op a b p = some (true, i)) :
    decodeWord (packWord op a b p) = .ok i := by
  simpa [decodeWord_eq_ok_iff] using h

/-- The word that carries a host operation decodes to it (rules R63, R65). -/
theorem decodeWord_commandWord {i : Instr} (h : i.wireByte? = none) : decodeWord (commandWord i) = .ok i := by
  cases i with
  | wireWrSeconds | wireRdSeconds | wireWrMinutes | wireRdMinutes | wireWrHours | wireRdHours | wireWrDate | wireRdDate
  | wireWrMonth | wireRdMonth | wireWrWeekday | wireRdWeekday | wireWrYear | wireRdYear | wireWrWp | wireRdWp => cases h
  | _ => exact decodeWord_packWord rfl

/-- Every instruction is read back from its bytes: a wire row by the table of command bytes, a host operation by its
command word (rules R44, R65, R82). -/
theorem decode_encode (i : Instr) : decode (encode i) = .ok i := by
  cases i with
  | wireWrSeconds | wireRdSeconds | wireWrMinutes | wireRdMinutes | wireWrHours | wireRdHours | wireWrDate | wireRdDate
  | wireWrMonth | wireRdMonth | wireWrWeekday | wireRdWeekday | wireWrYear | wireRdYear | wireWrWp | wireRdWp => rfl
  | _ => exact (decode_bytesOfWord _).trans (decodeWord_commandWord rfl)

/-- Settles O1: `decode_encode` holds of every instruction, since each is well-formed. -/
theorem decodeOfEncodeIsTheInstruction : Obligations.DecodeOfEncodeIsTheInstruction := fun i _ => decode_encode i

/-- A row of the decoder whose unused fields are 0 stands for the one instruction with this word and these fields. -/
theorem commandWord_and_fields_of_opCandidate {op a b : Byte} {p : Bool} {i : Instr}
    (h : opCandidate op a b p = some (true, i)) :
    commandWord i = packWord op a b p ∧ i.fields? = some ⟨op, a, b, 0, p⟩ := by
  have hop : op = BitVec.ofNat 8 op.toNat := by simp
  unfold opCandidate at h
  split at h
  case h_19 => cases h
  all_goals
    rename_i hn
    obtain ⟨unused, rfl⟩ := Prod.mk.inj (Option.some.inj h)
    rw [hop, hn]
    simp_all [commandWord, Instr.fields?]

/-- Settles O2: a decoded word has RSV = 0, so it is its fields packed again. -/
theorem decodedWordEncodesBack : Obligations.DecodedWordEncodesBack := by
  intro w i h
  obtain ⟨hrsv, hrow⟩ := decodeWord_eq_ok_iff.mp h
  obtain ⟨hword, hfields⟩ := commandWord_and_fields_of_opCandidate hrow
  exact ⟨hword.trans (packWord_fields hrsv), by rw [hfields, wordFields, hrsv]⟩

/-- The decoder has a row for every operation code of the table of rule R65. -/
theorem opRow?_of_opCandidate_none {op a b : Byte} {p : Bool} (h : opCandidate op a b p = none) : opRow? op = none := by
  have rows : ∀ r ∈ opRows, (opCandidate r.op a b p).isSome = true := List.all_eq_true.mp rfl
  refine List.find?_eq_none.mpr fun r hr heq => ?_
  have row := rows r hr
  rw [eq_of_beq heq, h] at row
  cases row

/-- A legal word has RSV = 0 (rule R66). -/
theorem rsv_of_wellFormed {c : CommandFields} (h : c.wellFormed = true) : c.rsv = 0 := by
  cases hrow : opRow? c.op with
  | none => simp [wellFormed_of_opRow?_none hrow] at h
  | some r =>
    simp only [wellFormed_of_opRow?_some hrow, OpRow.accepts, Bool.and_eq_true, beq_iff_eq] at h
    tauto

/-- A legal word is accepted: its code has a row, whose unused fields are 0. -/
theorem decodeWord_eq_ok_of_wellFormed {w : Word} (h : (wordFields w).wellFormed = true) :
    ∃ i, decodeWord w = .ok i := by
  have hrsv : wordRsv w = 0 := rsv_of_wellFormed h
  cases hc : opCandidate (wordOp w) (wordA w) (wordB w) (wordP w) with
  | none => simp [wellFormed_of_opRow?_none (c := wordFields w) (opRow?_of_opCandidate_none hc)] at h
  | some row =>
    obtain ⟨z, i⟩ := row
    rw [wordFields, hrsv, wellFormed_of_opCandidate hc] at h
    exact ⟨i, decodeWord_eq_ok_iff.mpr ⟨hrsv, h ▸ hc⟩⟩

/-- Settles O3. -/
theorem decoderAcceptsExactlyTheLegalWords : Obligations.DecoderAcceptsExactlyTheLegalWords :=
  fun _ => ⟨fun ⟨_, h⟩ => wellFormed_of_decodeWord h, decodeWord_eq_ok_of_wellFormed⟩

/-! ## Words written out -/

/-- Settles O4. -/
theorem writtenOutWordsDecode : Obligations.WrittenOutWordsDecode := by
  unfold Obligations.WrittenOutWordsDecode
  decide

end Sys2Proof

namespace Sys2Proof.Machine

/-! ## The assembler (rule R83) -/

/-- The word written for a line is the command word of its instruction. -/
theorem assemble_eq_commandWord (l : AsmLine) : assemble l = commandWord (lineInstr l) := by
  cases l with
  | getHours b | wpSet b | dtGet b | dtSet b | configure b => cases b <;> rfl
  | _ => simp [assemble, lineInstr, commandWord, packWord, byteAt]

/-- Settles O59: a line stands for a host operation, whose command word decodes to it. -/
theorem assembledLineDecodes : Obligations.AssembledLineDecodes := by
  intro l
  have host : (lineInstr l).wireByte? = none := by cases l <;> rfl
  rw [assemble_eq_commandWord, decodeWord_commandWord host]

end Sys2Proof.Machine
end

section
/-! The invariant along every step (10_state.md rules R34, R35; 40_bus_transport.md rule R85): an operation answers a state
of the invariant whether it runs whole or begins, and so does each of its micro-steps. -/

namespace Sys2Proof.Machine

/-! ## Faults of the plans (rule R148) -/

/-- Every fault the plan's checks raise has a cause. -/
def FaultsHaveCause (plan : Plan) : Prop := ∀ s f, plan s = .error f → f.cause ≠ .none

theorem faultsHaveCause_whenConfigured (body : List Micro) : FaultsHaveCause (whenConfigured body) := by
  intro s f h
  unfold whenConfigured at h
  split at h <;> cases h
  exact nofun

theorem faultsHaveCause_rangeMin (a : Byte) : FaultsHaveCause (planRangeMin a) := by
  intro s f h
  unfold planRangeMin at h
  split at h <;> cases h
  exact nofun

theorem faultsHaveCause_rangeMax (a : Byte) : FaultsHaveCause (planRangeMax a) := by
  intro s f h
  unfold planRangeMax at h
  split at h
  · cases h
    exact nofun
  · split at h <;> cases h
    exact nofun

theorem faultsHaveCause_dateMax (y m : Byte) : FaultsHaveCause (planDateMax y m) := by
  intro s f h
  unfold planDateMax at h
  split at h
  · cases h
    exact nofun
  · split at h <;> cases h
    exact nofun

theorem faultsHaveCause_encode (a v : Byte) : FaultsHaveCause (planEncode a v) := by
  intro s f h
  unfold planEncode at h
  split at h
  · cases h
    exact nofun
  · split at h <;> cases h
    exact nofun

theorem faultsHaveCause_decode (a p : Byte) : FaultsHaveCause (planDecode a p) := by
  intro s f h
  unfold planDecode at h
  split at h <;> cases h
  exact nofun

theorem faultsHaveCause_getDatetime (present : Bool) : FaultsHaveCause (planGetDatetime present) := by
  unfold planGetDatetime
  split
  · exact faultsHaveCause_whenConfigured _
  · exact fun _ _ h => by cases h

theorem faultsHaveCause_configure (present : Bool) : FaultsHaveCause (planConfigure present) := by
  intro s f h
  unfold planConfigure at h
  split at h <;> cases h

theorem cause_of_dtFault {d : DateTime} {f : FaultRec} (h : dtFault d = some f) : f.cause = .range := by
  obtain ⟨c, -, rfl⟩ := Option.map_eq_some_iff.mp h
  rfl

theorem faultsHaveCause_setDatetime (present : Bool) : FaultsHaveCause (planSetDatetime present) := by
  intro s f h
  cases present with
  | false => cases h
  | true =>
    simp only [planSetDatetime, if_true] at h
    split at h
    · split at h <;> cases h
      next hd => simp [cause_of_dtFault hd]
    · cases h
      exact nofun

/-- Every fault an instruction raises has a cause (rule R148). -/
theorem faultsHaveCause_planOf (i : Instr) : FaultsHaveCause (planOf i) := by
  cases i with
  | rangeMin f => exact faultsHaveCause_rangeMin f
  | rangeMax f => exact faultsHaveCause_rangeMax f
  | dateMax y m => exact faultsHaveCause_dateMax y m
  | encode f v => exact faultsHaveCause_encode f v
  | decode f p => exact faultsHaveCause_decode f p
  | setDatetime p => exact faultsHaveCause_setDatetime p
  | getDatetime p => exact faultsHaveCause_getDatetime p
  | configure p => exact faultsHaveCause_configure p
  | _ => exact faultsHaveCause_whenConfigured _

theorem faultsHaveCause_planIllegal (w : Word) : FaultsHaveCause (planIllegal w) := by
  intro s f h
  cases h
  exact nofun

/-! ## Operations -/

theorem blockInv_of_idleInv {s : State} (hr : s.running = none) (h : IdleInv s) : BlockInv s :=
  (blockInv_of_idle hr).mpr h

/-- The result is a next state of the invariant. -/
def AnswersInv (o : Result) : Prop := ∃ t, o = .next t ∧ BlockInv t

theorem BlockInv.answers {s : State} (h : BlockInv s) : AnswersInv (.next s) := ⟨s, rfl, h⟩

theorem AnswersInv.andThen {o : Result} {k : State → Result} (ho : AnswersInv o)
    (hk : ∀ s, BlockInv s → AnswersInv (k s)) : AnswersInv (andThen o k) := by
  obtain ⟨s, rfl, hs⟩ := ho
  exact hk s hs

/-- Taking a fault keeps the invariant between operations: the fault record then agrees with FAULT. -/
theorem idleInv_raiseFault {w : Word} {f : FaultRec} {s : State} (hs : IdleInv s) (hf : f.cause ≠ .none) :
    IdleInv (raiseFault w f s) :=
  ⟨⟨⟨fun _ => hf, fun _ => rfl⟩, nofun⟩, hs.2⟩

/-- An idle block of the invariant discards a command, takes its fault, or begins an operation that runs to its end. -/
theorem acceptIdle_answersInv {w : Word} {plan : Plan} (hp : PlanRuns w plan) (hc : FaultsHaveCause plan) {s : State}
    (hr : s.running = none) (hs : IdleInv s) : AnswersInv (acceptIdle w plan s) := by
  obtain ⟨-, h⟩ | ⟨-, f, hplan, h⟩ | ⟨hf, body, hplan, h⟩ := acceptIdle_cases w plan s <;> rw [h]
  · exact (blockInv_of_idleInv hr hs).answers
  · exact (blockInv_of_idleInv rfl (idleInv_raiseFault hs (hc s f hplan))).answers
  · exact ((blockInv_of_running (beginOp_running ..)).mpr ⟨hf, hp s body hs hplan⟩).answers

section operations
variable {s : State} (h : BlockInv s)
include h

theorem BlockInv.finishRunning_answersInv : AnswersInv (finishRunning s) := by
  obtain ⟨t, ht, hr, hi⟩ := h.finishRunning_next
  exact ⟨t, ht, blockInv_of_idleInv hr hi⟩

theorem BlockInv.launchOp_answersInv {w : Word} {plan : Plan} (hp : PlanRuns w plan) (hc : FaultsHaveCause plan) :
    AnswersInv (launchOp w plan s) := by
  obtain ⟨t, ht, hr, hi⟩ := h.finishRunning_next
  rw [launchOp, ht]
  exact acceptIdle_answersInv hp hc hr hi

theorem BlockInv.runOp_answersInv {w : Word} {plan : Plan} (hp : PlanRuns w plan) (hc : FaultsHaveCause plan) :
    AnswersInv (runOp w plan s) :=
  (h.launchOp_answersInv hp hc).andThen fun _ ht => ht.finishRunning_answersInv

theorem BlockInv.exec_answersInv (i : Instr) : AnswersInv (exec i s) := by
  rw [exec_eq_runOp]
  exact h.runOp_answersInv (planRuns_planOf i) (faultsHaveCause_planOf i)

theorem BlockInv.runCommand_answersInv (w : Word) : AnswersInv (runCommand w s) := by
  unfold runCommand
  split
  · exact h.exec_answersInv _
  · exact h.runOp_answersInv (planRuns_error w _) (faultsHaveCause_planIllegal w)

/-- A launched word is the command word of its instruction, so the same plan begins. -/
theorem BlockInv.launchCommand_answersInv (w : Word) : AnswersInv (launchCommand w s) := by
  unfold launchCommand
  split
  · rename_i i hi
    rw [← (decodedWordEncodesBack w i hi).1]
    exact h.launchOp_answersInv (planRuns_planOf i) (faultsHaveCause_planOf i)
  · exact h.launchOp_answersInv (planRuns_error w _) (faultsHaveCause_planIllegal w)

theorem BlockInv.runDevWrite_answersInv (c v : Byte) : AnswersInv (runDevWrite c v s) := by
  unfold runDevWrite
  split
  · exact h.exec_answersInv _
  · exact h.runOp_answersInv ((runsOnReadyLines_devWrite _ _).planRuns _) (faultsHaveCause_whenConfigured _)

theorem BlockInv.runDevRead_answersInv (c : Byte) : AnswersInv (runDevRead c s) := by
  unfold runDevRead
  split
  · exact h.exec_answersInv _
  · exact h.runOp_answersInv ((runsOnReadyLines_devRead _).planRuns _) (faultsHaveCause_whenConfigured _)

end operations

/-! ## Micro-steps -/

/-- The invariant looks at a state as micro-steps do, and at the micro-steps to come. -/
theorem BlockInv.congr {s t : State} (h : BlockInv s) (hv : view t = view s)
    (htodo : t.running.map (·.todo) = s.running.map (·.todo)) : BlockInv t := by
  cases hs : s.running with
  | none =>
    have ht : t.running = none := by simpa [hs] using htodo
    exact blockInv_of_idleInv ht ((idleInv_viewOnly.congr hv).mpr ((blockInv_of_idle hs).mp h))
  | some r =>
    obtain ⟨q, ht, hq⟩ : ∃ q, t.running = some q ∧ q.todo = r.todo := by simpa [hs] using htodo
    obtain ⟨hf, u, hu, hi⟩ := (blockInv_of_running hs).mp h
    obtain ⟨u', hu', hvu⟩ := runMicros_view hv.symm hu
    refine (blockInv_of_running ht).mpr ⟨?_, u', hq ▸ hu', (idleInv_viewOnly.congr hvu).mp hi⟩
    exact (congrArg State.fault hv).trans hf

theorem microTick_idle {s : State} (h : s.running = none) : microTick s = .next s := by
  simp [microTick, h]

/-- A micro-step of a busy block ends the operation or moves the timer, or performs the operation's next one. -/
theorem microTick_next_or_perform {s : State} {r : Running} (hr : s.running = some r) :
    (∃ u, microTick s = .next u) ∨
      ∃ m ms, r.todo = m :: ms ∧ microTick s = perform m { s with running := some { r with todo := ms } } := by
  simp only [microTick, hr]
  split
  · exact .inl ⟨_, rfl⟩
  · exact .inl ⟨_, rfl⟩
  · exact .inl ⟨_, rfl⟩
  · rename_i ht _
    exact .inr ⟨_, _, ht, rfl⟩
  · rename_i ht _ _ _
    exact .inr ⟨_, _, ht, rfl⟩

/-- With its head taken off, what is still to come runs as it did. -/
theorem BlockInv.perform_answersInv {s : State} (h : BlockInv s) {r : Running} (hr : s.running = some r) {m : Micro}
    {ms : List Micro} (htodo : r.todo = m :: ms) :
    AnswersInv (perform m { s with running := some { r with todo := ms } }) := by
  obtain ⟨hf, t, ht, hi⟩ := (blockInv_of_running hr).mp h
  rw [htodo] at ht
  obtain ⟨t', ht', hv⟩ := runMicros_view (view_running hr r.pos ms r.timer).symm ht
  obtain ⟨u, hu, hrest⟩ := andThen_eq_next ht'
  obtain ⟨-, rfl⟩ := perform_eq_next hu
  obtain ⟨q, hq, -, hqt, -⟩ :=
    microEffect_position (s := { s with running := some { r with todo := ms } }) rfl m
  refine ⟨_, hu, (blockInv_of_running hq).mpr ⟨?_, t', ?_, (idleInv_viewOnly.congr hv).mp hi⟩⟩
  · simpa using hf
  · rw [hqt]
    exact hrest

theorem BlockInv.microTick_answersInv {s : State} (h : BlockInv s) : AnswersInv (microTick s) := by
  cases hr : s.running with
  | none =>
    exact microTick_idle hr ▸ h.answers
  | some r =>
    obtain ⟨u, hu⟩ | ⟨m, ms, htodo, hm⟩ := microTick_next_or_perform hr
    · refine ⟨u, hu, ?_⟩
      obtain ⟨hnil, rfl⟩ | ⟨n, rfl⟩ | ⟨m, q, htodo, -, -, -, hm⟩ := microTick_cases hr hu
      · obtain ⟨-, t, ht, hi⟩ := (blockInv_of_running hr).mp h
        rw [hnil] at ht
        cases ht
        exact blockInv_of_idleInv rfl hi
      · exact h.congr (view_running hr ..) (by simp [hr])
      · obtain ⟨v, hv, hinv⟩ := h.perform_answersInv hr htodo
        rw [hm] at hv
        cases hv
        exact hinv
    · exact hm ▸ h.perform_answersInv hr htodo

/-! ## Steps -/

theorem step_of_agenda_nil {s : State} (h : s.agenda = []) : step s = microTick s := by
  simp [step, runNext, h]

theorem idleInv_reset : IdleInv State.reset := by decide

/-- A block reset gives every field the invariant looks at its reset value. -/
theorem blockInv_blockReset (s : State) : BlockInv (blockReset s) := blockInv_of_idleInv rfl idleInv_reset

theorem BlockInv.logRead {s : State} (h : BlockInv s) (v : Word) : BlockInv (logRead v s) := h.congr rfl rfl

theorem BlockInv.runWait_answersInv {s : State} (h : BlockInv s) : AnswersInv (runWait s) := by
  unfold runWait
  split
  · exact ((h.with_agenda _).logRead _).microTick_answersInv
  · exact (h.logRead _).answers

/-- A host write of a register other than CMD reaches PINCFG and DT only, which the invariant does not look at. -/
theorem idleInv_writeHostReg (r : HostReg) (v : Word) {s : State} (h : IdleInv s) : IdleInv (writeHostReg r v s) := by
  cases r <;> exact h

theorem writeHostReg_running (r : HostReg) (v : Word) (s : State) : (writeHostReg r v s).running = s.running := by
  cases r <;> rfl

theorem BlockInv.hostWrite_answersInv {s : State} (h : BlockInv s) {off width : Nat} {r : HostReg}
    (hr : hostTarget off width = .ok r) (v : Word) : AnswersInv (hostWrite off width v s) := by
  rw [hostWrite_of_ok hr]
  split
  · exact h.runCommand_answersInv v
  · obtain ⟨t, ht, hidle, hi⟩ := h.finishRunning_next
    rw [ht]
    exact (blockInv_of_idleInv ((writeHostReg_running r v t).trans hidle) (idleInv_writeHostReg r v hi)).answers

/-- From a state of the invariant an action answers one, unless it is a host access that is refused. -/
theorem BlockInv.runAction_answersInv_or_refused {s : State} (h : BlockInv s) (a : Action) :
    AnswersInv (runAction a s) ∨ ∃ e, runAction a s = .refused e := by
  cases a with
  | write off width v =>
    cases ht : hostTarget off width with
    | error e => exact .inr ⟨e, hostWrite_of_error ht v s⟩
    | ok r => exact .inl (h.hostWrite_answersInv ht v)
  | read off width =>
    cases ht : hostTarget off width with
    | error e => exact .inr ⟨e, hostRead_of_error ht s⟩
    | ok r => exact .inl ⟨_, hostRead_of_ok ht s, h.logRead _⟩
  | launch w => exact .inl (h.launchCommand_answersInv w)
  | tick => exact .inl h.microTick_answersInv
  | wait => exact .inl h.runWait_answersInv
  | devWrite c v => exact .inl (h.runDevWrite_answersInv c v)
  | devRead c => exact .inl (h.runDevRead_answersInv c)
  | reset => exact .inl (blockInv_blockReset s).answers

theorem BlockInv.step_answersInv_or_refused {s : State} (h : BlockInv s) :
    AnswersInv (step s) ∨ ∃ e, step s = .refused e := by
  cases ha : s.agenda with
  | nil =>
    exact .inl (step_of_agenda_nil ha ▸ h.microTick_answersInv)
  | cons a rest =>
    rw [step_of_agenda ha]
    exact (h.with_agenda rest).runAction_answersInv_or_refused a

/-- Settles O15. -/
theorem everyStepKeepsInv : Obligations.EveryStepKeepsInv := by
  intro s t h hst
  obtain ⟨u, hu, hinv⟩ | ⟨e, he⟩ := h.step_answersInv_or_refused
  · rw [hu] at hst
    cases hst
    exact hinv
  · rw [he] at hst
    cases hst

/-- Settles O16. -/
theorem noEventPreconditionFails : Obligations.NoEventPreconditionFails := by
  intro s f h hst
  obtain ⟨u, hu, -⟩ | ⟨e, he⟩ := h.step_answersInv_or_refused <;> simp_all

/-- Settles O14. -/
theorem resetStateSatisfiesInv : Obligations.ResetStateSatisfiesInv := blockInv_of_idleInv rfl idleInv_reset

/-- Settles O17: the lines of a configured idle block are settled. -/
theorem invariantMakesConfiguredBlockReady : Obligations.InvariantMakesConfiguredBlockReady := by
  intro s h hcfg hf hr
  obtain ⟨-, settled, -⟩ := (blockInv_of_idle hr).mp h
  obtain ⟨hce, hsclk, -, hlow, hbus⟩ := settled hcfg
  refine ⟨⟨hf, hr, hcfg, hce, hsclk⟩, hlow, ?_, ?_⟩ <;> cases hl : s.ce.lvl <;> simp [hbus, settledBus, hl]

end Sys2Proof.Machine
end

section
/-! Running an operation micro-step by micro-step (10_state.md rules R33, R40; 60_exceptions.md rule R156): a micro-step
leaves what the operation will end in as it was, and a counted number of them reaches it. -/

namespace Sys2Proof.Machine

/-! ## What an operation ends in -/

/-- BUSY <- 0, the last assignment of an operation (rule R89). -/
def clearBusy (s : State) : Result := .next { s with running := none }

/-- Micro-steps run to their end leave the same from states that differ in the micro-step position, the timer and what
is still to do. -/
theorem runMicros_clearBusy_congr (ms : List Micro) {s t : State} (hv : view s = view t) (ha : s.agenda = t.agenda)
    (hr : s.reads = t.reads) : andThen (runMicros ms s) clearBusy = andThen (runMicros ms t) clearBusy := by
  induction ms generalizing s t with
  | nil => exact congrArg _ (cleared_eq_of_view hv ha hr)
  | cons m ms ih =>
    have hp : microPre m s = microPre m t := by rw [← microPre_view, hv, microPre_view]
    have he : view (microEffect m s) = view (microEffect m t) := by rw [← microEffect_view, hv, microEffect_view]
    rw [runMicros_cons, runMicros_cons, perform, perform, hp]
    split
    · exact ih he (by simpa using ha) (by simpa using hr)
    · rfl

/-- An operation ends in the same state wherever its position and its timer stand. -/
theorem runMicros_clearBusy_running (ms : List Micro) {s : State} {r : Running} (hr : s.running = some r) (p : Nat)
    (l : List Micro) (t : Option Nat) :
    andThen (runMicros ms { s with running := some ⟨r.op, p, l, t⟩ }) clearBusy =
      andThen (runMicros ms s) clearBusy :=
  runMicros_clearBusy_congr ms (view_running hr p l t) rfl rfl

theorem finishRunning_eq {s : State} {r : Running} (hr : s.running = some r) :
    finishRunning s = andThen (runMicros r.todo s) clearBusy :=
  finishRunning_running hr

/-- Once its head has been performed, an operation ends as it would have. -/
theorem finishRunning_of_perform {s u : State} {r q : Running} {m : Micro} (hr : s.running = some r)
    (htodo : r.todo = m :: q.todo) (hq : u.running = some q)
    (hm : perform m { s with running := some { r with todo := q.todo } } = .next u) :
    finishRunning u = finishRunning s := by
  rw [finishRunning_eq hq, finishRunning_eq hr, htodo, ← runMicros_clearBusy_running _ hr r.pos q.todo r.timer,
    runMicros_cons, hm, andThen_next]

/-- A micro-step does not change what the operation in progress ends in. -/
theorem finishRunning_microTick {s u : State} (h : microTick s = .next u) : finishRunning u = finishRunning s := by
  cases hr : s.running with
  | none =>
    rw [microTick_idle hr] at h
    cases h
    rfl
  | some r =>
    obtain ⟨hnil, rfl⟩ | ⟨n, rfl⟩ | ⟨m, q, htodo, hq, -, -, hm⟩ := microTick_cases hr h
    · rw [finishRunning_idle rfl, finishRunning_eq hr, hnil]
      rfl
    · rw [finishRunning_eq (r := { r with timer := some n }) rfl, finishRunning_eq hr]
      exact runMicros_clearBusy_running _ hr ..
    · exact finishRunning_of_perform hr htodo hq hm

theorem finishRunning_microTicks {n : Nat} {s u : State} (h : microTicks n s = .next u) :
    finishRunning u = finishRunning s := by
  induction n generalizing s with
  | zero => cases h; rfl
  | succ n ih =>
    obtain ⟨v, hv, h⟩ := andThen_eq_next h
    rw [ih h, finishRunning_microTick hv]

/-! ## A busy block under a host write -/

section waiting
variable {s u : State} (h : finishRunning s = finishRunning u)
include h

theorem launchOp_congr (w : Word) (plan : Plan) : launchOp w plan s = launchOp w plan u := by
  rw [launchOp, launchOp, h]

theorem runOp_congr (w : Word) (plan : Plan) : runOp w plan s = runOp w plan u := by
  rw [runOp, runOp, launchOp_congr h]

theorem exec_congr (i : Instr) : exec i s = exec i u := by
  rw [exec_eq_runOp, exec_eq_runOp, runOp_congr h]

theorem launchCommand_congr (w : Word) : launchCommand w s = launchCommand w u := by
  unfold launchCommand
  split <;> exact launchOp_congr h ..

theorem runCommand_congr (w : Word) : runCommand w s = runCommand w u := by
  unfold runCommand
  split
  · exact exec_congr h _
  · exact runOp_congr h ..

theorem hostWrite_congr (off width : Nat) (v : Word) : hostWrite off width v s = hostWrite off width v u := by
  cases ht : hostTarget off width with
  | error e => rw [hostWrite_of_error ht, hostWrite_of_error ht]
  | ok r => rw [hostWrite_of_ok ht, hostWrite_of_ok ht, runCommand_congr h, h]

end waiting

/-- `u` stands in the operation in progress in `s`, whose micro-steps have been done up to those that `u` has still to
do, each event moving the position on by one (rule R33). -/
def StandsWithin (s u : State) (r q : Running) : Prop :=
  q.op = r.op ∧ q.pos + s.trace.length = r.pos + u.trace.length ∧
    ∃ ms t, r.todo = ms ++ q.todo ∧ runMicros ms s = .next t ∧ u = { t with running := some q }

/-- A run from another position, timer or list of what is still to do leaves the same but for those. -/
theorem runMicros_of_running {ms : List Micro} {s t : State} {r : Running} (hr : s.running = some r) {p : Nat}
    {l : List Micro} {n : Option Nat} (h : runMicros ms { s with running := some ⟨r.op, p, l, n⟩ } = .next t) :
    ∃ t', runMicros ms s = .next t' ∧ ∀ x, { t' with running := x } = { t with running := x } := by
  have ends := runMicros_clearBusy_running ms hr p l n
  rw [h] at ends
  obtain ⟨t', ht', hcleared⟩ := andThen_eq_next ends.symm
  injection hcleared with hcleared
  exact ⟨t', ht', fun x => congrArg (fun v : State => { v with running := x }) hcleared⟩

theorem microTicks_standsWithin {n : Nat} {s u : State} {r q : Running} (h : microTicks n s = .next u)
    (hr : s.running = some r) (hq : u.running = some q) : StandsWithin s u r q := by
  induction n generalizing s r with
  | zero =>
    cases h
    cases hr.symm.trans hq
    exact ⟨rfl, rfl, [], u, rfl, rfl, by rw [← hq]⟩
  | succ n ih =>
    obtain ⟨v, hv, h⟩ := andThen_eq_next h
    obtain ⟨-, rfl⟩ | ⟨k, rfl⟩ | ⟨m, q', htodo, hq', hop, hpos, hm⟩ := microTick_cases hr hv
    · rw [microTicks_idle n rfl] at h
      cases h
      cases hq
    · obtain ⟨ho, hp, ms, t, hms, ht, rfl⟩ := ih h rfl
      obtain ⟨t', ht', heq⟩ := runMicros_of_running hr ht
      exact ⟨ho, hp, ms, t', hms, ht', (heq _).symm⟩
    · obtain ⟨ho, hp, ms, t, hms, ht, rfl⟩ := ih h hq'
      have run : runMicros (m :: ms) { s with running := some { r with todo := q'.todo } } = .next t := by
        rw [runMicros_cons, hm, andThen_next, ht]
      obtain ⟨t', ht', heq⟩ := runMicros_of_running hr run
      exact ⟨ho.trans hop, by omega, m :: ms, t', by rw [htodo, hms, List.cons_append], ht', (heq _).symm⟩

/-- Settles O8: micro-steps leave what the operation ends in as it was, and that is where a write takes effect. -/
theorem busyBlockFinishesBeforeAWrite : Obligations.BusyBlockFinishesBeforeAWrite := by
  intro s u n h
  have ends := (finishRunning_microTicks h).symm
  exact ⟨fun r q hr hq => microTicks_standsWithin h hr hq, fun _ =>
    ⟨exec_congr ends, launchCommand_congr ends, fun off => hostWrite_congr ends off 4⟩⟩

/-! ## How many micro-steps an operation takes (rule R171) -/

section head
variable {s : State} {r : Running} (hr : s.running = some r) {m : Micro} {ms : List Micro}
include hr

/-- A micro-step other than a `Delay` takes one. -/
theorem microTick_of_ne_delay (htodo : r.todo = m :: ms) (hm : m ≠ .delay) :
    microTick s = perform m { s with running := some { r with todo := ms } } := by
  simp only [microTick, hr, htodo]
  split <;> simp_all

/-- A running `Delay` counts its timer down and ends (rule R156). -/
theorem microTicks_of_delay {n : Nat} (htodo : r.todo = .delay :: ms) (hn : r.timer = some n) :
    microTicks (n + 1) s = .next (microEffect .delay { s with running := some { r with todo := ms } }) := by
  rw [microTicks_add, microTicks_countdown n hr htodo hn]
  simp [microTicks, microTick, htodo, perform, microPre, microEffect, applyDelay]

/-- The head of an operation takes the micro-steps `ticksOf` counts, or where its `Delay` runs already those that the
timer counts; a timer it does not use it leaves. -/
theorem microTicks_head (htodo : r.todo = m :: ms) (hp : microPre m s = true) :
    ∃ k, microTicks k s = .next (microEffect m { s with running := some { r with todo := ms } }) ∧
      (r.timer = none → k = ticksOf s.cfg m) ∧
      k + (if m = .delay then none else r.timer).getD 0 ≤ ticksOf s.cfg m + r.timer.getD 0 := by
  by_cases hm : m = .delay
  · subst hm
    cases hn : r.timer with
    | none =>
      have starts : microTick s = .next { s with running := some { r with timer := some s.cfg.delayTicks } } := by
        simp [microTick, hr, htodo, hn]
      refine ⟨s.cfg.delayTicks + 1 + 1, ?_, fun _ => rfl, by simp [ticksOf]⟩
      rw [microTicks, starts, andThen_next, microTicks_of_delay (r := { r with timer := some s.cfg.delayTicks }) rfl
        htodo rfl]
      rfl
    | some n => exact ⟨n + 1, microTicks_of_delay hr htodo hn, nofun, by simp [ticksOf]⟩
  · have one : ticksOf s.cfg m = 1 := by
      cases m with
      | delay => exact absurd rfl hm
      | _ => rfl
    have hp' : microPre m { s with running := some { r with todo := ms } } = true := by
      rw [← microPre_view, view_running hr, microPre_view, hp]
    refine ⟨1, ?_, fun _ => one.symm, by simp [one, hm]⟩
    rw [microTicks, microTick_of_ne_delay hr htodo hm, perform_of_pre hp']
    rfl

end head

/-- An operation takes the micro-steps `ticksFor` counts; with its timer running it takes no more than the timer adds. -/
theorem microTicks_to_end {s t : State} {r : Running} (hr : s.running = some r) (h : finishRunning s = .next t) :
    ∃ k, microTicks k s = .next t ∧ (r.timer = none → k = ticksFor s.cfg r.todo) ∧
      k ≤ ticksFor s.cfg r.todo + r.timer.getD 0 := by
  induction htodo : r.todo generalizing s r with
  | nil =>
    refine ⟨1, ?_, fun _ => rfl, by simp [ticksFor]⟩
    rw [← h, finishRunning_eq hr, htodo]
    simp [microTicks, microTick, hr, htodo, clearBusy]
  | cons m ms ih =>
    have runs : ∃ u, runMicros (m :: ms) s = .next u := by
      rw [finishRunning_eq hr, htodo] at h
      obtain ⟨u, hu, -⟩ := andThen_eq_next h
      exact ⟨u, hu⟩
    obtain ⟨u, hu⟩ := runs
    obtain ⟨v, hv, -⟩ := andThen_eq_next hu
    obtain ⟨hp, -⟩ := perform_eq_next hv
    obtain ⟨k, hk, hexact, hbound⟩ := microTicks_head hr htodo hp
    obtain ⟨p, hq⟩ := microEffect_running (s := { s with running := some { r with todo := ms } }) (m := m) rfl
    obtain ⟨l, hl, hlexact, hlbound⟩ := ih hq ((finishRunning_microTicks hk).trans h) rfl
    simp only [microEffect_cfg] at hlexact hlbound
    have total : ticksFor s.cfg (m :: ms) = ticksOf s.cfg m + ticksFor s.cfg ms := by
      simp [ticksFor, Nat.add_assoc]
    refine ⟨k + l, by rw [microTicks_add, hk, andThen_next, hl], fun hn => ?_, ?_⟩
    · rw [total, hexact hn, hlexact (by simp [hn])]
    · rw [total]
      omega

/-- Settles O18: what the invariant says an operation ends in is reached within the bound. -/
theorem everyOperationEnds : Obligations.EveryOperationEnds := by
  intro s r h hr
  obtain ⟨t, hfin, hidle, hinv⟩ := h.finishRunning_next
  obtain ⟨k, hk, -, hbound⟩ := microTicks_to_end hr hfin
  exact ⟨k, t, hbound, hk, hidle, hinv⟩

/-! ## The two forms of a CMD write -/

/-- A CMD write that runs whole is the same word launched and finished: a legal word is the command word of its
instruction. -/
theorem runCommand_eq_launchCommand (w : Word) (s : State) :
    runCommand w s = andThen (launchCommand w s) finishRunning := by
  unfold runCommand launchCommand
  split
  · rename_i i hi
    rw [exec_eq_runOp, (decodedWordEncodesBack w i hi).1, runOp]
  · rfl

/-- A launched word on an idle block leaves it idle, or with its operation at the first event. -/
theorem launchCommand_cases {w : Word} {s u : State} (hr : s.running = none) (h : launchCommand w s = .next u) :
    u.running = none ∨ ∃ body, u = beginOp w body s := by
  obtain ⟨plan, hplan⟩ : ∃ plan, launchCommand w s = acceptIdle w plan s := by
    unfold launchCommand
    split <;> exact ⟨_, launchOp_idle _ _ hr⟩
  rw [hplan] at h
  obtain ⟨-, h'⟩ | ⟨-, f, -, h'⟩ | ⟨-, body, -, h'⟩ := acceptIdle_cases w plan s <;> rw [h'] at h <;> cases h
  · exact .inl hr
  · exact .inl rfl
  · exact .inr ⟨body, rfl⟩

/-- Settles O9: the whole run finishes what was launched, and so do the micro-steps `ticksFor` counts. -/
theorem eventByEventExecutionAgrees : Obligations.EventByEventExecutionAgrees := by
  intro w s u t hA hlaunch hrun
  have ends : finishRunning u = .next t := by rwa [runCommand_eq_launchCommand, hlaunch, andThen_next] at hrun
  obtain hidle | ⟨body, rfl⟩ := launchCommand_cases hA.2 hlaunch
  · rw [finishRunning_idle hidle] at ends
    cases ends
    exact .inl ⟨hidle, rfl⟩
  · obtain ⟨k, hk, hexact, -⟩ := microTicks_to_end (beginOp_running w body s) ends
    rw [hexact rfl] at hk
    exact .inr ⟨_, beginOp_running w body s, rfl, rfl, hk, finishRunning_idle_after ends⟩

end Sys2Proof.Machine
end

section
/-! What is refused (20_memory.md rule R42): of everything a step can do, only a host access that names no register. -/

namespace Sys2Proof.Machine

/-- A result that is no refusal. -/
def NotRefused (o : Result) : Prop := ∀ e, o ≠ .refused e

theorem notRefused_next (s : State) : NotRefused (.next s) := nofun

theorem NotRefused.andThen {o : Result} {k : State → Result} (ho : NotRefused o) (hk : ∀ s, NotRefused (k s)) :
    NotRefused (andThen o k) := by
  cases o with
  | next s => exact hk s
  | fault f => exact nofun
  | refused e => exact absurd rfl (ho e)

theorem notRefused_finishRunning (s : State) : NotRefused (finishRunning s) := by
  cases hr : s.running with
  | none => exact finishRunning_idle hr ▸ notRefused_next s
  | some r =>
    rw [finishRunning_eq hr]
    exact .andThen (runMicros_ne_refused _ s) fun _ => notRefused_next _

theorem notRefused_acceptIdle (w : Word) (plan : Plan) (s : State) : NotRefused (acceptIdle w plan s) := by
  obtain ⟨-, h⟩ | ⟨-, f, -, h⟩ | ⟨-, body, -, h⟩ := acceptIdle_cases w plan s <;> exact h ▸ notRefused_next _

theorem notRefused_launchOp (w : Word) (plan : Plan) (s : State) : NotRefused (launchOp w plan s) :=
  (notRefused_finishRunning s).andThen (notRefused_acceptIdle w plan)

theorem notRefused_runOp (w : Word) (plan : Plan) (s : State) : NotRefused (runOp w plan s) :=
  (notRefused_launchOp w plan s).andThen notRefused_finishRunning

theorem notRefused_exec (i : Instr) (s : State) : NotRefused (exec i s) := by
  rw [exec_eq_runOp]
  exact notRefused_runOp _ _ _

theorem notRefused_launchCommand (w : Word) (s : State) : NotRefused (launchCommand w s) := by
  unfold launchCommand
  split <;> exact notRefused_launchOp _ _ _

theorem notRefused_runCommand (w : Word) (s : State) : NotRefused (runCommand w s) := by
  rw [runCommand_eq_launchCommand]
  exact (notRefused_launchCommand w s).andThen notRefused_finishRunning

theorem notRefused_microTick (s : State) : NotRefused (microTick s) := by
  cases hr : s.running with
  | none =>
    exact microTick_idle hr ▸ notRefused_next s
  | some r =>
    obtain ⟨u, hu⟩ | ⟨m, ms, -, hm⟩ := microTick_next_or_perform hr
    · exact hu ▸ notRefused_next u
    · exact hm ▸ perform_ne_refused m _

theorem notRefused_runDevWrite (c v : Byte) (s : State) : NotRefused (runDevWrite c v s) := by
  unfold runDevWrite
  split
  · exact notRefused_exec _ _
  · exact notRefused_runOp _ _ _

theorem notRefused_runDevRead (c : Byte) (s : State) : NotRefused (runDevRead c s) := by
  unfold runDevRead
  split
  · exact notRefused_exec _ _
  · exact notRefused_runOp _ _ _

theorem notRefused_runWait (s : State) : NotRefused (runWait s) := by
  unfold runWait
  split
  · exact notRefused_microTick _
  · exact notRefused_next _

theorem hostWrite_eq_refused {off width : Nat} {v : Word} {s : State} {e : Refusal}
    (h : hostWrite off width v s = .refused e) : hostTarget off width = .error e := by
  cases ht : hostTarget off width with
  | error e' =>
    rw [hostWrite_of_error ht] at h
    cases h
    rfl
  | ok r =>
    rw [hostWrite_of_ok ht] at h
    split at h
    · exact absurd h (notRefused_runCommand v s e)
    · exact absurd h ((notRefused_finishRunning s).andThen (fun _ => notRefused_next _) e)

theorem hostRead_eq_refused {off width : Nat} {s : State} {e : Refusal}
    (h : hostRead off width s = .refused e) : hostTarget off width = .error e := by
  cases ht : hostTarget off width with
  | error e' =>
    rw [hostRead_of_error ht] at h
    cases h
    rfl
  | ok r =>
    rw [hostRead_of_ok ht] at h
    cases h

/-- A refusal says what is wrong with the access: first its width, then its alignment, then that its offset holds no
register. -/
theorem hostTarget_eq_error {off width : Nat} {e : Refusal} (h : hostTarget off width = .error e) :
    (width ≠ 4 ∧ e = .hostAccessWidth width) ∨ (width = 4 ∧ off % 4 ≠ 0 ∧ e = .hostAccessUnaligned off) ∨
      (width = 4 ∧ off % 4 = 0 ∧ (off = 0x1C ∨ 0x44 ≤ off) ∧ e = .hostAccessUnoccupied off) := by
  unfold hostTarget at h
  split at h
  · cases h
    tauto
  · split at h
    · cases h
      tauto
    · split at h <;> cases h
      have hole := hostRegAt_eq_none_iff (off := off) (by omega)
      tauto

/-- Settles O10: of the actions only a host access can be refused, and only when it names no register. -/
theorem onlyBadHostAccessesAreRefused : Obligations.OnlyBadHostAccessesAreRefused := by
  intro s e h
  cases ha : s.agenda with
  | nil =>
    rw [step_of_agenda_nil ha] at h
    exact absurd h (notRefused_microTick s e)
  | cons a rest =>
    rw [step_of_agenda ha] at h
    cases a with
    | read off width => exact ⟨off, width, rest, .inl rfl, hostTarget_eq_error (hostRead_eq_refused h)⟩
    | write off width v =>
      exact ⟨off, width, rest, .inr ⟨v, rfl⟩, hostTarget_eq_error (hostWrite_eq_refused h)⟩
    | launch w => exact absurd h (notRefused_launchCommand _ _ e)
    | tick => exact absurd h (notRefused_microTick _ e)
    | wait => exact absurd h (notRefused_runWait _ e)
    | devWrite c v => exact absurd h (notRefused_runDevWrite _ _ _ e)
    | devRead c => exact absurd h (notRefused_runDevRead _ _ e)
    | reset => cases h

end Sys2Proof.Machine
end

section
/-! What every step but a block reset keeps (10_state.md rules R26, R27): a property that micro-steps, faults and host
accesses keep. -/

namespace Sys2Proof.Machine

/-- A property of the state that micro-steps, faults and host accesses keep. -/
structure KeptOffReset (P : State → Prop) : Prop where
  micro : ∀ m s, P s → P (microEffect m s)
  fault : ∀ w f s, P s → P (raiseFault w f s)
  running : ∀ r s, P s → P { s with running := r }
  agenda : ∀ a s, P s → P { s with agenda := a }
  read : ∀ v s, P s → P (logRead v s)
  write : ∀ r v s, P s → P (writeHostReg r v s)

/-- A next state that the result may be has the property. -/
def Leads (P : State → Prop) (o : Result) : Prop := ∀ t, o = .next t → P t

theorem leads_next {P : State → Prop} {s : State} (h : P s) : Leads P (.next s) := by
  intro t ht
  cases ht
  exact h

theorem leads_refused (P : State → Prop) (e : Refusal) : Leads P (.refused e) := by
  intro t ht
  cases ht

theorem Leads.andThen {P : State → Prop} {o : Result} {k : State → Result} (ho : Leads P o)
    (hk : ∀ s, P s → Leads P (k s)) : Leads P (andThen o k) := by
  intro t ht
  obtain ⟨s, hs, ht⟩ := andThen_eq_next ht
  exact hk s (ho s hs) t ht

section kept
variable {P : State → Prop} (hP : KeptOffReset P) {s : State} (hs : P s)
include hP hs

theorem KeptOffReset.finishRunning : Leads P (finishRunning s) := by
  cases hr : s.running with
  | none => exact finishRunning_idle hr ▸ leads_next hs
  | some r =>
    rw [finishRunning_running hr]
    have runs : Leads P (runMicros r.todo s) := fun t ht => runMicros_keeps (fun m u _ => hP.micro m u) ht hs
    exact runs.andThen fun t ht => leads_next (hP.running none t ht)

theorem KeptOffReset.acceptIdle (w : Word) (plan : Plan) : Leads P (acceptIdle w plan s) := by
  obtain ⟨-, h⟩ | ⟨-, f, -, h⟩ | ⟨-, body, -, h⟩ := acceptIdle_cases w plan s <;> rw [h]
  · exact leads_next hs
  · exact leads_next (hP.fault w f s hs)
  · exact leads_next (hP.running _ s hs)

theorem KeptOffReset.launchOp (w : Word) (plan : Plan) : Leads P (launchOp w plan s) :=
  (hP.finishRunning hs).andThen fun _ ht => hP.acceptIdle ht w plan

theorem KeptOffReset.runOp (w : Word) (plan : Plan) : Leads P (runOp w plan s) :=
  (hP.launchOp hs w plan).andThen fun _ ht => hP.finishRunning ht

theorem KeptOffReset.exec (i : Instr) : Leads P (exec i s) := by
  rw [exec_eq_runOp]
  exact hP.runOp hs _ _

theorem KeptOffReset.launchCommand (w : Word) : Leads P (launchCommand w s) := by
  unfold Machine.launchCommand
  split <;> exact hP.launchOp hs _ _

theorem KeptOffReset.runCommand (w : Word) : Leads P (runCommand w s) := by
  rw [runCommand_eq_launchCommand]
  exact (hP.launchCommand hs w).andThen fun _ ht => hP.finishRunning ht

theorem KeptOffReset.microTick : Leads P (microTick s) := by
  intro u hu
  cases hr : s.running with
  | none =>
    rw [microTick_idle hr] at hu
    cases hu
    exact hs
  | some r =>
    obtain ⟨-, rfl⟩ | ⟨n, rfl⟩ | ⟨m, q, -, -, -, -, hm⟩ := microTick_cases hr hu
    · exact hP.running _ s hs
    · exact hP.running _ s hs
    · obtain ⟨-, rfl⟩ := perform_eq_next hm
      exact hP.micro m _ (hP.running _ s hs)

theorem KeptOffReset.hostWrite (off width : Nat) (v : Word) : Leads P (hostWrite off width v s) := by
  cases ht : hostTarget off width with
  | error e => exact hostWrite_of_error ht v s ▸ leads_refused P e
  | ok r =>
    rw [hostWrite_of_ok ht]
    split
    · exact hP.runCommand hs v
    · exact (hP.finishRunning hs).andThen fun t ht => leads_next (hP.write r v t ht)

theorem KeptOffReset.hostRead (off width : Nat) : Leads P (hostRead off width s) := by
  cases ht : hostTarget off width with
  | error e => exact hostRead_of_error ht s ▸ leads_refused P e
  | ok r => exact hostRead_of_ok ht s ▸ leads_next (hP.read _ s hs)

theorem KeptOffReset.runWait : Leads P (runWait s) := by
  unfold Machine.runWait
  split
  · exact hP.microTick (hP.read _ _ (hP.agenda _ s hs))
  · exact leads_next (hP.read _ s hs)

theorem KeptOffReset.runDevWrite (c v : Byte) : Leads P (runDevWrite c v s) := by
  unfold Machine.runDevWrite
  split
  · exact hP.exec hs _
  · exact hP.runOp hs _ _

theorem KeptOffReset.runDevRead (c : Byte) : Leads P (runDevRead c s) := by
  unfold Machine.runDevRead
  split
  · exact hP.exec hs _
  · exact hP.runOp hs _ _

theorem KeptOffReset.runAction {a : Action} (ha : a ≠ .reset) : Leads P (runAction a s) := by
  cases a with
  | write off width v => exact hP.hostWrite hs off width v
  | read off width => exact hP.hostRead hs off width
  | launch w => exact hP.launchCommand hs w
  | tick => exact hP.microTick hs
  | wait => exact hP.runWait hs
  | devWrite c v => exact hP.runDevWrite hs c v
  | devRead c => exact hP.runDevRead hs c
  | reset => exact absurd rfl ha

theorem KeptOffReset.step (ha : ∀ rest, s.agenda ≠ .reset :: rest) : Leads P (step s) := by
  cases h : s.agenda with
  | nil => exact step_of_agenda_nil h ▸ hP.microTick hs
  | cons a rest =>
    rw [step_of_agenda h]
    exact hP.runAction (hP.agenda rest s hs) fun hreset => ha rest (hreset ▸ h)

end kept

/-- No micro-step clears CONFIGURED (rule R26). -/
theorem configured_microEffect (m : Micro) {s : State} (h : s.configured = true) :
    (microEffect m s).configured = true := by
  cases m with
  | setConfigured => rfl
  | drive r b => cases r <;> exact h
  | setDir r d => cases r <;> exact h
  | resultAcc f => cases f <;> exact h
  | _ => exact h

/-- The parameters are those of `s`, and CONFIGURED and FAULT are 1 where they are in `s`. -/
def KeepsConfiguredAndFault (s t : State) : Prop :=
  t.cfg = s.cfg ∧ (s.configured = true → t.configured = true) ∧ (s.fault = true → t.fault = true)

theorem keptOffReset_keepsConfiguredAndFault (s : State) : KeptOffReset (KeepsConfiguredAndFault s) where
  micro m t := by
    rintro ⟨hcfg, hc, hf⟩
    exact ⟨by rwa [microEffect_cfg], fun h => configured_microEffect m (hc h), fun h => by rw [microEffect_fault, hf h]⟩
  fault _ _ _ := by
    rintro ⟨hcfg, hc, -⟩
    exact ⟨hcfg, hc, fun _ => rfl⟩
  running _ _ h := h
  agenda _ _ h := h
  read _ _ h := h
  write r _ _ h := by cases r <;> exact h

/-- Settles O19. -/
theorem configuredAndFaultFallOnlyByReset : Obligations.ConfiguredAndFaultFallOnlyByReset := by
  intro s t h
  have kept (ha : ∀ rest, s.agenda ≠ .reset :: rest) : KeepsConfiguredAndFault s t :=
    (keptOffReset_keepsConfiguredAndFault s).step ⟨rfl, id, id⟩ ha t h
  refine ⟨?_, fun ha => (kept ha).2⟩
  by_cases ha : ∃ rest, s.agenda = .reset :: rest
  · obtain ⟨rest, ha⟩ := ha
    rw [step_of_agenda ha] at h
    cases h
    rfl
  · exact (kept (not_exists.mp ha)).1

end Sys2Proof.Machine
end

section
/-! Frames of the instructions (10_state.md sections 2 to 4, 60_exceptions.md section 2): from the body of each, what it
leaves unchanged, running or faulting. -/

namespace Sys2Proof.Machine

/-! ## The body of an instruction -/

/-- The micro-steps of an instruction that passes its checks; `n` is the result of a codec operation. -/
def bodyOf (n : Nat) : Instr → List Micro
  | .busReset => okBody procReset
  | .busStart c => okBody (procStart (.lit c))
  | .busWriteByte b => okBody (procShiftOut (.lit b) .xfer)
  | .busReadByte => okBody (procShiftIn ++ [.resultAcc none])
  | .writeReg c v => okBody (devWrite (.lit c) (.lit v))
  | .readReg c => okBody (devRead (.lit c) ++ [.resultAcc none])
  | .getSeconds => getterBody .seconds .seconds
  | .getMinutes => getterBody .minutes .minutes
  | .getHours is12h => getterBody .hours (if is12h then .hours12 else .hours24)
  | .rangeMin _ | .rangeMax _ | .dateMax _ _ | .encode _ _ | .decode _ _ => resultBody n
  | .setWp enabled => okBody (devWrite (.cmdWr .wp) (.lit (wpByte enabled)))
  | .getDatetime true => okBody (aggregateOrder.flatMap fun r => devRead (.cmdRd r) ++ [.dtAcc r])
  | .setDatetime true => okBody (aggregateOrder.flatMap fun r => devWrite (.cmdWr r) (.dt r))
  | .getDatetime false | .setDatetime false => okBody []
  | .configure true =>
    [.latchPins, .setDir .sclk .output, .drive .sclk false, .setDir .io .output, .drive .io false, .setDir .ce .output,
      .drive .ce false, .setConfigured, .setBus .idle, .setOk true]
  | .configure false => [.setOk false]
  | .wireWrSeconds v => devWrite (.lit 0x80) (.lit v)
  | .wireRdSeconds => devRead (.lit 0x81)
  | .wireWrMinutes v => devWrite (.lit 0x82) (.lit v)
  | .wireRdMinutes => devRead (.lit 0x83)
  | .wireWrHours v => devWrite (.lit 0x84) (.lit v)
  | .wireRdHours => devRead (.lit 0x85)
  | .wireWrDate v => devWrite (.lit 0x86) (.lit v)
  | .wireRdDate => devRead (.lit 0x87)
  | .wireWrMonth v => devWrite (.lit 0x88) (.lit v)
  | .wireRdMonth => devRead (.lit 0x89)
  | .wireWrWeekday v => devWrite (.lit 0x8A) (.lit v)
  | .wireRdWeekday => devRead (.lit 0x8B)
  | .wireWrYear v => devWrite (.lit 0x8C) (.lit v)
  | .wireRdYear => devRead (.lit 0x8D)
  | .wireWrWp v => devWrite (.lit 0x8E) (.lit v)
  | .wireRdWp => devRead (.lit 0x8F)

theorem planSetDatetime_ok {s : State} {body : List Micro} (h : planSetDatetime true s = .ok body) :
    body = okBody (aggregateOrder.flatMap fun r => devWrite (.cmdWr r) (.dt r)) := by
  simp only [planSetDatetime, if_true] at h
  split at h
  · split at h <;> cases h
    rfl
  · cases h

/-- The plan of an instruction answers its body or a fault. -/
theorem planOf_ok {i : Instr} {s : State} {body : List Micro} (h : planOf i s = .ok body) : ∃ n, body = bodyOf n i := by
  cases i with
  | rangeMin f => exact planRangeMin_ok (s := s) h
  | rangeMax f => exact planRangeMax_ok (s := s) h
  | dateMax y m => exact planDateMax_ok (s := s) h
  | encode f v => exact planEncode_ok (s := s) h
  | decode f p => exact planDecode_ok (s := s) h
  | getDatetime p =>
    cases p with
    | false => cases h; exact ⟨0, rfl⟩
    | true => exact ⟨0, (whenConfigured_ok h).2⟩
  | setDatetime p =>
    cases p with
    | false => cases h; exact ⟨0, rfl⟩
    | true => exact ⟨0, planSetDatetime_ok h⟩
  | configure p => cases p <;> cases h <;> exact ⟨0, rfl⟩
  | _ => exact ⟨0, (whenConfigured_ok h).2⟩

/-- An instruction on an accepting block takes its fault or runs its body (rules R89, R149). -/
theorem exec_accepting_cases {i : Instr} {s t : State} (hA : Accepting s) (h : exec i s = .next t) :
    (∃ f, planOf i s = .error f ∧ t = raiseFault (commandWord i) f s) ∨
      ∃ n u, planOf i s = .ok (bodyOf n i) ∧ runMicros (bodyOf n i) (beginOp (commandWord i) (bodyOf n i) s) = .next u ∧
        t = { u with running := none } := by
  cases hp : planOf i s with
  | error f =>
    rw [exec_fault hA hp] at h
    cases h
    exact .inl ⟨f, rfl, rfl⟩
  | ok body =>
    obtain ⟨n, rfl⟩ := planOf_ok hp
    rw [exec_eq_runOp, runOp_body _ hA.2 hA.1 hp] at h
    obtain ⟨u, hu, h⟩ := andThen_eq_next h
    cases h
    exact .inr ⟨n, u, rfl, hu, rfl⟩

/-! ## Registers an instruction writes -/

/-- The registers that only some operations write: PINS and CONFIGURED, DT, RESULT. -/
inductive WrittenReg where
  | config | dt | result
  deriving DecidableEq

/-- Which of them a micro-step writes. -/
def Micro.writtenReg : Micro → Option WrittenReg
  | .latchPins | .setConfigured => some .config
  | .dtAcc _ => some .dt
  | .setResult _ | .resultAcc _ => some .result
  | .drive _ _ | .driveBit _ | .setDir _ _ | .sample | .delay => none
  | .setBus _ | .settleBus | .setBit _ | .loadShift _ | .clearAcc | .orAcc _ | .setOk _ => none

/-- Which of them an instruction writes (rules R20, R24 to R26). -/
def writtenRegOf : Instr → Option WrittenReg
  | .configure true => some .config
  | .getDatetime true => some .dt
  | .busReadByte | .readReg _ | .getSeconds | .getMinutes | .getHours _ => some .result
  | .rangeMin _ | .rangeMax _ | .dateMax _ _ | .encode _ _ | .decode _ _ => some .result
  | .busReset | .busStart _ | .busWriteByte _ | .writeReg _ _ | .setWp _ => none
  | .getDatetime false | .setDatetime _ | .configure false => none
  | .wireWrSeconds _ | .wireRdSeconds | .wireWrMinutes _ | .wireRdMinutes => none
  | .wireWrHours _ | .wireRdHours | .wireWrDate _ | .wireRdDate => none
  | .wireWrMonth _ | .wireRdMonth | .wireWrWeekday _ | .wireRdWeekday => none
  | .wireWrYear _ | .wireRdYear | .wireWrWp _ | .wireRdWp => none

/-- Micro-steps that write none of these registers but `ρ`. -/
def WritesOnly (ρ : Option WrittenReg) (ms : List Micro) : Prop := ∀ m ∈ ms, m.writtenReg.all (ρ == some ·) = true

section bodies
variable {ρ : Option WrittenReg} {ms ns : List Micro}

theorem WritesOnly.append (hm : WritesOnly ρ ms) (hn : WritesOnly ρ ns) : WritesOnly ρ (ms ++ ns) :=
  List.forall_mem_append.mpr ⟨hm, hn⟩

theorem WritesOnly.flatMap {α : Type} {f : α → List Micro} (hf : ∀ a, WritesOnly ρ (f a)) (as : List α) :
    WritesOnly ρ (as.flatMap f) := by
  intro m hm
  obtain ⟨a, -, ha⟩ := List.mem_flatMap.mp hm
  exact hf a m ha

theorem WritesOnly.okBody (hm : WritesOnly ρ ms) : WritesOnly ρ (okBody ms) := hm.append (List.all_eq_true.mp rfl)

theorem writesOnly_procReset : WritesOnly ρ procReset := List.all_eq_true.mp rfl

theorem writesOnly_procShiftOut (src : ByteSrc) (phase : BusState) : WritesOnly ρ (procShiftOut src phase) :=
  List.all_eq_true.mp rfl

theorem writesOnly_procShiftIn : WritesOnly ρ procShiftIn := List.all_eq_true.mp rfl

theorem writesOnly_procStart (cmd : ByteSrc) : WritesOnly ρ (procStart cmd) :=
  .append (List.all_eq_true.mp rfl) (writesOnly_procShiftOut cmd .cmd)

theorem writesOnly_devWrite (cmd v : ByteSrc) : WritesOnly ρ (devWrite cmd v) :=
  ((writesOnly_procStart cmd).append (writesOnly_procShiftOut v .xfer)).append writesOnly_procReset

theorem writesOnly_devRead (cmd : ByteSrc) : WritesOnly ρ (devRead cmd) :=
  ((writesOnly_procStart cmd).append writesOnly_procShiftIn).append writesOnly_procReset

theorem writesOnly_resultAcc (f : Option Field) : WritesOnly (some .result) [.resultAcc f] := List.all_eq_true.mp rfl

theorem writesOnly_dtAcc (r : DevReg) : WritesOnly (some .dt) [.dtAcc r] := List.all_eq_true.mp rfl

theorem writesOnly_bodyOf (n : Nat) (i : Instr) : WritesOnly (writtenRegOf i) (bodyOf n i) := by
  cases i with
  | busReset => exact writesOnly_procReset.okBody
  | busStart c => exact (writesOnly_procStart _).okBody
  | busWriteByte b => exact (writesOnly_procShiftOut _ _).okBody
  | busReadByte => exact (writesOnly_procShiftIn.append (writesOnly_resultAcc _)).okBody
  | readReg c | getSeconds | getMinutes | getHours p =>
    exact ((writesOnly_devRead _).append (writesOnly_resultAcc _)).okBody
  | rangeMin f | rangeMax f | dateMax y m | encode f v | decode f p => exact List.all_eq_true.mp rfl
  | writeReg c v | setWp p => exact (writesOnly_devWrite _ _).okBody
  | getDatetime p =>
    cases p with
    | false => exact List.all_eq_true.mp rfl
    | true => exact (WritesOnly.flatMap (fun r => (writesOnly_devRead _).append (writesOnly_dtAcc r)) _).okBody
  | setDatetime p =>
    cases p with
    | false => exact List.all_eq_true.mp rfl
    | true => exact (WritesOnly.flatMap (fun r => writesOnly_devWrite (.cmdWr r) (.dt r)) _).okBody
  | configure p => cases p <;> exact List.all_eq_true.mp rfl
  | wireWrSeconds v | wireWrMinutes v | wireWrHours v | wireWrDate v | wireWrMonth v | wireWrWeekday v
  | wireWrYear v | wireWrWp v => exact writesOnly_devWrite _ _
  | wireRdSeconds | wireRdMinutes | wireRdHours | wireRdDate | wireRdMonth | wireRdWeekday | wireRdYear
  | wireRdWp => exact writesOnly_devRead _

end bodies

/-- A property that each micro-step of a run keeps holds after the run. -/
theorem runMicros_keeps_of_mem {P : State → Prop} {ms : List Micro} (hP : ∀ m ∈ ms, ∀ s, P s → P (microEffect m s))
    {s t : State} (h : runMicros ms s = .next t) (hs : P s) : P t := by
  induction ms generalizing s with
  | nil => cases h; exact hs
  | cons m ms ih =>
    obtain ⟨hm, hms⟩ := List.forall_mem_cons.mp hP
    obtain ⟨u, hu, h⟩ := andThen_eq_next h
    obtain ⟨-, rfl⟩ := perform_eq_next hu
    exact ih hms h (hm s hs)

/-- `t` differs from `s`, of the registers that only some operations write, in `ρ` at most. -/
def KeepsRegsBut (ρ : Option WrittenReg) (s t : State) : Prop :=
  (ρ ≠ some .config → t.pins = s.pins ∧ t.configured = s.configured) ∧ (ρ ≠ some .dt → t.dt = s.dt) ∧
    (ρ ≠ some .result → t.result = s.result)

theorem keepsRegsBut_of_eq {ρ : Option WrittenReg} {s t : State} (hpins : t.pins = s.pins)
    (hcfg : t.configured = s.configured) (hdt : t.dt = s.dt) (hresult : t.result = s.result) : KeepsRegsBut ρ s t :=
  ⟨fun _ => ⟨hpins, hcfg⟩, fun _ => hdt, fun _ => hresult⟩

/-- A micro-step keeps the registers it does not write. -/
theorem keepsRegsBut_microEffect (m : Micro) (s : State) : KeepsRegsBut m.writtenReg s (microEffect m s) := by
  cases m with
  | drive r b => cases r <;> exact keepsRegsBut_of_eq rfl rfl rfl rfl
  | setDir r d => cases r <;> exact keepsRegsBut_of_eq rfl rfl rfl rfl
  | resultAcc f => cases f <;> exact ⟨fun _ => ⟨rfl, rfl⟩, fun _ => rfl, fun h => absurd rfl h⟩
  | setResult v => exact ⟨fun _ => ⟨rfl, rfl⟩, fun _ => rfl, fun h => absurd rfl h⟩
  | dtAcc r => exact ⟨fun _ => ⟨rfl, rfl⟩, fun h => absurd rfl h, fun _ => rfl⟩
  | latchPins | setConfigured => exact ⟨fun h => absurd rfl h, fun _ => rfl, fun _ => rfl⟩
  | _ => exact keepsRegsBut_of_eq rfl rfl rfl rfl

theorem WritesOnly.keepsRegsBut {ρ : Option WrittenReg} {ms : List Micro} (hms : WritesOnly ρ ms) {s t : State}
    (h : runMicros ms s = .next t) : KeepsRegsBut ρ s t := by
  refine runMicros_keeps_of_mem (P := KeepsRegsBut ρ s) (fun m hm u hu => ?_) h
    (keepsRegsBut_of_eq rfl rfl rfl rfl)
  obtain ⟨hconfig, hdt, hresult⟩ := keepsRegsBut_microEffect m u
  obtain ⟨hconfig', hdt', hresult'⟩ := hu
  have other : ∀ x, ρ ≠ some x → m.writtenReg ≠ some x := by
    intro x hx hm'
    have only := hms m hm
    simp [hm', hx] at only
  refine ⟨fun hρ => ?_, fun hρ => ?_, fun hρ => ?_⟩
  · obtain ⟨hp, hc⟩ := hconfig (other _ hρ)
    obtain ⟨hp', hc'⟩ := hconfig' hρ
    exact ⟨hp.trans hp', hc.trans hc'⟩
  · exact (hdt (other _ hρ)).trans (hdt' hρ)
  · exact (hresult (other _ hρ)).trans (hresult' hρ)

/-- CE and SCLK are no inputs where they are none in `s` (rule R34). -/
def FloatsNoControl (s t : State) : Prop :=
  (s.ce.dir ≠ some .floating → t.ce.dir ≠ some .floating) ∧ (s.sclk.dir ≠ some .floating → t.sclk.dir ≠ some .floating)

/-- A micro-step that floats no line but IO leaves CE and SCLK outputs. -/
theorem floatsNoControl_microEffect {m : Micro} (hm : m.keepsPins = true ∨ m = .latchPins) (s : State) :
    FloatsNoControl s (microEffect m s) := by
  cases m with
  | drive r b => cases r <;> exact ⟨id, id⟩
  | setDir r d =>
    cases r <;> cases d
    case ce.output => exact ⟨fun _ => nofun, id⟩
    case sclk.output => exact ⟨id, fun _ => nofun⟩
    case ce.floating | sclk.floating => simp [Micro.keepsPins] at hm
    all_goals exact ⟨id, id⟩
  | resultAcc f => cases f <;> exact ⟨id, id⟩
  | _ => exact ⟨id, id⟩

theorem LatchesFirst.floatsNoControl {body : List Micro} (hb : LatchesFirst body) {s t : State}
    (h : runMicros body s = .next t) : FloatsNoControl s t := by
  have each : ∀ m ∈ body, m.keepsPins = true ∨ m = .latchPins := by
    obtain hk | ⟨ms, rfl, hk⟩ := hb
    · exact fun m hm => .inl (hk m hm)
    · exact List.forall_mem_cons.mpr ⟨.inr rfl, fun m hm => .inl (hk m hm)⟩
  refine runMicros_keeps_of_mem (P := FloatsNoControl s) (fun m hm u hu => ?_) h ⟨id, id⟩
  obtain ⟨hce, hsclk⟩ := floatsNoControl_microEffect (each m hm) u
  exact ⟨hce ∘ hu.1, hsclk ∘ hu.2⟩

/-- What an instruction on an idle block leaves of it. -/
structure ExecFrame (i : Instr) (s t : State) : Prop where
  running : t.running = none
  cfg : t.cfg = s.cfg
  pincfg : t.pincfg = s.pincfg
  agenda : t.agenda = s.agenda
  reads : t.reads = s.reads
  regs : KeepsRegsBut (writtenRegOf i) s t
  lines : FloatsNoControl s t

theorem execFrame {i : Instr} {s t : State} (hr : s.running = none) (h : exec i s = .next t) : ExecFrame i s t := by
  obtain rfl | ⟨f, -, rfl⟩ | ⟨body, u, hp, hu, rfl⟩ := exec_idle_cases hr h
  · exact ⟨hr, rfl, rfl, rfl, rfl, keepsRegsBut_of_eq rfl rfl rfl rfl, ⟨id, id⟩⟩
  · exact ⟨rfl, rfl, rfl, rfl, rfl, keepsRegsBut_of_eq rfl rfl rfl rfl, ⟨id, id⟩⟩
  · have lines : FloatsNoControl (beginOp (commandWord i) body s) u := (latchesFirst_planOf hp).floatsNoControl hu
    obtain ⟨n, rfl⟩ := planOf_ok hp
    obtain ⟨hcfg, -, hpincfg, hagenda, hreads⟩ := runMicros_frame hu
    have regs : KeepsRegsBut (writtenRegOf i) (beginOp (commandWord i) (bodyOf n i) s) u :=
      (writesOnly_bodyOf n i).keepsRegsBut hu
    exact ⟨rfl, hcfg, hpincfg, hagenda, hreads, regs, lines⟩

theorem writtenRegOf_eq_config {i : Instr} (h : writtenRegOf i = some .config) : i = .configure true := by
  unfold writtenRegOf at h
  split at h <;> cases h
  rfl

theorem writtenRegOf_eq_dt {i : Instr} (h : writtenRegOf i = some .dt) : i = .getDatetime true := by
  unfold writtenRegOf at h
  split at h <;> cases h
  rfl

/-- Settles O20. -/
theorem instructionsKeepOtherRegisters : Obligations.InstructionsKeepOtherRegisters := by
  intro i s t hr h
  obtain ⟨hrun, hcfg, hpincfg, hagenda, hreads, ⟨hconfig, hdt, hresult⟩, hce, hsclk⟩ := execFrame hr h
  refine ⟨hrun, hcfg, hpincfg, hagenda, hreads, fun hi => hconfig (hi ∘ writtenRegOf_eq_config),
    fun hi => hdt (hi ∘ writtenRegOf_eq_dt), fun hi => hresult ?_, hce, hsclk⟩
  unfold writtenRegOf
  split <;> simp_all

/-! ## Codec operations and null forms -/

/-- An operation that only writes RESULT or OK. -/
theorem runMicros_bodyOf_of_quiet {i : Instr} {n : Nat} {w : Word} {s u : State} (hr : s.running = none)
    (hq : bodyOf n i = resultBody n ∨ bodyOf n i = okBody [] ∨ bodyOf n i = [.setOk false])
    (h : runMicros (bodyOf n i) (beginOp w (bodyOf n i) s) = .next u) :
    { u with running := none } = { s with result := u.result, ok := u.ok } := by
  obtain hb | hb | hb := hq <;> rw [hb] at h <;> cases h <;> simp [microEffect, beginOp, hr]

/-- Settles O21: the body is at most an assignment of RESULT and one of OK. -/
theorem codecAndNullFormsTouchNoLine : Obligations.CodecAndNullFormsTouchNoLine := by
  intro i s t hr hi h
  obtain rfl | ⟨f, -, rfl⟩ | ⟨body, u, hp, hu, rfl⟩ := exec_idle_cases hr h
  · rfl
  · simp [raiseFault, hr]
  · obtain ⟨n, rfl⟩ := planOf_ok hp
    have quiet : bodyOf n i = resultBody n ∨ bodyOf n i = okBody [] ∨ bodyOf n i = [.setOk false] := by
      rcases hi with ⟨_, rfl⟩ | ⟨_, rfl⟩ | ⟨_, _, rfl⟩ | ⟨_, _, rfl⟩ | ⟨_, _, rfl⟩ | rfl | rfl | rfl <;>
        simp [bodyOf]
    rw [runMicros_bodyOf_of_quiet hr quiet hu]

/-! ## Faults -/

/-- Settles O22: an accepting block takes a fault before any micro-step, and no micro-step raises one. -/
theorem faultsArePrecise : Obligations.FaultsArePrecise := by
  intro i s t hA h hfault
  obtain ⟨f, hp, rfl⟩ | ⟨n, u, -, hu, rfl⟩ := exec_accepting_cases hA h
  · exact ⟨by simp [raiseFault, hA.2], faultsHaveCause_planOf i s f hp⟩
  · obtain ⟨-, hf, -⟩ := runMicros_frame hu
    have kept : u.fault = s.fault := hf
    simp [kept, hA.1] at hfault

theorem exec_of_faulted {s : State} (hr : s.running = none) (hf : s.fault = true) (i : Instr) :
    exec i s = .next s := by
  rw [exec_eq_runOp, runOp_discarded _ _ hr hf]

theorem runCommand_of_faulted {s : State} (hr : s.running = none) (hf : s.fault = true) (w : Word) :
    runCommand w s = .next s := by
  unfold runCommand
  split
  · exact exec_of_faulted hr hf _
  · exact runOp_discarded _ _ hr hf

/-- A host write of a register other than CMD, on an idle block (rule R40). -/
theorem step_of_hostWrite {s : State} {off : Nat} {v : Word} {rest : List Action} {r : HostReg}
    (hr : s.running = none) (ha : s.agenda = .write off 4 v :: rest) (hreg : hostTarget off 4 = .ok r)
    (hcmd : r ≠ .cmd) : step s = .next (writeHostReg r v { s with agenda := rest }) := by
  rw [step_of_agenda ha, runAction, hostWrite_of_ok hreg, if_neg hcmd,
    finishRunning_idle (s := { s with agenda := rest }) hr]
  rfl

/-- Settles O23. -/
theorem faultedBlockDiscardsCommands : Obligations.FaultedBlockDiscardsCommands := by
  intro s rest hf hr
  refine ⟨exec_of_faulted hr hf, fun w ha => ?_, fun v ha => ?_, fun v ha => ?_⟩
  · rw [step_of_cmdWrite ha]
    exact runCommand_of_faulted (s := { s with agenda := rest }) hr hf w
  · exact step_of_hostWrite (r := .pincfg) hr ha rfl nofun
  · exact step_of_hostWrite (r := .dtSec) hr ha rfl nofun

end Sys2Proof.Machine
end

section
/-! The events an instruction adds (70_reset_and_hazards.md rules R169, R172): how many, and that none reaches a line its
pins do not name. -/

namespace Sys2Proof.Machine

/-! ## The timing table -/

/-- A row of the timing table from its counts: a `Delay` lasts 2 microseconds at the default `T_HALF`. -/
def timingOf (c : Nat × Nat × Nat) : Nat × Nat × Nat × Nat := (c.1, c.2.1, c.2.2, c.2.1 * 2)

@[simp] theorem eventCounts_okBody (ms : List Micro) : eventCounts (okBody ms) = eventCounts ms := by
  rw [okBody, eventCounts_append]
  rfl

theorem eventCounts_flatMap {α : Type} {f : α → List Micro} {c : Nat × Nat × Nat} (hf : ∀ a, eventCounts (f a) = c)
    (as : List α) : eventCounts (as.flatMap f) = as.length • c := by
  induction as with
  | nil => rw [List.length_nil, zero_nsmul]; rfl
  | cons a as ih => rw [List.flatMap_cons, eventCounts_append, hf, ih, List.length_cons, succ_nsmul']

/-- The events among the micro-steps of an operation are those of its row. -/
theorem timingOf_bodyOf (n : Nat) (i : Instr) : timingOf (eventCounts (bodyOf n i)) = timingRow i := by
  have result (f : Option Field) : eventCounts [.resultAcc f] = 0 := rfl
  have store (r : DevReg) : eventCounts [.dtAcc r] = 0 := rfl
  cases i with
  | getDatetime p =>
    cases p with
    | false => rfl
    | true =>
      rw [bodyOf, eventCounts_okBody, eventCounts_flatMap (c := (96, 42, 8)) (by simp [eventCounts_append, store])]
      rfl
  | setDatetime p =>
    cases p with
    | false => rfl
    | true =>
      rw [bodyOf, eventCounts_okBody, eventCounts_flatMap (c := (104, 50, 0)) (by simp)]
      rfl
  | configure p => cases p <;> rfl
  | _ => simp [bodyOf, getterBody, eventCounts_append, result]; rfl

/-- Settles O37: an operation adds the events among its micro-steps. -/
theorem operationsAddTheirEvents : Obligations.OperationsAddTheirEvents := by
  intro i s t hA h hf
  obtain ⟨f, -, rfl⟩ | ⟨n, u, -, hu, rfl⟩ := exec_accepting_cases hA h
  · cases hf
  · refine ⟨runEvents (bodyOf n i) (beginOp (commandWord i) (bodyOf n i) s), trace_runMicros hu, ?_⟩
    rw [← timingOf_bodyOf n i, ← traceCounts_runEvents]
    rfl

/-! ## Lines a pin assignment does not name (rule R169) -/

/-- An event on another pin leaves a line as it was. -/
theorem lineStep_of_resolvesTo {pins : BitVec 24} {e : Event} (he : ResolvesTo pins e) {p : PinId}
    (hp : ∀ r, rolePin pins r ≠ p) (cur : Option Line) : lineStep p cur e = cur := by
  obtain rfl | ⟨r, b, rfl⟩ | ⟨r, b, rfl⟩ | rfl | ⟨b, rfl⟩ := he <;> simp [lineStep, hp]

theorem lineNow_of_addsResolvedEvents {s t : State} (h : AddsResolvedEvents s t) {p : PinId}
    (hp : ∀ r, rolePin t.pins r ≠ p) : lineNow t.trace p = lineNow s.trace p := by
  obtain ⟨es, htrace, hes⟩ := h
  rw [htrace, lineNow, List.foldl_append, ← lineNow]
  exact List.foldlRecOn (motive := (· = lineNow s.trace p)) es (lineStep p) rfl fun cur hcur e he => by
    rw [lineStep_of_resolvesTo (hes e he) hp, hcur]

theorem lineNow_execAll {is : List Instr} {t u : State} {p : PinId} (hr : t.running = none)
    (hp : ∀ r, rolePin t.pins r ≠ p) (his : ∀ i ∈ is, i ≠ .configure true) (h : execAll is t = .next u) :
    lineNow u.trace p = lineNow t.trace p := by
  induction is generalizing t with
  | nil => cases h; rfl
  | cons i is ih =>
    obtain ⟨hi, his⟩ := List.forall_mem_cons.mp his
    obtain ⟨v, hv, h⟩ := andThen_eq_next h
    have frame := execFrame hr hv
    have hpins : v.pins = t.pins := (frame.regs.1 (hi ∘ writtenRegOf_eq_config)).1
    have hpv : ∀ r, rolePin v.pins r ≠ p := by rwa [hpins]
    rw [ih frame.running hpv his h, lineNow_of_addsResolvedEvents (exec_addsResolvedEvents hr hv) hpv]

/-- Settles O54: CONFIGURE writes PINS before its first event, and no later instruction writes it, so no event reaches a
line the assignment does not name. -/
theorem oldLinesKeepTheirLevels : Obligations.OldLinesKeepTheirLevels := by
  intro s t u is p hr h hf hp his hall
  have hA : Accepting s := by
    refine ⟨?_, hr⟩
    by_contra hs
    rw [exec_of_faulted hr (by simpa using hs)] at h
    cases h
    exact hs hf
  have added := exec_addsResolvedEvents hr h
  have hrun := (execFrame hr h).running
  have hpins : t.pins = s.pincfg := by
    rw [exec_configure_present hA] at h
    cases h
    rfl
  rw [← hpins] at hp
  have now := lineNow_of_addsResolvedEvents added hp
  exact ⟨now, (lineNow_execAll hrun hp his hall).trans now⟩

end Sys2Proof.Machine
end

section
/-! The wire command rows and the datetime aggregate (30_encoding.md section 3, 42_public_api.md section 4): transactions of
the bus, one or seven in a row, and the fault they take before CONFIGURE. -/

namespace Sys2Proof.Machine

/-! ## Wire command rows (rules R94, R95, log 6) -/

section wire
variable {i : Instr} {c v : Byte} {s : State}

theorem exec_wireWrite_of_ready (hp : planOf i = planWireWrite c v) (hR : Ready s) :
    exec i s = .next (afterWrite c v s) := by
  obtain ⟨hf, hr, hcfg, hl⟩ := hR
  rw [exec_eq_runOp, hp]
  refine runOp_of_body _ ⟨hf, hr⟩ (whenConfigured_of_configured _ hcfg)
    ⟨_, runMicros_devWrite _ _ hcfg hl (timerIdle_beginOp _ _ _), ?_⟩
  simp [advance, afterWrite, srcByte, hr]

theorem exec_wireRead_of_ready (hp : planOf i = planWireRead c) (hR : Ready s) :
    exec i s = .next (afterRead c s) := by
  obtain ⟨hf, hr, hcfg, hl⟩ := hR
  rw [exec_eq_runOp, hp]
  refine runOp_of_body _ ⟨hf, hr⟩ (whenConfigured_of_configured _ hcfg)
    ⟨_, runMicros_devRead _ hcfg hl (timerIdle_beginOp _ _ _), ?_⟩
  simp [advance, afterRead, drawnByte, draw, srcByte, hr]

end wire

/-- Settles O30. -/
theorem wireWriteCommandsRun : Obligations.WireWriteCommandsRun := by
  intro v s hR
  refine ⟨?_, ?_, ?_, ?_, ?_, ?_, ?_, ?_⟩ <;> exact exec_wireWrite_of_ready rfl hR

/-- Settles O31. -/
theorem wireReadCommandsRun : Obligations.WireReadCommandsRun := by
  intro s hR
  refine ⟨?_, ?_, ?_, ?_, ?_, ?_, ?_, ?_⟩ <;> exact exec_wireRead_of_ready rfl hR

/-! ## Before CONFIGURE (rules R26, R148) -/

/-- SET_DATETIME checks CONFIGURED before the aggregate (rule R151). -/
theorem takesNotConfigured_setDatetime {s : State} (hA : Accepting s) (hcfg : s.configured = false) :
    TakesNotConfigured (.setDatetime true) s := by
  rw [TakesNotConfigured, exec_fault (r := ⟨.notConfigured, noField, 0⟩) hA (by simp [planOf, planSetDatetime, hcfg])]
  simp [raiseFault, faultArgOf, noField, hA.2]

/-- Settles O32. -/
theorem unconfiguredLineOperationsFault : Obligations.UnconfiguredLineOperationsFault := by
  intro i s hA hcfg hi
  cases i with
  | busReset | busStart | busWriteByte | busReadByte | writeReg | readReg | getSeconds | getMinutes | getHours | setWp =>
    exact takesNotConfigured_of_plan rfl hA hcfg
  | getDatetime p =>
    cases p with
    | false => simp at hi
    | true => exact takesNotConfigured_of_plan rfl hA hcfg
  | setDatetime p =>
    cases p with
    | false => simp at hi
    | true => exact takesNotConfigured_setDatetime hA hcfg
  | _ => simp at hi

/-- Settles O33. -/
theorem unconfiguredWireCommandsFault : Obligations.UnconfiguredWireCommandsFault := by
  intro i s hA hcfg hi
  cases i with
  | wireWrSeconds | wireRdSeconds | wireWrMinutes | wireRdMinutes | wireWrHours | wireRdHours | wireWrDate | wireRdDate
  | wireWrMonth | wireRdMonth | wireWrWeekday | wireRdWeekday | wireWrYear | wireRdYear | wireWrWp | wireRdWp =>
    exact takesNotConfigured_of_plan rfl hA hcfg
  | _ => cases hi

/-! ## Transactions in a row -/

/-- A line operation can go on: the block is configured, CE and SCLK are outputs, no `Delay` runs. -/
abbrev Drives (s : State) : Prop := s.configured = true ∧ DrivesCeSclk s ∧ TimerIdle s

/-- Runs one after another, each of `n` events and in a closed form that looks neither at the position nor at the timer. -/
theorem runMicros_flatMap {α : Type} {f : α → List Micro} {g : α → State → State} {n : Nat}
    (hrun : ∀ a s, Drives s → runMicros (f a) s = .next (advance n (g a s)))
    (hkeep : ∀ a s, Drives s → Drives (g a s)) (hpos : ∀ a k s, g a (advance k s) = advance k (g a s)) (as : List α)
    {s : State} (hs : Drives s) :
    runMicros (as.flatMap f) s = .next (advance (n * as.length) (as.foldl (fun t a => g a t) s)) := by
  induction as generalizing s with
  | nil => simp [advance_zero]
  | cons a as ih =>
    have later (l : List α) (t : State) :
        l.foldl (fun t a => g a t) (advance n t) = advance n (l.foldl (fun t a => g a t) t) := by
      induction l generalizing t with
      | nil => rfl
      | cons b l ihl => rw [List.foldl_cons, List.foldl_cons, hpos, ihl]
    obtain ⟨hcfg, hl, ht⟩ := hkeep a s hs
    rw [List.flatMap_cons, runMicros_append, hrun a s hs, andThen_next,
      ih (s := advance n (g a s)) ⟨hcfg, hl, timerIdle_advance n ht⟩, later, advance_advance, List.length_cons,
      Nat.mul_succ, Nat.add_comm, List.foldl_cons]

/-! ## GET_DATETIME (rule R144) -/

/-- After one read transaction of GET_DATETIME, its byte decoded into DT. -/
def afterReadStore (r : DevReg) (s : State) : State :=
  { afterRead (cmdRd s.cfg.addrMap r) s with dt := dtStore s.dt r (drawnByte s 0) }

theorem runMicros_readStore (r : DevReg) (s : State) (hs : Drives s) :
    runMicros (devRead (.cmdRd r) ++ [.dtAcc r]) s = .next (advance 96 (afterReadStore r s)) := by
  obtain ⟨hcfg, hl, ht⟩ := hs
  rw [runMicros_append, runMicros_devRead _ hcfg hl ht]
  rfl

section readStore
variable (r : DevReg) (s : State)

@[simp] theorem afterReadStore_cfg : (afterReadStore r s).cfg = s.cfg := rfl
@[simp] theorem afterReadStore_pins : (afterReadStore r s).pins = s.pins := rfl
@[simp] theorem afterReadStore_acc : (afterReadStore r s).acc = drawnByte s 0 := rfl
@[simp] theorem afterReadStore_sampled : (afterReadStore r s).sampled = draw s 7 := rfl
@[simp] theorem afterReadStore_dt : (afterReadStore r s).dt = dtStore s.dt r (drawnByte s 0) := rfl
@[simp] theorem afterReadStore_samples : (afterReadStore r s).samples = s.samples.drop 8 := rfl
@[simp] theorem afterReadStore_drawn : (afterReadStore r s).drawn = s.drawn + 8 := rfl
@[simp] theorem afterReadStore_io :
    (afterReadStore r s).io = ⟨some .floating, (cmdRd s.cfg.addrMap r).getLsbD 7⟩ := rfl
@[simp] theorem afterReadStore_trace : (afterReadStore r s).trace =
    s.trace ++ readEvents s.pins s.io.lvl (cmdRd s.cfg.addrMap r) (drawnByte s 0) := rfl

@[simp] theorem draw_afterReadStore (k : Nat) : draw (afterReadStore r s) k = draw s (8 + k) := draw_after s 8 k

@[simp] theorem drawnByte_afterReadStore (k : Nat) : drawnByte (afterReadStore r s) k = drawnByte s (8 + k) := by
  have later : draw (afterReadStore r s) = fun j => draw s (8 + j) := funext (draw_afterReadStore r s)
  rw [drawnByte, later]
  rfl

end readStore

/-- The DT registers that seven bytes, in the order of rule R57, are decoded into. -/
def dtOfReads (d : Nat → Byte) : DateTime :=
  ⟨decField .seconds (d 6), decField .minutes (d 5), (hoursUnpack (d 4)).1, decField .weekday (d 3),
    decField .date (d 2), decField .month (d 1), decField .year (d 0), (hoursUnpack (d 4)).2.1, (hoursUnpack (d 4)).2.2⟩

/-- The events of the seven read transactions, IO standing where the last bit of the command byte before has left it. -/
def aggregateReadEvents (s : State) (d : Nat → Byte) : List Event :=
  let c := cmdRd s.cfg.addrMap
  readEvents s.pins s.io.lvl (c .year) (d 0) ++
    readEvents s.pins ((c .year).getLsbD 7) (c .month) (d 1) ++
    readEvents s.pins ((c .month).getLsbD 7) (c .date) (d 2) ++
    readEvents s.pins ((c .date).getLsbD 7) (c .weekday) (d 3) ++
    readEvents s.pins ((c .weekday).getLsbD 7) (c .hours) (d 4) ++
    readEvents s.pins ((c .hours).getLsbD 7) (c .minutes) (d 5) ++
    readEvents s.pins ((c .minutes).getLsbD 7) (c .seconds) (d 6)

/-- After the seven read transactions of GET_DATETIME. -/
def afterAggregateRead (s : State) : State :=
  let d := fun k => drawnByte s (8 * k)
  { s with
    dt := dtOfReads d
    trace := s.trace ++ aggregateReadEvents s d
    busState := .idle
    bitIdx := 7
    shift := cmdRd s.cfg.addrMap .seconds
    acc := d 6
    sampled := draw s 55
    ce := { s.ce with lvl := false }
    sclk := { s.sclk with lvl := false }
    io := ⟨some .floating, (cmdRd s.cfg.addrMap .seconds).getLsbD 7⟩
    samples := s.samples.drop 56
    drawn := s.drawn + 56 }

/-- The seven transactions one after another. -/
theorem foldl_afterReadStore (s : State) :
    aggregateOrder.foldl (fun t r => afterReadStore r t) s = afterAggregateRead s := by
  simp only [aggregateOrder, List.foldl_cons, List.foldl_nil]
  apply State.ext
  case dt => simp [afterAggregateRead, dtOfReads, dtStore]
  case trace => simp [afterAggregateRead, aggregateReadEvents]
  case acc => simp [afterAggregateRead]
  case sampled => simp [afterAggregateRead]
  case samples => simp [afterAggregateRead]
  case drawn => simp [afterAggregateRead]
  all_goals simp [afterReadStore, afterRead, afterAggregateRead]

theorem exec_getDatetime_of_ready {s : State} (hR : Ready s) :
    exec (.getDatetime true) s = .next { afterAggregateRead s with ok := true } := by
  have ⟨_, hr, hcfg, hl⟩ := hR
  let body := aggregateOrder.flatMap fun r => devRead (.cmdRd r) ++ [.dtAcc r]
  have run := runMicros_flatMap runMicros_readStore (fun _ _ hs => ⟨hs.1, hs.2.1, timerIdle_congr rfl hs.2.2⟩)
    (fun _ _ _ => rfl) aggregateOrder (s := beginOp (commandWord (.getDatetime true)) (okBody body) s)
    ⟨hcfg, hl, timerIdle_beginOp _ _ _⟩
  rw [foldl_afterReadStore] at run
  refine runOp_of_ready (body := body) _ hR run ?_
  simp [advance, afterAggregateRead, aggregateReadEvents, drawnByte, draw, hr]

/-- Settles O50. -/
theorem getDatetimeReadsSevenRegisters : Obligations.GetDatetimeReadsSevenRegisters :=
  fun _ hR => ⟨_, exec_getDatetime_of_ready hR, rfl, rfl, rfl⟩

/-! ## SET_DATETIME (rule R145) -/

/-- After one write transaction of SET_DATETIME. -/
def afterWriteDt (r : DevReg) (s : State) : State := afterWrite (cmdWr s.cfg.addrMap r) (dtPacked s.dt r) s

theorem runMicros_writeDt (r : DevReg) (s : State) (hs : Drives s) :
    runMicros (devWrite (.cmdWr r) (.dt r)) s = .next (advance 104 (afterWriteDt r s)) :=
  runMicros_devWrite _ _ hs.1 hs.2.1 hs.2.2

/-- The events of the seven write transactions, IO standing where the last bit of the byte before has left it. -/
def aggregateWriteEvents (s : State) : List Event :=
  let c := cmdWr s.cfg.addrMap
  let d := dtPacked s.dt
  writeEvents s.pins s.io.lvl (c .year) (d .year) ++
    writeEvents s.pins ((d .year).getLsbD 7) (c .month) (d .month) ++
    writeEvents s.pins ((d .month).getLsbD 7) (c .date) (d .date) ++
    writeEvents s.pins ((d .date).getLsbD 7) (c .weekday) (d .weekday) ++
    writeEvents s.pins ((d .weekday).getLsbD 7) (c .hours) (d .hours) ++
    writeEvents s.pins ((d .hours).getLsbD 7) (c .minutes) (d .minutes) ++
    writeEvents s.pins ((d .minutes).getLsbD 7) (c .seconds) (d .seconds)

/-- After the seven write transactions of SET_DATETIME. -/
def afterAggregateWrite (s : State) : State :=
  { s with
    trace := s.trace ++ aggregateWriteEvents s
    busState := .idle
    bitIdx := 7
    shift := dtPacked s.dt .seconds
    ce := { s.ce with lvl := false }
    sclk := { s.sclk with lvl := false }
    io := ⟨some .output, (dtPacked s.dt .seconds).getLsbD 7⟩ }

theorem foldl_afterWriteDt (s : State) :
    aggregateOrder.foldl (fun t r => afterWriteDt r t) s = afterAggregateWrite s := by
  simp [aggregateOrder, afterWriteDt, afterWrite, afterAggregateWrite, aggregateWriteEvents]

/-- A valid aggregate fails no check (rule R143). -/
theorem dtFault_of_valid {d : DateTime} (h : ValidDateTime d) : dtFault d = none := by
  obtain ⟨hyear, hmon, ⟨hdate, n, hn, hdate'⟩, hwday, hfmt, h24, h12, hpm, hmin, hsec⟩ := h
  have hour : inRange (hourField d) d.hour = true := by
    obtain hf | hf := hfmt
    · simpa [hourField, hf, inRange_iff, rangeMinOf, staticMax, rangeMaxOf] using h24 hf
    · simpa [hourField, hf, inRange_iff, rangeMinOf, staticMax, rangeMaxOf] using h12 hf
  have passes : ∀ c ∈ dtChecks d, c.1 = true := by
    simp [dtChecks, hyear, hmon, hdate, hdate', hn, hwday, hour, hmin, hsec]
    tauto
  simpa [dtFault] using passes

theorem exec_setDatetime_of_ready {s : State} (hR : Ready s) (hv : ValidDateTime s.dt) :
    exec (.setDatetime true) s = .next { afterAggregateWrite s with ok := true } := by
  have ⟨hf, hr, hcfg, hl⟩ := hR
  let body := aggregateOrder.flatMap fun r => devWrite (.cmdWr r) (.dt r)
  have plan : planOf (.setDatetime true) s = .ok (okBody body) := by
    simp [planOf, planSetDatetime, hcfg, dtFault_of_valid hv, body]
  have run := runMicros_flatMap runMicros_writeDt (fun _ _ hs => ⟨hs.1, hs.2.1, timerIdle_congr rfl hs.2.2⟩)
    (fun _ _ _ => rfl) aggregateOrder (s := beginOp (commandWord (.setDatetime true)) (okBody body) s)
    ⟨hcfg, hl, timerIdle_beginOp _ _ _⟩
  rw [exec_eq_runOp]
  refine runOp_of_body _ ⟨hf, hr⟩ plan ⟨_, by rw [runMicros_okBody, run, andThen_next], ?_⟩
  rw [foldl_afterWriteDt]
  simp [advance, afterAggregateWrite, aggregateWriteEvents, hr]

/-- Settles O51. -/
theorem setDatetimeWritesSevenRegisters : Obligations.SetDatetimeWritesSevenRegisters :=
  fun _ hR hv => ⟨_, exec_setDatetime_of_ready hR hv, rfl, rfl⟩

end Sys2Proof.Machine
end

section
/-! Where an instruction comes from (rule R38, log 8), host access (rules R17 to R25, R42), block reset (rule R161), the
platform (rule R10), and the layouts of STATUS, the command bytes and the hours block (rules R19, R68, R137). -/

namespace Sys2Proof.Machine

/-! ## The instruction a step runs -/

section fetch
variable {s : State} {i : Instr} {rest : List Action}

theorem step_of_legalCmdWrite {w : Word} (ha : s.agenda = .write 0x00 4 w :: rest) (hd : decodeWord w = .ok i) :
    step s = exec i { s with agenda := rest } := by
  rw [step_of_cmdWrite ha, runCommand, hd]

theorem step_of_devWrite {c v : Byte} (ha : s.agenda = .devWrite c v :: rest) (hd : decode [c, v] = .ok i) :
    step s = exec i { s with agenda := rest } := by
  rw [step_of_agenda ha, runAction, runDevWrite, hd]

theorem step_of_devRead {c : Byte} (ha : s.agenda = .devRead c :: rest) (hd : decode [c] = .ok i) :
    step s = exec i { s with agenda := rest } := by
  rw [step_of_agenda ha, runAction, runDevRead, hd]

theorem decode_of_decodeTableWord {nbits w : Nat} (h : decodeTableWord nbits w = some i) :
    decode (tableBytes nbits w) = .ok i := by
  unfold decodeTableWord at h
  split at h <;> cases h
  assumption

/-- A 32-bit table word is a host write of CMD. -/
theorem step_withFetchWord_32 {w : Nat} (h : decodeTableWord 32 w = some i) :
    step (s.withFetchWord 32 w) = exec i s := by
  have hd : decodeWord (BitVec.ofNat 32 w) = .ok i := by
    rw [← decode_bytesOfWord]
    exact decode_of_decodeTableWord h
  have ha : (s.withFetchWord 32 w).agenda = .write 0x00 4 (BitVec.ofNat 32 w) :: s.agenda :=
    congrArg (fun v => Action.write 0x00 4 v :: s.agenda) (wordOfBytes_bytes _)
  exact step_of_legalCmdWrite ha hd

/-- An 8-bit table word is a transaction, of a read byte alone or of a write byte and its data byte. -/
theorem step_withFetchWord_8 {w : Nat} (h : decodeTableWord 8 w = some i) :
    step (s.withFetchWord 8 w) = exec i s := by
  have hd := decode_of_decodeTableWord h
  cases hb : (BitVec.ofNat 8 w).getLsbD 0 with
  | true =>
    have bytes : tableBytes 8 w = [BitVec.ofNat 8 w] := by simp only [tableBytes, hb]; rfl
    have ha : (s.withFetchWord 8 w).agenda = .devRead (BitVec.ofNat 8 w) :: s.agenda := by
      simp [State.withFetchWord, tableAction, bytes]
    exact step_of_devRead ha (bytes ▸ hd)
  | false =>
    have bytes : tableBytes 8 w = [BitVec.ofNat 8 w, BitVec.ofNat 8 (w / 256)] := by simp only [tableBytes, hb]; rfl
    have ha : (s.withFetchWord 8 w).agenda = .devWrite (BitVec.ofNat 8 w) (BitVec.ofNat 8 (w / 256)) :: s.agenda := by
      simp [State.withFetchWord, tableAction, bytes]
    exact step_of_devWrite ha (bytes ▸ hd)

end fetch

/-- Settles O7. -/
theorem stepRunsTheDecodedInstruction : Obligations.StepRunsTheDecodedInstruction := fun _ _ _ =>
  ⟨fun _ => step_of_legalCmdWrite, fun _ _ => step_of_devWrite, fun _ => step_of_devRead, fun _ => step_withFetchWord_32,
    fun _ => step_withFetchWord_8⟩

/-- Settles O13. -/
theorem blockResetRestoresResetState : Obligations.BlockResetRestoresResetState := by
  intro s rest ha
  rw [step_of_agenda ha]
  rfl

/-! ## Host access -/

theorem step_of_hostRead {s : State} {off : Nat} {rest : List Action} {r : HostReg} (ha : s.agenda = .read off 4 :: rest)
    (hr : hostTarget off 4 = .ok r) :
    step s = .next { s with agenda := rest, reads := s.reads ++ [readHostReg r { s with agenda := rest }] } := by
  rw [step_of_agenda ha, runAction, hostRead_of_ok hr]
  rfl

/-- Settles O56: a read of a register answers the word `readHostReg` packs from its field. -/
theorem hostReadsReturnRegisters : Obligations.HostReadsReturnRegisters := by
  intro s off v rest ha hv
  rcases hv with ⟨rfl, rfl⟩ | ⟨rfl, rfl⟩ | ⟨rfl, rfl⟩ | ⟨rfl, rfl⟩ | ⟨rfl, rfl⟩ | ⟨rfl, rfl⟩ | ⟨rfl, rfl⟩ | ⟨rfl, rfl⟩ |
    ⟨rfl, rfl⟩ | ⟨rfl, rfl⟩ | ⟨rfl, rfl⟩ | ⟨rfl, rfl⟩ | ⟨rfl, rfl⟩ | ⟨rfl, rfl⟩ | ⟨rfl, rfl⟩ | ⟨rfl, rfl⟩ <;>
    exact step_of_hostRead ha rfl

/-- Settles O57: a write of a register does what `writeHostReg` does to its field, which keeps the low bits of the word. -/
theorem hostWritesReachWritableRegisters : Obligations.HostWritesReachWritableRegisters := by
  intro s off v rest hr ha b t
  have low : b = v.setWidth 8 := (BitVec.setWidth_eq_extractLsb' (by decide)).symm
  have low24 : v.extractLsb' 0 24 = v.setWidth 24 := (BitVec.setWidth_eq_extractLsb' (by decide)).symm
  rw [low, low24]
  refine ⟨?readOnly, ?_, ?_, ?_, ?_, ?_, ?_, ?_, ?_, ?_, ?_⟩
  case readOnly =>
    rintro (rfl | rfl | rfl | rfl | rfl)
    · exact step_of_hostWrite (r := .status) hr ha rfl nofun
    · exact step_of_hostWrite (r := .result) hr ha rfl nofun
    · exact step_of_hostWrite (r := .faultInfo) hr ha rfl nofun
    · exact step_of_hostWrite (r := .faultArg) hr ha rfl nofun
    · exact step_of_hostWrite (r := .pins) hr ha rfl nofun
  all_goals
    rintro rfl
    exact step_of_hostWrite hr ha rfl nofun

/-! ## The platform -/

/-- Settles O58: only the k-th block of the list is replaced. -/
theorem stepLeavesOtherInstances : Obligations.StepLeavesOtherInstances := by
  intro p q k j h hj
  unfold stepBlock at h
  split at h
  · cases h
    exact ⟨rfl, rfl⟩
  · split at h <;> cases h
    exact ⟨List.getElem?_set_ne (Ne.symm hj), List.length_set⟩

/-! ## Layouts -/

/-- Settles O60. -/
theorem commandBytesFollowTheAddressMap : Obligations.CommandBytesFollowTheAddressMap := by
  refine ⟨fun m r => ?_, by decide⟩
  unfold cmdRd cmdWr
  generalize m.num r = a
  revert a
  decide

theorem getElem_flagBit (b : Bool) (n : Nat) {k : Nat} (hk : k < 32) : (flagBit b n)[k] = (b && k == n) := by
  cases b with
  | false => simp
  | true =>
    have bit := BitVec.getLsbD_twoPow (w := 32) n k
    rw [BitVec.twoPow_eq, BitVec.getLsbD_eq_getElem hk] at bit
    refine bit.trans ?_
    by_cases h : n = k
    · simp [h, hk]
    · simp [h, Ne.symm h]

/-- A bit of STATUS is that of the field the table of rule R19 puts there. -/
theorem getElem_statusWord (s : State) {k : Nat} (hk : k < 32) : (statusWord s)[k] =
    (!decide (k < 16) && (causeCode s.cause).getLsbD (k - 16) || !decide (k < 8) && s.bitIdx.getLsbD (k - 8) ||
      !decide (k < 4) && (busStateCode s.busState).getLsbD (k - 4) || s.ok && k == 3 || s.fault && k == 2 ||
      s.configured && k == 1 || s.running.isSome && k == 0) := by
  simp [statusWord, getElem_flagBit, busy]

/-- Settles O55. -/
theorem statusWordHoldsItsFields : Obligations.StatusWordHoldsItsFields := by
  intro s
  refine ⟨?_, ?_, ?_, ?_, ?bus, ?_, ?bit, ?gap, ?cause, ?top⟩
  case bus =>
    have field : (statusWord s).extractLsb' 4 3 = busStateCode s.busState :=
      BitVec.eq_of_getLsbD_eq fun k hk => by interval_cases k <;> simp [getElem_statusWord]
    rw [field]
    cases s.busState <;> rfl
  case cause =>
    have field : (statusWord s).extractLsb' 16 8 = causeCode s.cause :=
      BitVec.eq_of_getLsbD_eq fun k hk => by interval_cases k <;> simp [getElem_statusWord]
    rw [field]
    cases s.cause <;> rfl
  case bit | gap | top =>
    refine BitVec.eq_of_getLsbD_eq fun k hk => ?_
    interval_cases k <;> simp [getElem_statusWord]
  all_goals simp [getElem_statusWord]

/-! ### The hours block -/

/-- The twelve hours of the 12-hour format, before and after noon (rule R137). -/
theorem hoursUnpack_hoursPack_12h {h pm : Byte} (hlo : 1 ≤ h.toNat) (hhi : h.toNat ≤ 12) (hpm : pm = 0 ∨ pm = 1) :
    hoursUnpack (hoursPack h 1 pm) = (h, 1, pm) := by
  have table : ∀ k < 13, 1 ≤ k → hoursUnpack (hoursPack (BitVec.ofNat 8 k) 1 0) = (BitVec.ofNat 8 k, 1, 0) ∧
      hoursUnpack (hoursPack (BitVec.ofNat 8 k) 1 1) = (BitVec.ofNat 8 k, 1, 1) := by decide
  obtain ⟨am, noon⟩ := table h.toNat (by omega) hlo
  obtain rfl | rfl := hpm
  · simpa using am
  · simpa using noon

/-- The 24 hours of the 24-hour format, whatever AM/PM (rule R137). -/
theorem hoursUnpack_hoursPack_24h {h : Byte} (pm : Byte) (hh : h.toNat ≤ 23) :
    hoursUnpack (hoursPack h 0 pm) = (h, 0, 0) := by
  have table : ∀ k < 24, hoursUnpack (encField .hours24 (BitVec.ofNat 8 k)) = (BitVec.ofNat 8 k, 0, 0) := by decide
  simpa [hoursPack] using table h.toNat (by omega)

/-- Settles O46. -/
theorem hoursBlockRoundTrips : Obligations.HoursBlockRoundTrips :=
  ⟨fun _ _ => hoursUnpack_hoursPack_12h, fun _ pm => hoursUnpack_hoursPack_24h pm, by decide⟩

end Sys2Proof.Machine
end
